-- ==== Sys2Proof/Word.lean ====
section
/-! DEFINITION. The word types of the QSF codec core. -/

namespace Sys2Proof

/-- A register, a command word, an operand: 32 bits (`REG_WIDTH`, 00_scope.md R8; 10_state.md R21). -/
abbrev Word := BitVec 32

/-- A byte of buffer memory (20_memory.md R60). -/
abbrev Byte := BitVec 8

/-- A raw 16-bit code unit of a sized string (30_encoding.md R110). -/
abbrev CodeUnit := BitVec 16

end Sys2Proof
end

