-- ==== Sys2Proof/Config.lean ====
section
/-! DEFINITION. What the spec fixes for this hardware, what it leaves to an implementation, and the free values. -/

namespace Sys2Proof

/-- The OPEN parameters of 00_scope.md R8, arguments of the model. -/
structure Params where
  /-- `MEM_SIZE`: bytes of buffer memory. -/
  memSize : Nat
  /-- `MAX_CELLS`: the largest cell count `N` the palette and section commands accept. -/
  maxCells : Nat
  /-- `MAX_PALETTE`: the largest palette size `P` any command accepts. -/
  maxPalette : Nat
  deriving DecidableEq, Repr

/-- The ranges of 00_scope.md R8: `1 ≤ MEM_SIZE ≤ 2^32`, `MAX_CELLS ≥ 4096`, `MAX_PALETTE ≥ 4096`. -/
abbrev Params.Valid (p : Params) : Prop :=
  1 ≤ p.memSize ∧ p.memSize ≤ 4294967296 ∧ 4096 ≤ p.maxCells ∧ 4096 ≤ p.maxPalette

/-- How many units a decoded match appends (`COPY_COUNT`, 00_scope.md R8, 42_lzss.md R210). -/
inductive CopyCount where
  /-- A match appends `len` units: this hardware. -/
  | length
  /-- A match appends `off` units: the verbatim variant, not this hardware (93_implementation_defined.md I-1). -/
  | offset
  deriving DecidableEq, Repr

/-- DESIGN CHOICE (log 1): the free value that picks `MEM_SIZE` in its range. -/
opaque Config.memSizeFree : Nat

/-- DESIGN CHOICE (log 1): the free value that picks `MAX_CELLS` in its range. -/
opaque Config.maxCellsFree : Nat

/-- DESIGN CHOICE (log 1): the free value that picks `MAX_PALETTE` in its range. -/
opaque Config.maxPaletteFree : Nat

/-- DESIGN CHOICE (log 2): what byte `a` of the buffer memory holds at power-on, "any value" (70_reset_and_hazards.md
R300, R302). -/
opaque Config.powerOnByte : Nat → Byte

/-- DESIGN CHOICE (log 5): the value the `k`-th unspecified read of a destination byte returns while `BUSY`
(70_reset_and_hazards.md R310, 93_implementation_defined.md U-2). -/
opaque Config.freeRead : Nat → Byte

/-- The parameters of the machine at reset: every value that 00_scope.md R8 allows, and no other (log 1). -/
def Config.params : Params where
  memSize := Config.memSizeFree % 4294967296 + 1
  maxCells := 4095 + Config.maxCellsFree + 1
  maxPalette := 4095 + Config.maxPaletteFree + 1

/-- `COPY_COUNT` is fixed to `LENGTH` on this hardware (00_scope.md R8, 42_lzss.md R210). -/
def Config.copyCount : CopyCount := .length

/-- `HDR_BITS`: the width of every LZSS header field (00_scope.md R8). -/
def Config.hdrBits : Nat := 12

/-- `W_MIN`: the least legal unit width (00_scope.md R8). -/
def Config.wMin : Nat := 1

/-- `W_MAX`: the greatest legal unit width (00_scope.md R8). -/
def Config.wMax : Nat := 16

/-- The hardwired value of `ID` (10_state.md R23). -/
def Config.idValue : Word := 0x51534601#32

end Sys2Proof
end

