-- ==== Sys2Proof/Syntax.lean ====
section
/-! DEFINITION. The commands of the core, and what the host and the platform can do to it. -/

namespace Sys2Proof

/-- The seven commands (30_encoding.md R91). A command word carries no operand: all operands are in the latched
registers (30_encoding.md R90, R97). -/
inductive Instr where
  /-- `BITW`, bit-width calculator (40_bitwidth.md R141). -/
  | bitw
  /-- `PAL_ENC`, palette encoder (41_palette.md R155). -/
  | palEnc
  /-- `PAL_DEC`, palette decoder (41_palette.md R165). -/
  | palDec
  /-- `LZ_COMP`, LZSS compressor (42_lzss.md R180). -/
  | lzComp
  /-- `LZ_DECOMP`, LZSS decompressor (42_lzss.md R200). -/
  | lzDecomp
  /-- `SEC_ENC`, section encoder (43_section.md R230). -/
  | secEnc
  /-- `SEC_DEC`, section decoder (43_section.md R240). -/
  | secDec
  deriving DecidableEq, Repr

/-- The twelve RW registers, host-writable operands (10_state.md R21, R31). -/
inductive RwReg where
  | src0Addr | src0Len | src1Addr | src1Len
  | dst0Addr | dst0Cap | dst1Addr | dst1Cap
  | arg0 | arg1 | arg2 | arg3
  deriving DecidableEq, Repr

/-- The registers of the register block by name (10_state.md R21). -/
inductive RegName where
  | id | cmd | status | errinfo
  | rw (r : RwReg)
  | res0 | res1 | res2 | res3
  deriving DecidableEq, Repr

/-- One event that reaches the block from outside (10_state.md R20, 30_encoding.md R120, R121; log 3). -/
inductive HostOp where
  /-- A write of `bits` bits to the register block at byte offset `offset`. -/
  | regWrite (bits : Nat) (offset : BitVec 8) (value : Word)
  /-- A read of `bits` bits of the register block at byte offset `offset`. -/
  | regRead (bits : Nat) (offset : BitVec 8)
  /-- A write of one buffer-memory byte. -/
  | memWrite (addr : Nat) (value : Byte)
  /-- A read of one buffer-memory byte. -/
  | memRead (addr : Nat)
  /-- `wait`: read `STATUS` until bit 0 of the value read is 0; one read is one step (log 8). -/
  | poll
  /-- The platform asserts reset (70_reset_and_hazards.md R300). -/
  | reset
  deriving DecidableEq, Repr

/-- What one read of the host returned (30_encoding.md R120; log 8). -/
inductive Seen where
  /-- The register at `offset` read as `value`. -/
  | reg (offset : BitVec 8) (value : Word)
  /-- The buffer-memory byte at `addr` read as `value`. -/
  | mem (addr : Nat) (value : Byte)
  deriving DecidableEq, Repr

/-- A statement of a host program (30_encoding.md R120, R121). -/
inductive Stmt where
  /-- `wr REG, v` -/
  | wr (reg : RegName) (value : Word)
  /-- `rd REG` -/
  | rd (reg : RegName)
  /-- `mwr A, b0 b1 …` -/
  | mwr (addr : Nat) (bytes : List Byte)
  /-- `mrd A, n` -/
  | mrd (addr : Nat) (count : Nat)
  /-- `cmd MNEM` -/
  | cmd (i : Instr)
  /-- `wait` -/
  | wait
  /-- `run MNEM` -/
  | run (i : Instr)
  deriving DecidableEq, Repr

end Sys2Proof
end

