-- ==== Sys2Proof/WellFormed.lean ====
section
/-! DEFINITION. What the spec requires of a command, of a host access and of a host statement before they have a meaning. -/

namespace Sys2Proof

/-- Every command is well formed: the command word has no operand, immediate or mode field that could be out of range
(30_encoding.md R90, R94); operand values are checked by the command itself (30_encoding.md R97). -/
def Instr.wellFormed : Instr → Bool
  | .bitw => true
  | .palEnc => true
  | .palDec => true
  | .lzComp => true
  | .lzDecomp => true
  | .secEnc => true
  | .secDec => true

/-- A register access the hardware defines: 32 bits wide, at a byte offset that is a multiple of 4 (10_state.md R22). -/
def regAccessWellFormed (bits : Nat) (offset : BitVec 8) : Bool :=
  bits == 32 && offset.toNat % 4 == 0

/-- A buffer-memory address a host access may name: below `MEM_SIZE` (20_memory.md R60). -/
def memAccessWellFormed (p : Params) (addr : Nat) : Bool :=
  decide (addr < p.memSize)

/-- The host accesses that have a defined behaviour on a machine with parameters `p` (10_state.md R22, 20_memory.md R60). -/
def HostOp.wellFormed (p : Params) : HostOp → Bool
  | .regWrite bits offset _ => regAccessWellFormed bits offset
  | .regRead bits offset => regAccessWellFormed bits offset
  | .memWrite addr _ => memAccessWellFormed p addr
  | .memRead addr => memAccessWellFormed p addr
  | .poll => true
  | .reset => true

/-- A host statement all of whose bus accesses are well formed: `mwr` and `mrd` stay below `MEM_SIZE` (20_memory.md R60). -/
def Stmt.wellFormed (p : Params) : Stmt → Bool
  | .wr _ _ => true
  | .rd _ => true
  | .mwr addr bytes => bytes.isEmpty || decide (addr + bytes.length ≤ p.memSize)
  | .mrd addr count => count == 0 || decide (addr + count ≤ p.memSize)
  | .cmd _ => true
  | .wait => true
  | .run _ => true

end Sys2Proof
end

