-- ==== Sys2Proof/Decode.lean ====
section
/-! DEFINITION. Decoding a command word, total, rejecting by name; then the encoder. -/

namespace Sys2Proof

/-- Why a command word is illegal (30_encoding.md R93). -/
inductive DecodeError where
  /-- A bit of `RSVD` (bits 31:8) is set. -/
  | reservedBits
  /-- `OPCODE` is 0x00 or in 0x08–0xFF. -/
  | reservedOpcode
  deriving DecidableEq, Repr

/-- The `OPCODE` field of a command word, bits 7:0 (30_encoding.md R90). -/
def opcodeField (w : Word) : BitVec 8 := w.extractLsb' 0 8

/-- The `RSVD` field of a command word, bits 31:8 (30_encoding.md R90). -/
def rsvdField (w : Word) : BitVec 24 := w.extractLsb' 8 24

/-- The opcode map (30_encoding.md R91). -/
def decodeOpcode (op : BitVec 8) : Except DecodeError Instr :=
  if op = 0x01#8 then .ok .bitw
  else if op = 0x02#8 then .ok .palEnc
  else if op = 0x03#8 then .ok .palDec
  else if op = 0x04#8 then .ok .lzComp
  else if op = 0x05#8 then .ok .lzDecomp
  else if op = 0x06#8 then .ok .secEnc
  else if op = 0x07#8 then .ok .secDec
  else .error .reservedOpcode

/-- The command is decided by the 32 bits of `CMD` alone (30_encoding.md R90, R91, R93, R94). -/
def decode (w : Word) : Except DecodeError Instr :=
  if rsvdField w = 0#24 then decodeOpcode (opcodeField w) else .error .reservedBits

/-- The command word of row `i` of the opcode table, numbered as the table numbers its bits: the command word is the one
word of the instruction, bit 0 its least significant bit (30_encoding.md R90). Bits at or above `nbits` are 0; a value that
does not fit 32 bits is no command word. -/
def decodeTableWord (nbits w : Nat) : Option Instr :=
  if w % 2 ^ nbits < 4294967296 then
    match decode (BitVec.ofNat 32 (w % 2 ^ nbits)) with
    | .ok i => some i
    | .error _ => none
  else none

/-- The `OPCODE` of a command (30_encoding.md R91). -/
def opcodeOf : Instr → BitVec 8
  | .bitw => 0x01#8
  | .palEnc => 0x02#8
  | .palDec => 0x03#8
  | .lzComp => 0x04#8
  | .lzDecomp => 0x05#8
  | .secEnc => 0x06#8
  | .secDec => 0x07#8

/-- The command word of a command: `RSVD` zero, then `OPCODE` (30_encoding.md R90). -/
def encode (i : Instr) : Word := 0#24 ++ opcodeOf i

end Sys2Proof
end

