-- ==== Sys2Proof/Machine/State.lean ====
section
/-! DEFINITION. The state of the machine (10_state.md R49), its reset value, and the reasons a step can stop. -/

namespace Sys2Proof.Machine

open Sys2Proof

/-- The core's phase (10_state.md R41). -/
inductive Phase where
  | idle
  | busy
  deriving DecidableEq, Repr

/-- The values of the twelve RW registers: the register block's own, or the copy latched at a command start
(10_state.md R21, R40). -/
structure RwRegs where
  src0Addr : Word
  src0Len : Word
  src1Addr : Word
  src1Len : Word
  dst0Addr : Word
  dst0Cap : Word
  dst1Addr : Word
  dst1Cap : Word
  arg0 : Word
  arg1 : Word
  arg2 : Word
  arg3 : Word
  deriving DecidableEq, Repr

/-- All twelve registers 0 (70_reset_and_hazards.md R300). -/
def RwRegs.zero : RwRegs where
  src0Addr := 0#32
  src0Len := 0#32
  src1Addr := 0#32
  src1Len := 0#32
  dst0Addr := 0#32
  dst0Cap := 0#32
  dst1Addr := 0#32
  dst1Cap := 0#32
  arg0 := 0#32
  arg1 := 0#32
  arg2 := 0#32
  arg3 := 0#32

/-- The written bytes of the buffer memory, addresses strictly rising; an address not listed holds its power-on byte
(20_memory.md R60, 70_reset_and_hazards.md R302; log 2). -/
abbrev Memory := List Host.Cell

/-- The state: the tuple `(phase, Lcmd, Lreg, regs, MEM)` of 10_state.md R49, and the model's own fields `params`, `host`,
`schedule`, `seen` and `freeCount` (log 1, 3, 5, 8). `ID` is hardwired and `CMD` holds no value, so neither is stored
(10_state.md R23, R24). -/
structure State where
  /-- The OPEN parameters, fixed for a run (00_scope.md R8, 10_state.md R48; log 1). -/
  params : Params
  /-- 10_state.md R41. -/
  phase : Phase
  /-- `Lcmd`, the latched command word (10_state.md R40). -/
  lcmd : Word
  /-- `Lreg`, the latched operands (10_state.md R40). -/
  lreg : RwRegs
  /-- The RW registers of the register block (10_state.md R21, R28, R29). -/
  rw : RwRegs
  /-- `STATUS` (10_state.md R25). -/
  status : Word
  /-- `ERRINFO` (10_state.md R27). -/
  errinfo : Word
  /-- `RES0` (10_state.md R30). -/
  res0 : Word
  /-- `RES1` (10_state.md R30). -/
  res1 : Word
  /-- `RES2` (10_state.md R30). -/
  res2 : Word
  /-- `RES3` (10_state.md R30). -/
  res3 : Word
  /-- `MEM`, the buffer memory (20_memory.md R60). -/
  mem : Memory
  /-- What the host and the platform will still do, in order (10_state.md R48, 20_memory.md R77; log 3). -/
  host : List HostOp
  /-- Who moves next while `BUSY` and the host has something to do: true the completion, false the host; empty, the
  completion (70_reset_and_hazards.md R320, 60_exceptions.md R266; log 3). -/
  schedule : List Bool
  /-- What the host's reads returned, oldest first (30_encoding.md R120; log 8). -/
  seen : List Seen
  /-- How many unspecified reads have been answered (93_implementation_defined.md U-2; log 5). -/
  freeCount : Nat
  deriving DecidableEq, Repr

/-- The machine right after power-on: every register as 70_reset_and_hazards.md R300 says, no byte of memory written
(R302), the parameters free in their ranges (log 1), and nothing yet to come from the host (log 9). -/
def State.reset : State where
  params := Config.params
  phase := .idle
  lcmd := 0#32
  lreg := RwRegs.zero
  rw := RwRegs.zero
  status := 0#32
  errinfo := 0#32
  res0 := 0#32
  res1 := 0#32
  res2 := 0#32
  res3 := 0#32
  mem := []
  host := []
  schedule := []
  seen := []
  freeCount := 0

/-- Why the machine stops with a fault. -/
inductive Fault where
  /-- `HOST_HAZARD`: the host wrote the byte at `addr`, inside a region of the running command, while `BUSY`; no rule gives a
  later state (70_reset_and_hazards.md R310, 93_implementation_defined.md U-3). Raised by the host's memory write. Safe: the
  spec itself says that the model stops here. -/
  | hostHazard (addr : Nat)
  deriving DecidableEq, Repr

/-- Why the machine rejects what it is asked to do. -/
inductive Refusal where
  /-- The instruction has no meaning in this model yet. Raised by exec's arms only; no arm raises it now. Safe. -/
  | notModelled (mnemonic : String)
  /-- A register access that is not 32 bits wide or not at a multiple of 4: "a model refuses it" (10_state.md R22). Raised by
  the host's register read and write. Safe. -/
  | registerAccess (bits : Nat) (offset : BitVec 8)
  /-- A host access to buffer memory at or above `MEM_SIZE`: "a model refuses it" (20_memory.md R60). Raised by the host's
  memory read and write. Safe. -/
  | hostAddress (addr : Nat)
  deriving DecidableEq, Repr

/-- The three error kinds (60_exceptions.md R260). -/
inductive Kind where
  | malformedStream
  | contractViolation
  | ioFailure
  deriving DecidableEq, Repr

/-- The error causes, one per row of the table of 60_exceptions.md R261. -/
inductive Cause where
  | prematureEnd
  | negativeCount
  | indexRange
  | badLzssHeader
  | badOffset
  | inconsistentHeader
  | duplicateKey
  | illegalCommand
  | widthRange
  | paramRange
  | regionOverlap
  | badAddress
  | dstOverflow
  | capacity
  deriving DecidableEq, Repr

/-- What a command function produces on success: a byte string for each destination region and the four results
(30_encoding.md R96). A region the opcode does not use gets the empty string. -/
structure Output where
  out0 : List Byte
  out1 : List Byte
  res0 : Nat
  res1 : Nat
  res2 : Nat
  res3 : Nat
  deriving DecidableEq, Repr

/-- A region `(A, n)` of the buffer memory (20_memory.md R61). -/
structure Region where
  addr : Nat
  len : Nat
  deriving DecidableEq, Repr

/-- A block, a value `Block(name, props)` (41_palette.md R150). -/
structure Block where
  name : List CodeUnit
  props : List (List CodeUnit × List CodeUnit)
  deriving DecidableEq, Repr

/-- One token of an LZSS body (30_encoding.md R117). -/
inductive Token where
  /-- A literal of the unit `v`. -/
  | lit (v : Nat)
  /-- A match `(offset, length)`. -/
  | mat (off len : Nat)
  deriving DecidableEq, Repr

/-- A bit reader: its position from the start of its region, and the bits from there to its limit (20_memory.md R65, 10_state.md
R47). -/
structure BitReader where
  pos : Nat
  rest : List Bool
  deriving DecidableEq, Repr

/-- The header of an LZSS payload and its unit count (42_lzss.md R201). -/
structure LzHeader where
  search : Nat
  lookahead : Nat
  width : Nat
  count : Nat
  deriving DecidableEq, Repr

end Sys2Proof.Machine
end

