-- ==== Sys2Proof/Machine/Flags.lean ====
section
/-! DEFINITION. `STATUS` and its flags, and the error codes of `ERRINFO`. -/

namespace Sys2Proof.Machine

/-- `STATUS` of an idle core that has run nothing since reset (10_state.md R25). -/
def statusIdle : Word := 0x00000000#32

/-- `STATUS` with `BUSY` (10_state.md R25, R40). -/
def statusBusy : Word := 0x00000001#32

/-- `STATUS` with `DONE` (10_state.md R25, R41). -/
def statusDone : Word := 0x00000002#32

/-- `STATUS` with `ERR` (10_state.md R25, 60_exceptions.md R270). -/
def statusErr : Word := 0x00000004#32

/-- `STATUS.BUSY` (10_state.md R25). -/
def busyFlag (status : Word) : Bool := status.getLsbD 0

/-- `STATUS.DONE` (10_state.md R25). -/
def doneFlag (status : Word) : Bool := status.getLsbD 1

/-- `STATUS.ERR` (10_state.md R25). -/
def errFlag (status : Word) : Bool := status.getLsbD 2

/-- The kind of each cause (60_exceptions.md R261). -/
def causeKind : Cause → Kind
  | .prematureEnd => .malformedStream
  | .negativeCount => .malformedStream
  | .indexRange => .malformedStream
  | .badLzssHeader => .malformedStream
  | .badOffset => .malformedStream
  | .inconsistentHeader => .malformedStream
  | .duplicateKey => .malformedStream
  | .illegalCommand => .contractViolation
  | .widthRange => .contractViolation
  | .paramRange => .contractViolation
  | .regionOverlap => .contractViolation
  | .badAddress => .ioFailure
  | .dstOverflow => .ioFailure
  | .capacity => .ioFailure

/-- The `KIND` code (10_state.md R27, 60_exceptions.md R260). -/
def kindCode : Kind → BitVec 8
  | .malformedStream => 0x01#8
  | .contractViolation => 0x02#8
  | .ioFailure => 0x03#8

/-- The `CAUSE` code, numbered per kind (60_exceptions.md R261). -/
def causeCode : Cause → BitVec 8
  | .prematureEnd => 0x01#8
  | .negativeCount => 0x02#8
  | .indexRange => 0x03#8
  | .badLzssHeader => 0x04#8
  | .badOffset => 0x05#8
  | .inconsistentHeader => 0x06#8
  | .duplicateKey => 0x07#8
  | .illegalCommand => 0x01#8
  | .widthRange => 0x02#8
  | .paramRange => 0x03#8
  | .regionOverlap => 0x04#8
  | .badAddress => 0x01#8
  | .dstOverflow => 0x02#8
  | .capacity => 0x03#8

/-- `ERRINFO` of an error of command word `cmd`: `KIND | CAUSE << 8 | OPCODE << 16`, bits [31:24] zero (10_state.md R27,
60_exceptions.md R267). -/
def errinfoWord (c : Cause) (cmd : Word) : Word :=
  0#8 ++ opcodeField cmd ++ causeCode c ++ kindCode (causeKind c)

end Sys2Proof.Machine
end

