-- ==== Sys2Proof/Machine/Bits.lean ====
section
/-! DEFINITION. The bit streams of 20_memory.md section 2: most significant bit first, big-endian. -/

namespace Sys2Proof.Machine

/-- The bits of a byte, bit 7 first (20_memory.md R64). -/
def byteBits (b : Byte) : List Bool :=
  [b.getLsbD 7, b.getLsbD 6, b.getLsbD 5, b.getLsbD 4, b.getLsbD 3, b.getLsbD 2, b.getLsbD 1, b.getLsbD 0]

/-- The bits of a byte sequence in stream order (20_memory.md R64). -/
def bytesToBits : List Byte → List Bool
  | [] => []
  | b :: bs => byteBits b ++ bytesToBits bs

/-- What `put(w, v, m)` appends: `v[m−1], …, v[0]` (20_memory.md R66). -/
def natBits : Nat → Nat → List Bool
  | 0, _ => []
  | m + 1, v => v.testBit m :: natBits m v

/-- The unsigned value of a bit sequence, first bit most significant, on top of `acc` (20_memory.md R65). -/
def bitsValue (acc : Nat) : List Bool → Nat
  | [] => acc
  | b :: bs => bitsValue (2 * acc + b.toNat) bs

/-- `align(w)`: 0 bits up to the next byte boundary (20_memory.md R67). -/
def alignBits (bits : List Bool) : List Bool :=
  bits ++ List.replicate ((8 - bits.length % 8) % 8) false

/-- Cuts an aligned bit sequence into bytes in stream order (20_memory.md R67). -/
def cutBytes : List Bool → List Byte
  | b7 :: b6 :: b5 :: b4 :: b3 :: b2 :: b1 :: b0 :: rest =>
    BitVec.ofNat 8 (bitsValue 0 [b7, b6, b5, b4, b3, b2, b1, b0]) :: cutBytes rest
  | _ => []

/-- `bytes(w)` (20_memory.md R67). -/
def bitsToBytes (bits : List Bool) : List Byte := cutBytes (alignBits bits)

/-- `BitReader` over a byte sequence (20_memory.md R65). -/
def readerOf (bytes : List Byte) : BitReader := ⟨0, bytesToBits bytes⟩

/-- Takes `m` bits from `bits`, most significant first, on top of `acc`; none if they end first (20_memory.md R65). -/
def takeBits : Nat → Nat → List Bool → Option (Nat × List Bool)
  | 0, acc, bits => some (acc, bits)
  | _ + 1, _, [] => none
  | m + 1, acc, b :: bits => takeBits m (2 * acc + b.toNat) bits

/-- `get(r, m)` (20_memory.md R65). -/
def getBits (r : BitReader) (m : Nat) : Except Cause (Nat × BitReader) :=
  match takeBits m 0 r.rest with
  | some (v, rest) => .ok (v, ⟨r.pos + m, rest⟩)
  | none => .error .prematureEnd

/-- `s32(get(r, 32))`, a 32-bit count or length: negative is `NEGATIVE_COUNT` (20_memory.md R68, 30_encoding.md R110;
00_scope.md R10). -/
def getCount (r : BitReader) : Except Cause (Nat × BitReader) := do
  let (v, r) ← getBits r 32
  if v < 2147483648 then .ok (v, r) else .error .negativeCount

/-- `n` fields of `m` bits, in order (30_encoding.md R112, R118). -/
def getMany (m : Nat) : Nat → BitReader → Except Cause (List Nat × BitReader)
  | 0, r => .ok ([], r)
  | n + 1, r => do
    let (v, r) ← getBits r m
    let (vs, r) ← getMany m n r
    .ok (v :: vs, r)

/-- The bits of the units `u` at width `w`, concatenated without byte alignment (30_encoding.md R118). -/
def unitBits (w : Nat) : List Nat → List Bool
  | [] => []
  | v :: vs => natBits w v ++ unitBits w vs

/-- `pack(u, W)` (30_encoding.md R118). -/
def pack (u : List Nat) (w : Nat) : List Byte := bitsToBytes (unitBits w u)

/-- `unpack(B, W, N)`: the first `N` units of width `W`; later bits are ignored (30_encoding.md R118). -/
def unpack (bytes : List Byte) (w n : Nat) : Except Cause (List Nat) := do
  let (u, _) ← getMany w n (readerOf bytes)
  .ok u

end Sys2Proof.Machine
end

