-- ==== Sys2Proof/Machine/Ops.lean ====
section
/-! DEFINITION. The named operations over memory and registers: reads and writes of the buffer memory, command start, successful
completion, error completion (taking an exception), and reset. -/

namespace Sys2Proof.Machine

/-- The written byte at `a`, if any (log 2). -/
def memFind : Memory → Nat → Option Byte
  | [], _ => none
  | (k, b) :: m, a => if k = a then some b else memFind m a

/-- `MEM[a]`: what is stored at `a`; an address nothing has written holds its power-on byte (20_memory.md R60, R71;
70_reset_and_hazards.md R302; log 2). -/
def memRead (m : Memory) (a : Nat) : Byte :=
  match memFind m a with
  | some b => b
  | none => Config.powerOnByte a

/-- `MEM[a] <- b` (20_memory.md R60, R71). -/
def memWrite : Memory → Nat → Byte → Memory
  | [], a, b => [(a, b)]
  | (k, c) :: m, a, b =>
    if a < k then (a, b) :: (k, c) :: m
    else if a = k then (a, b) :: m
    else (k, c) :: memWrite m a b

/-- The canonical form of a memory: addresses strictly rising (log 2). -/
def memSorted : Memory → Bool
  | [] => true
  | [_] => true
  | (a, _) :: (b, c) :: m => decide (a < b) && memSorted ((b, c) :: m)

/-- The form of a memory of `size` bytes: canonical, every listed address below `size` (20_memory.md R60). -/
def Memory.wf (size : Nat) (m : Memory) : Bool :=
  memSorted m && m.all (fun c => decide (c.1 < size))

/-- The bytes `MEM[a .. a+n)` (20_memory.md R61). -/
def memBytes (m : Memory) : Nat → Nat → List Byte
  | _, 0 => []
  | a, n + 1 => memRead m a :: memBytes m (a + 1) n

/-- `MEM[a + k] <- out[k]` for every `k` (20_memory.md R72). -/
def memWriteBytes (m : Memory) (a : Nat) : List Byte → Memory
  | [] => m
  | b :: bs => memWriteBytes (memWrite m a b) (a + 1) bs

/-- The big-endian value of a byte sequence (20_memory.md R63). -/
def bytesValue : List Byte → Nat
  | [] => 0
  | b :: bs => b.toNat * 2 ^ (8 * bs.length) + bytesValue bs

/-- `MemRead(addr, n)`, big-endian (20_memory.md R63). -/
def memReadBE (m : Memory) (addr n : Nat) : Nat := bytesValue (memBytes m addr n)

/-- The `n` big-endian bytes of `v` (20_memory.md R63). -/
def bytesOf : Nat → Nat → List Byte
  | 0, _ => []
  | n + 1, v => BitVec.ofNat 8 (v / 2 ^ (8 * n)) :: bytesOf n v

/-- `MemWrite(addr, n, v)`, big-endian (20_memory.md R63). -/
def memWriteBE (m : Memory) (addr n v : Nat) : Memory := memWriteBytes m addr (bytesOf n v)

/-- Command start with command word `c`, one indivisible step (10_state.md R40). It is also the return from an error: it clears
`STATUS.ERR`, `ERRINFO` and the results (60_exceptions.md R275). -/
def State.start (s : State) (c : Word) : State :=
  { s with
    phase := .busy
    lcmd := c
    lreg := s.rw
    status := statusBusy
    errinfo := 0#32
    res0 := 0#32
    res1 := 0#32
    res2 := 0#32
    res3 := 0#32 }

/-- Successful completion, one indivisible step: the outputs stand at the start of their destination regions, the results in
`RES0..RES3`, `STATUS` is `DONE`, the phase `IDLE` (10_state.md R41, 20_memory.md R72). -/
def State.succeed (s : State) (o : Output) : State :=
  { s with
    phase := .idle
    status := statusDone
    errinfo := 0#32
    res0 := BitVec.ofNat 32 o.res0
    res1 := BitVec.ofNat 32 o.res1
    res2 := BitVec.ofNat 32 o.res2
    res3 := BitVec.ofNat 32 o.res3
    mem := memWriteBytes (memWriteBytes s.mem s.lreg.dst0Addr.toNat o.out0) s.lreg.dst1Addr.toNat o.out1 }

/-- Error completion, taking the exception `c`, one indivisible step: no memory byte changes, the results are 0, `ERRINFO`
records kind, cause and opcode, `STATUS` is `ERR`, the phase `IDLE` (60_exceptions.md R270, R271, R267). -/
def State.raise (s : State) (c : Cause) : State :=
  { s with
    phase := .idle
    status := statusErr
    errinfo := errinfoWord c s.lcmd
    res0 := 0#32
    res1 := 0#32
    res2 := 0#32
    res3 := 0#32 }

/-- The completion step on the result of the command function (10_state.md R41, 30_encoding.md R96). -/
def State.complete (s : State) : Except Cause Output → State
  | .ok o => s.succeed o
  | .error c => s.raise c

/-- Reset, one indivisible step; memory keeps its bytes, and a pending completion is discarded (70_reset_and_hazards.md R300,
R301). -/
def State.afterReset (s : State) : State :=
  { s with
    phase := .idle
    lcmd := 0#32
    lreg := RwRegs.zero
    rw := RwRegs.zero
    status := statusIdle
    errinfo := 0#32
    res0 := 0#32
    res1 := 0#32
    res2 := 0#32
    res3 := 0#32 }

/-- A host read returned `x` (30_encoding.md R120; log 8). -/
def State.saw (s : State) (x : Seen) : State := { s with seen := s.seen ++ [x] }

/-- A read whose value the spec leaves unspecified returned a free value (70_reset_and_hazards.md R310; log 5). -/
def State.sawFree (s : State) (addr : Nat) : State :=
  { s with
    seen := s.seen ++ [Seen.mem addr (Config.freeRead s.freeCount)]
    freeCount := s.freeCount + 1 }

/-- The host wrote byte `b` at `a`. -/
def State.storeByte (s : State) (a : Nat) (b : Byte) : State := { s with mem := memWrite s.mem a b }

/-- The RW registers become `rw`. -/
def State.withRw (s : State) (rw : RwRegs) : State := { s with rw := rw }

/-- The host's events still to come are `ops`. -/
def State.withHost (s : State) (ops : List HostOp) : State := { s with host := ops }

/-- The schedule still to come is `bs`. -/
def State.withSchedule (s : State) (bs : List Bool) : State := { s with schedule := bs }

end Sys2Proof.Machine
end

