-- ==== Sys2Proof/Machine/Operands.lean ====
section
/-! DEFINITION. Operands: the regions and arguments each command uses, and the checks on regions. -/

namespace Sys2Proof.Machine

/-- SRC0 (30_encoding.md R95). -/
def src0 (r : RwRegs) : Region := ⟨r.src0Addr.toNat, r.src0Len.toNat⟩

/-- SRC1 (30_encoding.md R95). -/
def src1 (r : RwRegs) : Region := ⟨r.src1Addr.toNat, r.src1Len.toNat⟩

/-- DST0 (30_encoding.md R95). -/
def dst0 (r : RwRegs) : Region := ⟨r.dst0Addr.toNat, r.dst0Cap.toNat⟩

/-- DST1 (30_encoding.md R95). -/
def dst1 (r : RwRegs) : Region := ⟨r.dst1Addr.toNat, r.dst1Cap.toNat⟩

/-- The source regions a command uses, in order (30_encoding.md R95). -/
def sourceRegions (i : Instr) (r : RwRegs) : List Region :=
  match i with
  | .bitw => []
  | .palEnc => [src0 r]
  | .palDec => [src0 r, src1 r]
  | .lzComp => [src0 r]
  | .lzDecomp => [src0 r]
  | .secEnc => [src0 r]
  | .secDec => [src0 r]

/-- The destination regions a command uses, in order (30_encoding.md R95). -/
def destRegions (i : Instr) (r : RwRegs) : List Region :=
  match i with
  | .bitw => []
  | .palEnc => [dst0 r, dst1 r]
  | .palDec => [dst0 r]
  | .lzComp => [dst0 r]
  | .lzDecomp => [dst0 r]
  | .secEnc => [dst0 r]
  | .secDec => [dst0 r]

/-- A region is in bounds when `A + n ≤ MEM_SIZE`, without wrap-around (20_memory.md R61). -/
def inBounds (p : Params) (r : Region) : Bool := decide (r.addr + r.len ≤ p.memSize)

/-- Two regions overlap (20_memory.md R62). -/
def overlap (a b : Region) : Bool :=
  decide (0 < a.len) && decide (0 < b.len) && decide (a.addr < b.addr + b.len) && decide (b.addr < a.addr + a.len)

/-- The region holds the byte at `a` (20_memory.md R61). -/
def regionHolds (r : Region) (a : Nat) : Bool := decide (r.addr ≤ a) && decide (a < r.addr + r.len)

/-- Some two regions of a list, at different places of it, overlap. -/
def anyOverlap : List Region → Bool
  | [] => false
  | r :: rs => rs.any (overlap r) || anyOverlap rs

/-- A source and a destination overlap, or two destinations do; sources may overlap each other (20_memory.md R62). -/
def regionsOverlap (srcs dsts : List Region) : Bool :=
  srcs.any (fun r => dsts.any (overlap r)) || anyOverlap dsts

/-- `checkBounds` of every region in the order SRC0, SRC1, DST0, DST1 (20_memory.md R61, 60_exceptions.md R262). -/
def checkBounds (p : Params) : List Region → Except Cause Unit
  | [] => .ok ()
  | r :: rs => if inBounds p r then checkBounds p rs else .error .badAddress

/-- `checkOverlap` (20_memory.md R62). -/
def checkOverlap (srcs dsts : List Region) : Except Cause Unit :=
  if regionsOverlap srcs dsts then .error .regionOverlap else .ok ()

/-- `checkCapacity(DSTk, m)` (60_exceptions.md R263). -/
def checkCapacity (d : Region) (m : Nat) : Except Cause Unit :=
  if d.len < m then .error .dstOverflow else .ok ()

/-- A count above a working capacity is `CAPACITY` (60_exceptions.md R264). -/
def checkLimit (limit n : Nat) : Except Cause Unit :=
  if limit < n then .error .capacity else .ok ()

/-- An operand outside `[lo, hi]` raises `c` (42_lzss.md R181, 43_section.md R230). -/
def checkRange (c : Cause) (lo hi n : Nat) : Except Cause Unit :=
  if lo ≤ n ∧ n ≤ hi then .ok () else .error c

/-- `checkLzParams(S, L, W, N)`, in this order (42_lzss.md R181). -/
def checkLzParams (search look width n : Nat) : Except Cause Unit := do
  checkRange .paramRange 1 4095 search
  checkRange .paramRange 1 4095 look
  checkRange .widthRange Config.wMin Config.wMax width
  checkRange .paramRange 0 4096 n

/-- The operand range checks of a command, in the order its rule states them (30_encoding.md R96 step 1; 40_bitwidth.md R141,
41_palette.md R155, R165, 42_lzss.md R181, R200, 43_section.md R230, R240). -/
def checkOperands (p : Params) (i : Instr) (r : RwRegs) : Except Cause Unit :=
  match i with
  | .bitw => .ok ()
  | .palEnc => checkLimit p.maxCells r.arg0.toNat
  | .palDec => do
    checkLimit p.maxPalette r.arg0.toNat
    checkLimit p.maxCells r.arg1.toNat
  | .lzComp => checkLzParams r.arg0.toNat r.arg1.toNat r.arg2.toNat r.arg3.toNat
  | .lzDecomp => .ok ()
  | .secEnc => do
    checkRange .paramRange 0 4096 r.arg0.toNat
    checkRange .paramRange 1 4095 r.arg1.toNat
    checkRange .paramRange 1 4095 r.arg2.toNat
  | .secDec => .ok ()

/-- What every command checks before it reads a byte: its operands, then the bounds of its regions, then their overlap
(30_encoding.md R96 steps 1 to 3, 60_exceptions.md R265). -/
def checkCommand (p : Params) (i : Instr) (r : RwRegs) : Except Cause Unit := do
  checkOperands p i r
  checkBounds p (sourceRegions i r ++ destRegions i r)
  checkOverlap (sourceRegions i r) (destRegions i r)

/-- The bytes of a region (20_memory.md R61). -/
def regionBytes (m : Memory) (r : Region) : List Byte := memBytes m r.addr r.len

/-- `BitReader(region)` (20_memory.md R65). -/
def regionReader (m : Memory) (r : Region) : BitReader := readerOf (regionBytes m r)

end Sys2Proof.Machine
end

