-- ==== Sys2Proof/Machine/BitWidth.lean ====
section
/-! DEFINITION. `BITW`, the bit-width calculator. -/

namespace Sys2Proof.Machine

/-- `b2r(n)`: `floor(log2(n)) + 1` for `n > 0`, and 0 for `n = 0` (40_bitwidth.md R140). -/
def b2r (n : Nat) : Nat := if n = 0 then 0 else Nat.log2 n + 1

/-- `F_BITW` (40_bitwidth.md R141). -/
def cmdBitw (p : Params) (r : RwRegs) : Except Cause Output := do
  checkCommand p .bitw r
  .ok { out0 := [], out1 := [], res0 := b2r r.arg0.toNat, res1 := 0, res2 := 0, res3 := 0 }

/-- `BITW` (40_bitwidth.md R141). -/
def execBitw (s : State) : Host.Outcome State Fault Refusal :=
  .next (s.complete (cmdBitw s.params s.lreg))

end Sys2Proof.Machine
end

