-- ==== Sys2Proof/Machine/Records.lean ====
section
/-! DEFINITION. Block records: reading and writing blocks as bits. -/

namespace Sys2Proof.Machine

/-- `len` raw 16-bit code units (30_encoding.md R110, R112). -/
def readUnits : Nat → BitReader → Except Cause (List CodeUnit × BitReader)
  | 0, r => .ok ([], r)
  | n + 1, r => do
    let (v, r) ← getBits r 16
    let (vs, r) ← readUnits n r
    .ok (BitVec.ofNat 16 v :: vs, r)

/-- `readString(r)` (30_encoding.md R112). -/
def readString (r : BitReader) : Except Cause (List CodeUnit × BitReader) := do
  let (len, r) ← getCount r
  readUnits len r

/-- The property loop of `readRecord`, after the properties `props` (30_encoding.md R112): a key already listed is
`DUPLICATE_KEY`, tested after the value is read. -/
def readProps : Nat → List (List CodeUnit × List CodeUnit) → BitReader →
    Except Cause (List (List CodeUnit × List CodeUnit) × BitReader)
  | 0, props, r => .ok (props, r)
  | n + 1, props, r => do
    let (key, r) ← readString r
    let (val, r) ← readString r
    if props.any (fun kv => kv.1 == key) then .error .duplicateKey
    else readProps n (props ++ [(key, val)]) r

/-- `readRecord(r)` (30_encoding.md R112). -/
def readRecord (r : BitReader) : Except Cause (Block × BitReader) := do
  let (name, r) ← readString r
  let (pc, r) ← getCount r
  let (props, r) ← readProps pc [] r
  .ok (⟨name, props⟩, r)

/-- `n` block records, stopping at the first error (30_encoding.md R119, 41_palette.md R155). -/
def readRecords : Nat → BitReader → Except Cause (List Block × BitReader)
  | 0, r => .ok ([], r)
  | n + 1, r => do
    let (b, r) ← readRecord r
    let (bs, r) ← readRecords n r
    .ok (b :: bs, r)

/-- A sized string: its length in 32 bits, then its code units (30_encoding.md R110, R113). -/
def stringBits (u : List CodeUnit) : List Bool :=
  natBits 32 u.length ++ unitBits 16 (u.map BitVec.toNat)

/-- The properties of a block record, in order (30_encoding.md R113). -/
def propsBits : List (List CodeUnit × List CodeUnit) → List Bool
  | [] => []
  | (k, v) :: ps => stringBits k ++ stringBits v ++ propsBits ps

/-- `writeRecord(w, b)` (30_encoding.md R113). -/
def recordBits (b : Block) : List Bool :=
  stringBits b.name ++ natBits 32 b.props.length ++ propsBits b.props

/-- Consecutive block records (30_encoding.md R119). -/
def recordsBits : List Block → List Bool
  | [] => []
  | b :: bs => recordBits b ++ recordsBits bs

end Sys2Proof.Machine
end

