-- ==== Sys2Proof/Machine/Palette.lean ====
section
/-! DEFINITION. `PAL_ENC` and `PAL_DEC`, the palette encoder and decoder. -/

namespace Sys2Proof.Machine

/-- `blockEq(a, b)`: the same name and the same set of properties, in any order (41_palette.md R151). -/
def blockEq (a b : Block) : Bool :=
  a.name == b.name && a.props.all (fun kv => b.props.elem kv) && b.props.all (fun kv => a.props.elem kv)

/-- The position of the first palette entry equal to `b` (41_palette.md R153). -/
def palFind : List Block → Block → Option Nat
  | [], _ => none
  | e :: pal, b => if blockEq e b then some 0 else (palFind pal b).map (· + 1)

/-- The loop of `paletteEncode`, from the palette `pal` built so far: the final palette and the indices of the remaining cells
(41_palette.md R153). -/
def palLoop (limit : Nat) : List Block → List Block → Except Cause (List Block × List Nat)
  | pal, [] => .ok (pal, [])
  | pal, b :: g =>
    match palFind pal b with
    | some k => do
      let (pal', idx) ← palLoop limit pal g
      .ok (pal', k :: idx)
    | none =>
      if pal.length = limit then .error .capacity
      else do
        let (pal', idx) ← palLoop limit (pal ++ [b]) g
        .ok (pal', pal.length :: idx)

/-- `paletteEncode(g)` with the palette capacity `limit = MAX_PALETTE` (41_palette.md R153). -/
def paletteEncode (limit : Nat) (g : List Block) : Except Cause (List Block × List Nat) := palLoop limit [] g

/-- `paletteDecode(pal, idx)`: the first index out of the palette's bounds, in stream order, raises `INDEX_RANGE`
(41_palette.md R154). -/
def paletteDecode (pal : List Block) : List Nat → Except Cause (List Block)
  | [] => .ok []
  | i :: idx =>
    match pal[i]? with
    | none => .error .indexRange
    | some b => do
      let out ← paletteDecode pal idx
      .ok (b :: out)

/-- The index loop of `PAL_DEC`: `n` index words read one at a time, each looked up before the next is read (41_palette.md
R165). -/
def readIndexed (pal : List Block) : Nat → BitReader → Except Cause (List Block)
  | 0, _ => .ok []
  | n + 1, r => do
    let (i, r) ← getBits r 32
    match pal[i]? with
    | none => .error .indexRange
    | some b => do
      let out ← readIndexed pal n r
      .ok (b :: out)

/-- `F_PAL_ENC` (41_palette.md R155). All records are read before the palette is built, as the pseudocode says (log 7). -/
def cmdPalEnc (p : Params) (r : RwRegs) (m : Memory) : Except Cause Output := do
  checkCommand p .palEnc r
  let n := r.arg0.toNat
  let (g, _) ← readRecords n (regionReader m (src0 r))
  let (pal, idx) ← paletteEncode p.maxPalette g
  let out0 := bitsToBytes (recordsBits pal)
  let out1 := pack idx 32
  checkCapacity (dst0 r) out0.length
  checkCapacity (dst1 r) (4 * n)
  .ok { out0 := out0, out1 := out1, res0 := pal.length, res1 := n, res2 := out0.length, res3 := 4 * n }

/-- `F_PAL_DEC` (41_palette.md R165). -/
def cmdPalDec (p : Params) (r : RwRegs) (m : Memory) : Except Cause Output := do
  checkCommand p .palDec r
  let np := r.arg0.toNat
  let n := r.arg1.toNat
  let (pal, _) ← readRecords np (regionReader m (src0 r))
  let out ← readIndexed pal n (regionReader m (src1 r))
  let out0 := bitsToBytes (recordsBits out)
  checkCapacity (dst0 r) out0.length
  .ok { out0 := out0, out1 := [], res0 := out0.length, res1 := n, res2 := np, res3 := 0 }

/-- `PAL_ENC` (41_palette.md R155). -/
def execPalEnc (s : State) : Host.Outcome State Fault Refusal :=
  .next (s.complete (cmdPalEnc s.params s.lreg s.mem))

/-- `PAL_DEC` (41_palette.md R165). -/
def execPalDec (s : State) : Host.Outcome State Fault Refusal :=
  .next (s.complete (cmdPalDec s.params s.lreg s.mem))

end Sys2Proof.Machine
end

