-- ==== Sys2Proof/Machine/Lzss.lean ====
section
/-! DEFINITION. `LZ_COMP` and `LZ_DECOMP`, the LZSS compressor and decompressor. -/

namespace Sys2Proof.Machine

/-- `last(k, s)` (00_scope.md R11). -/
def lastN (k : Nat) (u : List Nat) : List Nat := u.drop (u.length - k)

/-- The history at the top of an iteration: the last `S` units of the zero padding and the units consumed so far
(42_lzss.md R187, 10_state.md R43). -/
def history (search : Nat) (done : List Nat) : List Nat := lastN search (List.replicate search 0 ++ done)

/-- The window index `j`, from the given one down to 1, at which the first `i` units of the lookahead stand in the history
(42_lzss.md R188). -/
def searchWindow (hist la : List Nat) (i : Nat) : Nat → Option Nat
  | 0 => none
  | j + 1 => if (hist.drop (j + 1)).take i = la.take i then some (j + 1) else searchWindow hist la i j

/-- The first match found: the longest length, from the given one down to 1, and for it the smallest offset, as
`(length, offset)` (42_lzss.md R188). -/
def searchMatch (search : Nat) (hist la : List Nat) : Nat → Option (Nat × Nat)
  | 0 => none
  | i + 1 =>
    match searchWindow hist la (i + 1) (search - (i + 1)) with
    | some j => some (i + 1, search - j)
    | none => searchMatch search hist la i

/-- The width of a match token, `1 + ob + lb` (30_encoding.md R117). -/
def matchCost (search look : Nat) : Nat := 1 + b2r search + b2r look

/-- The token emitted at a position with `done` consumed and the non-empty `rest` unread: a match when one is found and costs
no more than its literals, else a literal (42_lzss.md R185, R189, R191). -/
def nextToken (search look width : Nat) (done : List Nat) (x : Nat) (xs : List Nat) : Token :=
  let la := (x :: xs).take look
  match searchMatch search (history search done) la la.length with
  | some (i, off) => if matchCost search look ≤ (1 + width) * i then .mat off i else .lit x
  | none => .lit x

/-- How many units a token of the compressor consumes (42_lzss.md R191, R192). -/
def tokenUnits : Token → Nat
  | .lit _ => 1
  | .mat _ len => len

/-- The loop of `lzCompress`: `done` consumed, then the unread units, at most `fuel` tokens (42_lzss.md R185; every token
consumes a unit, so the number of units is fuel enough, R196). -/
def compressLoop (search look width : Nat) : Nat → List Nat → List Nat → List Token
  | 0, _, _ => []
  | _ + 1, _, [] => []
  | fuel + 1, done, x :: xs =>
    let t := nextToken search look width done x xs
    t :: compressLoop search look width fuel (done ++ (x :: xs).take (tokenUnits t)) ((x :: xs).drop (tokenUnits t))

/-- The tokens the compressor emits for the units `u` (42_lzss.md R185). -/
def compressTokens (search look width : Nat) (u : List Nat) : List Token :=
  compressLoop search look width u.length [] u

/-- The bits of a token (30_encoding.md R117). -/
def tokenBits (search look width : Nat) : Token → List Bool
  | .lit v => false :: natBits width v
  | .mat off len => true :: (natBits (b2r search) off ++ natBits (b2r look) len)

/-- The bits of a body, before padding (30_encoding.md R116). -/
def bodyBits (search look width : Nat) : List Token → List Bool
  | [] => []
  | t :: ts => tokenBits search look width t ++ bodyBits search look width ts

/-- The count field for `n` units, `(N − 1) mod 4096` (42_lzss.md R183). -/
def countField (n : Nat) : Nat := (n + 4095) % 4096

/-- The header of a payload: `S`, `L`, `W`, `N − 1`, 12 bits each (42_lzss.md R182, 30_encoding.md R116). -/
def headerBits (search look width n : Nat) : List Bool :=
  natBits Config.hdrBits search ++ natBits Config.hdrBits look ++ natBits Config.hdrBits width ++
    natBits Config.hdrBits (countField n)

/-- Literal tokens among `ts` (42_lzss.md R185, `nLit`). -/
def countLits : List Token → Nat
  | [] => 0
  | .lit _ :: ts => countLits ts + 1
  | .mat _ _ :: ts => countLits ts

/-- Match tokens among `ts` (42_lzss.md R185, `nMatch`). -/
def countMats : List Token → Nat
  | [] => 0
  | .lit _ :: ts => countMats ts
  | .mat _ _ :: ts => countMats ts + 1

/-- The payload of `lzCompress(S, L, W, u)` (42_lzss.md R185, R193). -/
def lzCompress (search look width : Nat) (u : List Nat) : List Byte :=
  bitsToBytes (headerBits search look width u.length ++
    bodyBits search look width (compressTokens search look width u))

/-- `F_LZ_COMP` (42_lzss.md R180). -/
def cmdLzComp (p : Params) (r : RwRegs) (m : Memory) : Except Cause Output := do
  checkCommand p .lzComp r
  let search := r.arg0.toNat
  let look := r.arg1.toNat
  let width := r.arg2.toNat
  let n := r.arg3.toNat
  let u ← unpack (regionBytes m (src0 r)) width n
  let pay := lzCompress search look width u
  let ts := compressTokens search look width u
  checkCapacity (dst0 r) pay.length
  .ok { out0 := pay, out1 := [], res0 := pay.length, res1 := countLits ts, res2 := countMats ts,
        res3 := (bodyBits search look width ts).length }

/-- `lzReadHeader(r, nbytes)` (42_lzss.md R201, R202, R203). -/
def lzReadHeader (r : BitReader) (nbytes : Nat) : Except Cause (LzHeader × BitReader) := do
  let (search, r) ← getBits r Config.hdrBits
  let (look, r) ← getBits r Config.hdrBits
  let (width, r) ← getBits r Config.hdrBits
  let (c, r) ← getBits r Config.hdrBits
  if width < Config.wMin ∨ Config.wMax < width ∨ search = 0 ∨ look = 0 then .error .badLzssHeader
  else if c = 4095 ∧ nbytes = 6 then .ok (⟨search, look, width, 0⟩, r)
  else .ok (⟨search, look, width, c + 1⟩, r)

/-- The units a match appends, as the copy count says (42_lzss.md R204, R210). -/
def copyUnits (cc : CopyCount) (off len : Nat) : Nat :=
  match cc with
  | .length => len
  | .offset => off

/-- The copy loop of a match: `n` units from `base` on, one at a time, each read from the output as it stands then
(42_lzss.md R204, R206). -/
def copyMatch (base : Nat) : Nat → List Nat → Except Cause (List Nat)
  | 0, out => .ok out
  | n + 1, out =>
    match out[base]? with
    | none => .error .badOffset
    | some v => copyMatch (base + 1) n (out ++ [v])

/-- A match token: `base` is taken once, before the copy (42_lzss.md R204, R206). -/
def expandMatch (cc : CopyCount) (off len : Nat) (out : List Nat) : Except Cause (List Nat) :=
  if out.length < off then .error .badOffset else copyMatch (out.length - off) (copyUnits cc off len) out

/-- Reads one token and appends its units to the output (42_lzss.md R204). -/
def decodeToken (cc : CopyCount) (h : LzHeader) (r : BitReader) (out : List Nat) : Except Cause (List Nat × BitReader) := do
  let (f, r) ← getBits r 1
  if f = 0 then
    let (v, r) ← getBits r h.width
    .ok (out ++ [v], r)
  else
    let (off, r) ← getBits r (b2r h.search)
    let (len, r) ← getBits r (b2r h.lookahead)
    let out ← expandMatch cc off len out
    .ok (out, r)

/-- The loop of `lzDecodeBody`: tokens until `count` units follow the padding. Every token reads a bit, so the number of bits left
is fuel enough (42_lzss.md R204, R207, R212); without fuel no bit is left for the flag. -/
def decodeLoop (cc : CopyCount) (h : LzHeader) : Nat → BitReader → List Nat → Except Cause (List Nat)
  | 0, _, out => if out.length < h.search + h.count then .error .prematureEnd else .ok out
  | fuel + 1, r, out =>
    if out.length < h.search + h.count then do
      let (out, r) ← decodeToken cc h r out
      decodeLoop cc h fuel r out
    else .ok out

/-- `lzDecodeBody(r, S, L, W, count)`: the `S` zero units of padding are stripped at the end (42_lzss.md R204, R205, R208). -/
def lzDecodeBody (cc : CopyCount) (h : LzHeader) (r : BitReader) : Except Cause (List Nat) := do
  let out ← decodeLoop cc h r.rest.length r (List.replicate h.search 0)
  .ok (out.drop h.search)

/-- `F_LZ_DECOMP` (42_lzss.md R200). -/
def cmdLzDecomp (p : Params) (r : RwRegs) (m : Memory) : Except Cause Output := do
  checkCommand p .lzDecomp r
  let (h, rd) ← lzReadHeader (regionReader m (src0 r)) (src0 r).len
  let u ← lzDecodeBody Config.copyCount h rd
  let out0 := pack u h.width
  checkCapacity (dst0 r) out0.length
  .ok { out0 := out0, out1 := [], res0 := u.length, res1 := out0.length, res2 := h.width, res3 := h.search }

/-- `LZ_COMP` (42_lzss.md R180). -/
def execLzComp (s : State) : Host.Outcome State Fault Refusal :=
  .next (s.complete (cmdLzComp s.params s.lreg s.mem))

/-- `LZ_DECOMP` (42_lzss.md R200). -/
def execLzDecomp (s : State) : Host.Outcome State Fault Refusal :=
  .next (s.complete (cmdLzDecomp s.params s.lreg s.mem))

end Sys2Proof.Machine
end

