-- ==== Sys2Proof/Machine/Section.lean ====
section
/-! DEFINITION. `SEC_ENC` and `SEC_DEC`, the section encoder and decoder. -/

namespace Sys2Proof.Machine

/-- The index width for a palette of `n` entries, `max(1, b2r(P))` (43_section.md R231). -/
def indexWidth (n : Nat) : Nat := max 1 (b2r n)

/-- The bits of a section (30_encoding.md R115, 43_section.md R232, R233, R235). -/
def sectionBits (pal : List Block) (n : Nat) (pay : List Byte) : List Bool :=
  natBits 32 pal.length ++ recordsBits pal ++ natBits 32 n ++ natBits 32 pay.length ++ bytesToBits pay

/-- `F_SEC_ENC` (43_section.md R230). The packed index buffer is read back as the indices themselves, so they are what is
compressed (43_section.md R234; log 10). -/
def cmdSecEnc (p : Params) (r : RwRegs) (m : Memory) : Except Cause Output := do
  checkCommand p .secEnc r
  let n := r.arg0.toNat
  let search := r.arg1.toNat
  let look := r.arg2.toNat
  let (g, _) ← readRecords n (regionReader m (src0 r))
  let (pal, idx) ← paletteEncode p.maxPalette g
  let width := indexWidth pal.length
  let pay := lzCompress search look width idx
  let out0 := bitsToBytes (sectionBits pal n pay)
  checkCapacity (dst0 r) out0.length
  .ok { out0 := out0, out1 := [], res0 := out0.length, res1 := pal.length, res2 := width, res3 := pay.length }

/-- Raises `c` when `bad` holds. -/
def failIf (c : Cause) (bad : Bool) : Except Cause Unit := if bad then .error c else .ok ()

/-- Reads a section up to its last payload byte and decodes it: `paletteSize`, `cellCount`, the decoded cells, and how many
bytes the section occupies (43_section.md R240–R246, R248). -/
def readSection (p : Params) (bytes : List Byte) : Except Cause (Nat × Nat × List Block × Nat) := do
  let (np, r) ← getCount (readerOf bytes)
  checkLimit p.maxPalette np
  let (pal, r) ← readRecords np r
  failIf .inconsistentHeader (decide (Config.wMax < indexWidth np))
  let (n, r) ← getCount r
  checkLimit p.maxCells n
  let (cl, r) ← getCount r
  let (pay, r) ← getMany 8 cl r
  let (h, rp) ← lzReadHeader (readerOf (pay.map (BitVec.ofNat 8))) cl
  failIf .inconsistentHeader (h.width != indexWidth np || h.count != n)
  let u ← lzDecodeBody Config.copyCount h rp
  let out ← paletteDecode pal (u.take n)
  .ok (np, n, out, r.pos / 8)

/-- `F_SEC_DEC` (43_section.md R240). The first `cellCount` decoded units are the indices (43_section.md R246; log 10). -/
def cmdSecDec (p : Params) (r : RwRegs) (m : Memory) : Except Cause Output := do
  checkCommand p .secDec r
  let (np, n, out, consumed) ← readSection p (regionBytes m (src0 r))
  let out0 := bitsToBytes (recordsBits out)
  checkCapacity (dst0 r) out0.length
  .ok { out0 := out0, out1 := [], res0 := n, res1 := out0.length, res2 := np, res3 := consumed }

/-- `SEC_ENC` (43_section.md R230). -/
def execSecEnc (s : State) : Host.Outcome State Fault Refusal :=
  .next (s.complete (cmdSecEnc s.params s.lreg s.mem))

/-- `SEC_DEC` (43_section.md R240). -/
def execSecDec (s : State) : Host.Outcome State Fault Refusal :=
  .next (s.complete (cmdSecDec s.params s.lreg s.mem))

end Sys2Proof.Machine
end

