-- ==== Sys2Proof/Machine/Registers.lean ====
section
/-! DEFINITION. The register block as the host sees it. -/

namespace Sys2Proof.Machine

/-- The register at a byte offset; a reserved offset holds nothing (10_state.md R21). -/
def regAt (offset : BitVec 8) : Option RegName :=
  if offset = 0x00#8 then some .id
  else if offset = 0x04#8 then some .cmd
  else if offset = 0x08#8 then some .status
  else if offset = 0x0C#8 then some .errinfo
  else if offset = 0x10#8 then some (.rw .src0Addr)
  else if offset = 0x14#8 then some (.rw .src0Len)
  else if offset = 0x18#8 then some (.rw .src1Addr)
  else if offset = 0x1C#8 then some (.rw .src1Len)
  else if offset = 0x20#8 then some (.rw .dst0Addr)
  else if offset = 0x24#8 then some (.rw .dst0Cap)
  else if offset = 0x28#8 then some (.rw .dst1Addr)
  else if offset = 0x2C#8 then some (.rw .dst1Cap)
  else if offset = 0x30#8 then some (.rw .arg0)
  else if offset = 0x34#8 then some (.rw .arg1)
  else if offset = 0x38#8 then some (.rw .arg2)
  else if offset = 0x3C#8 then some (.rw .arg3)
  else if offset = 0x40#8 then some .res0
  else if offset = 0x44#8 then some .res1
  else if offset = 0x48#8 then some .res2
  else if offset = 0x4C#8 then some .res3
  else none

/-- The byte offset of a register (10_state.md R21). -/
def offsetOf : RegName → BitVec 8
  | .id => 0x00#8
  | .cmd => 0x04#8
  | .status => 0x08#8
  | .errinfo => 0x0C#8
  | .rw .src0Addr => 0x10#8
  | .rw .src0Len => 0x14#8
  | .rw .src1Addr => 0x18#8
  | .rw .src1Len => 0x1C#8
  | .rw .dst0Addr => 0x20#8
  | .rw .dst0Cap => 0x24#8
  | .rw .dst1Addr => 0x28#8
  | .rw .dst1Cap => 0x2C#8
  | .rw .arg0 => 0x30#8
  | .rw .arg1 => 0x34#8
  | .rw .arg2 => 0x38#8
  | .rw .arg3 => 0x3C#8
  | .res0 => 0x40#8
  | .res1 => 0x44#8
  | .res2 => 0x48#8
  | .res3 => 0x4C#8

/-- The value of an RW register (10_state.md R21). -/
def rwGet (r : RwRegs) : RwReg → Word
  | .src0Addr => r.src0Addr
  | .src0Len => r.src0Len
  | .src1Addr => r.src1Addr
  | .src1Len => r.src1Len
  | .dst0Addr => r.dst0Addr
  | .dst0Cap => r.dst0Cap
  | .dst1Addr => r.dst1Addr
  | .dst1Cap => r.dst1Cap
  | .arg0 => r.arg0
  | .arg1 => r.arg1
  | .arg2 => r.arg2
  | .arg3 => r.arg3

/-- Writes all 32 bits of an RW register (10_state.md R22). -/
def rwSet (r : RwRegs) (n : RwReg) (v : Word) : RwRegs :=
  match n with
  | .src0Addr => { r with src0Addr := v }
  | .src0Len => { r with src0Len := v }
  | .src1Addr => { r with src1Addr := v }
  | .src1Len => { r with src1Len := v }
  | .dst0Addr => { r with dst0Addr := v }
  | .dst0Cap => { r with dst0Cap := v }
  | .dst1Addr => { r with dst1Addr := v }
  | .dst1Cap => { r with dst1Cap := v }
  | .arg0 => { r with arg0 := v }
  | .arg1 => { r with arg1 := v }
  | .arg2 => { r with arg2 := v }
  | .arg3 => { r with arg3 := v }

/-- The value a named register reads as: `ID` is hardwired, `CMD` reads 0 (10_state.md R22, R23, R24). -/
def readNamed (s : State) : RegName → Word
  | .id => Config.idValue
  | .cmd => 0#32
  | .status => s.status
  | .errinfo => s.errinfo
  | .rw r => rwGet s.rw r
  | .res0 => s.res0
  | .res1 => s.res1
  | .res2 => s.res2
  | .res3 => s.res3

/-- The value a 32-bit read at an aligned offset returns; a reserved offset reads 0 (10_state.md R21, R22). -/
def regRead (s : State) (offset : BitVec 8) : Word :=
  match regAt offset with
  | some n => readNamed s n
  | none => 0#32

/-- A host write of `CMD`: while `STATUS.BUSY = 0` it starts a command with the written word, legal or not; while
`STATUS.BUSY = 1` it has no effect at all (10_state.md R24, R40; 30_encoding.md R93). -/
def writeCmd (s : State) (c : Word) : State := if busyFlag s.status then s else s.start c

/-- A 32-bit write to a named register; a write to an RO register has no effect (10_state.md R22). -/
def writeNamed (s : State) (n : RegName) (v : Word) : State :=
  match n with
  | .id => s
  | .cmd => writeCmd s v
  | .status => s
  | .errinfo => s
  | .rw r => s.withRw (rwSet s.rw r v)
  | .res0 => s
  | .res1 => s
  | .res2 => s
  | .res3 => s

/-- A 32-bit write at an aligned offset; a write to a reserved offset has no effect (10_state.md R22). -/
def regWrite (s : State) (offset : BitVec 8) (v : Word) : State :=
  match regAt offset with
  | some n => writeNamed s n v
  | none => s

end Sys2Proof.Machine
end

