-- ==== Sys2Proof/Machine/HostBus.lean ====
section
/-! DEFINITION. The host's accesses and the platform's reset, one at a time, and the hazards of accesses while `BUSY`. -/

namespace Sys2Proof.Machine

/-- The source regions of the running command, from the latched values; an illegal command uses none (70_reset_and_hazards.md
R310, 30_encoding.md R93, R95). -/
def runningSources (s : State) : List Region :=
  match decode s.lcmd with
  | .ok i => sourceRegions i s.lreg
  | .error _ => []

/-- The destination regions of the running command, from the latched values (70_reset_and_hazards.md R310). -/
def runningDests (s : State) : List Region :=
  match decode s.lcmd with
  | .ok i => destRegions i s.lreg
  | .error _ => []

/-- A command is running: the rules of 70_reset_and_hazards.md R310 hold while `STATUS.BUSY = 1`. -/
def running (s : State) : Bool := busyFlag s.status

/-- The byte at `a` is in a destination region of the running command (70_reset_and_hazards.md R310). -/
def inRunningDest (s : State) (a : Nat) : Bool := running s && (runningDests s).any (fun r => regionHolds r a)

/-- The byte at `a` is in some region of the running command (70_reset_and_hazards.md R310). -/
def inRunningRegion (s : State) (a : Nat) : Bool :=
  running s && (runningSources s ++ runningDests s).any (fun r => regionHolds r a)

/-- A host register write: refused when it is not an aligned 32-bit access (10_state.md R22). -/
def hostRegWrite (bits : Nat) (offset : BitVec 8) (v : Word) (s : State) : Host.Outcome State Fault Refusal :=
  if regAccessWellFormed bits offset then .next (regWrite s offset v) else .refused (.registerAccess bits offset)

/-- A host register read: refused when it is not an aligned 32-bit access (10_state.md R22). -/
def hostRegRead (bits : Nat) (offset : BitVec 8) (s : State) : Host.Outcome State Fault Refusal :=
  if regAccessWellFormed bits offset then .next (s.saw (.reg offset (regRead s offset)))
  else .refused (.registerAccess bits offset)

/-- A host write of a memory byte: refused at or above `MEM_SIZE` (20_memory.md R60); `HOST_HAZARD` inside a region of the
running command (70_reset_and_hazards.md R310). -/
def hostMemWrite (a : Nat) (b : Byte) (s : State) : Host.Outcome State Fault Refusal :=
  if memAccessWellFormed s.params a then
    if inRunningRegion s a then .fault (.hostHazard a) else .next (s.storeByte a b)
  else .refused (.hostAddress a)

/-- A host read of a memory byte: refused at or above `MEM_SIZE` (20_memory.md R60); a free value inside a destination region of
the running command, the stored value elsewhere (70_reset_and_hazards.md R310; log 5, 6). -/
def hostMemRead (a : Nat) (s : State) : Host.Outcome State Fault Refusal :=
  if memAccessWellFormed s.params a then
    if inRunningDest s a then .next (s.sawFree a) else .next (s.saw (.mem a (memRead s.mem a)))
  else .refused (.hostAddress a)

/-- One round of `wait`: `STATUS` is read, and while bit 0 of the value read is 1 the host polls again before it goes on to the
events `ops` (30_encoding.md R121; log 8). -/
def hostPoll (ops : List HostOp) (s : State) : State :=
  (if busyFlag s.status then s.withHost (.poll :: ops) else s.withHost ops).saw (.reg (offsetOf .status) s.status)

/-- The host or the platform takes its next event `op`, with `ops` still to come after it (10_state.md R20, 20_memory.md R77). -/
def hostStep (op : HostOp) (ops : List HostOp) (s : State) : Host.Outcome State Fault Refusal :=
  match op with
  | .regWrite bits offset v => hostRegWrite bits offset v (s.withHost ops)
  | .regRead bits offset => hostRegRead bits offset (s.withHost ops)
  | .memWrite a b => hostMemWrite a b (s.withHost ops)
  | .memRead a => hostMemRead a (s.withHost ops)
  | .poll => .next (hostPoll ops s)
  | .reset => .next (s.withHost ops).afterReset

/-- The byte writes of `mwr A, b0 b1 …` (30_encoding.md R120). -/
def byteWrites : Nat → List Byte → List HostOp
  | _, [] => []
  | a, b :: bs => .memWrite a b :: byteWrites (a + 1) bs

/-- The byte reads of `mrd A, n` (30_encoding.md R120). -/
def byteReads : Nat → Nat → List HostOp
  | _, 0 => []
  | a, n + 1 => .memRead a :: byteReads (a + 1) n

/-- The accesses a host statement stands for (30_encoding.md R120, R121). -/
def stmtOps : Stmt → List HostOp
  | .wr n v => [.regWrite 32 (offsetOf n) v]
  | .rd n => [.regRead 32 (offsetOf n)]
  | .mwr a bytes => byteWrites a bytes
  | .mrd a n => byteReads a n
  | .cmd i => [.regWrite 32 (offsetOf .cmd) (encode i)]
  | .wait => [.poll]
  | .run i => [.regWrite 32 (offsetOf .cmd) (encode i), .poll]

/-- The accesses of a host program (30_encoding.md R120). -/
def programOps : List Stmt → List HostOp
  | [] => []
  | st :: sts => stmtOps st ++ programOps sts

end Sys2Proof.Machine
end

