-- ==== Sys2Proof/Machine/Dispatch.lean ====
section
/-! DEFINITION. The meaning of each command, one arm a command. -/

namespace Sys2Proof.Machine

-- The completion of the running command `i` (10_state.md R41, 30_encoding.md R92, R96).
def exec (i : Instr) (s : State) : Host.Outcome State Fault Refusal :=
  match i with
  | .bitw => Sys2Proof.Machine.execBitw s
  | .palEnc => Sys2Proof.Machine.execPalEnc s
  | .palDec => Sys2Proof.Machine.execPalDec s
  | .lzComp => Sys2Proof.Machine.execLzComp s
  | .lzDecomp => Sys2Proof.Machine.execLzDecomp s
  | .secEnc => Sys2Proof.Machine.execSecEnc s
  | .secDec => Sys2Proof.Machine.execSecDec s

end Sys2Proof.Machine
end

