-- ==== Sys2Proof/Machine/Step.lean ====
section
/-! DEFINITION. One step of the machine, and placing a command where the next step runs it. -/

namespace Sys2Proof.Machine

/-- The completion step: the latched command word is decoded and its command run; an illegal word is
`CONTRACT_VIOLATION(ILLEGAL_COMMAND)`, reads no operand and touches no memory (10_state.md R41, 30_encoding.md R93). -/
def completion (s : State) : Host.Outcome State Fault Refusal :=
  match decode s.lcmd with
  | .ok i => exec i s
  | .error _ => .next (s.raise .illegalCommand)

/-- One step. While `BUSY` the completion and the host's next event are both enabled, and `schedule` says which is taken; with
nothing to come from the host, or with the schedule used up, it is the completion (10_state.md R41, 20_memory.md R77,
70_reset_and_hazards.md R320; log 3). While `IDLE` the host's next event is taken, and without one nothing changes
(60_exceptions.md R285). -/
def step (s : State) : Host.Outcome State Fault Refusal :=
  match s.phase, s.host, s.schedule with
  | .idle, [], _ => .next s
  | .idle, op :: ops, _ => hostStep op ops s
  | .busy, _ :: _, true :: bs => completion (s.withSchedule bs)
  | .busy, op :: ops, false :: bs => hostStep op ops (s.withSchedule bs)
  | .busy, [], _ => completion s
  | .busy, _ :: _, [] => completion s

/-- `s` right after the host wrote the command word `w` to `CMD`, with the completion next: the state from which the very next step
runs exactly that command (10_state.md R40; log 4). Bits at or above `nbits` are 0. -/
def State.withFetchWord (s : State) (nbits w : Nat) : State :=
  (s.start (BitVec.ofNat 32 (w % 2 ^ nbits))).withSchedule []

end Sys2Proof.Machine
end

