-- ==== Sys2Proof/Safety.lean ====
section
/-! DEFINITION. What counts as a good state, a good block and a safe run, in the terms the statements use. -/

namespace Sys2Proof.Machine

/-- The invariant of the machine (10_state.md R25, R27, R30, R40, R41; 20_memory.md R60; 00_scope.md R8; 60_exceptions.md R270):
- the parameters are in their ranges;
- the memory is in canonical form and no byte at or above `MEM_SIZE` is listed;
- `STATUS` is one of its four legal values, and `BUSY` exactly while the phase is `BUSY`;
- `ERRINFO` is nonzero exactly when `STATUS.ERR = 1`, and its bits [31:24] are 0;
- the results are 0 unless `STATUS.DONE = 1`. -/
abbrev State.Inv (s : State) : Prop :=
  s.params.Valid ∧
  Memory.wf s.params.memSize s.mem = true ∧
  (s.status = statusIdle ∨ s.status = statusBusy ∨ s.status = statusDone ∨ s.status = statusErr) ∧
  (s.phase = .busy ↔ s.status = statusBusy) ∧
  (s.errinfo ≠ 0#32 ↔ s.status = statusErr) ∧
  s.errinfo.extractLsb' 24 8 = 0#8 ∧
  (s.status ≠ statusDone → s.res0 = 0#32 ∧ s.res1 = 0#32 ∧ s.res2 = 0#32 ∧ s.res3 = 0#32)

/-- The completion is what the next step takes: the phase is `BUSY`, and either nothing is to come from the host or the schedule
gives the turn to the core (10_state.md R41, 70_reset_and_hazards.md R320). -/
abbrev State.CoreTurn (s : State) : Prop :=
  s.phase = .busy ∧ (s.host = [] ∨ s.schedule = [] ∨ s.schedule.head? = some true)

/-- The state the completion is applied to: the turn taken from the schedule is gone, when the host was also ready. -/
def State.atCoreTurn (s : State) : State :=
  match s.host with
  | [] => s
  | _ :: _ => s.withSchedule s.schedule.tail

/-- A block as a record can carry it: pairwise distinct keys (41_palette.md R150), and every length and count below `2^31`
(20_memory.md R68). -/
abbrev Block.Legal (b : Block) : Prop :=
  (b.props.map Prod.fst).Nodup ∧ b.name.length < 2147483648 ∧ b.props.length < 2147483648 ∧
  ∀ kv ∈ b.props, kv.1.length < 2147483648 ∧ kv.2.length < 2147483648

/-- The regions of command `i` pass the bounds check and the overlap check (20_memory.md R61, R62). -/
abbrev RegionsLegal (p : Params) (i : Instr) (r : RwRegs) : Prop :=
  (∀ g ∈ sourceRegions i r ++ destRegions i r, inBounds p g = true) ∧
  regionsOverlap (sourceRegions i r) (destRegions i r) = false

/-- The parameters of an LZSS stream the compressor accepts (42_lzss.md R181). -/
abbrev LzParamsLegal (search look width n : Nat) : Prop :=
  (1 ≤ search ∧ search ≤ 4095) ∧ (1 ≤ look ∧ look ≤ 4095) ∧ (1 ≤ width ∧ width ≤ 16) ∧ n ≤ 4096

/-- The byte at `a` of a memory that was `m` before the byte string `out` was stored from `addr` on (20_memory.md R72). -/
def storedByte (m : Memory) (addr : Nat) (out : List Byte) (a : Nat) : Byte :=
  if addr ≤ a ∧ a < addr + out.length then out.getD (a - addr) 0#8 else memRead m a

/-- `t` is `s` after a successful completion with the outputs `out0` at DST0 and `out1` at DST1 and the results `r0 … r3`: the
destination bytes are the outputs, every other byte and every other field is as before, and no result is truncated
(10_state.md R41, 20_memory.md R72, 30_encoding.md R95). -/
def Completed (s t : State) (out0 out1 : List Byte) (r0 r1 r2 r3 : Nat) : Prop :=
  t = { s with
    phase := .idle
    status := 0x00000002#32
    errinfo := 0x00000000#32
    res0 := t.res0
    res1 := t.res1
    res2 := t.res2
    res3 := t.res3
    mem := t.mem } ∧
  (t.res0.toNat = r0 ∧ t.res1.toNat = r1 ∧ t.res2.toNat = r2 ∧ t.res3.toNat = r3) ∧
  ∀ a, memRead t.mem a =
    if (dst0 s.lreg).addr ≤ a ∧ a < (dst0 s.lreg).addr + out0.length then storedByte s.mem (dst0 s.lreg).addr out0 a
    else storedByte s.mem (dst1 s.lreg).addr out1 a

/-- How many bytes of DST0 and of DST1 command `i` has written when its completion left `t`: the sizes its results report, all 0 after
an error (30_encoding.md R95, 20_memory.md R72, 10_state.md R30). -/
def storedSizes (i : Instr) (t : State) : Nat × Nat :=
  match i with
  | .bitw => (0, 0)
  | .palEnc => (t.res2.toNat, t.res3.toNat)
  | .palDec => (t.res0.toNat, 0)
  | .lzComp => (t.res0.toNat, 0)
  | .lzDecomp => (t.res1.toNat, 0)
  | .secEnc => (t.res0.toNat, 0)
  | .secDec => (t.res1.toNat, 0)

/-- The same operands with other capacities of the destination regions (60_exceptions.md R263). -/
def RwRegs.withCaps (r : RwRegs) (cap0 cap1 : Word) : RwRegs := { r with dst0Cap := cap0, dst1Cap := cap1 }

/-- The same block as a value: the same name and the same set of properties (41_palette.md R151). -/
def SameBlock (a b : Block) : Prop := a.name = b.name ∧ ∀ kv, kv ∈ a.props ↔ kv ∈ b.props

/-- The same grid as a value: the same number of cells, and the same block in each (43_section.md R249). -/
def SameGrid (g g' : List Block) : Prop := List.Forall₂ SameBlock g g'

/-- The causes a command can raise, the last column of the table of 60_exceptions.md R261. -/
def raisedBy : Instr → List Cause
  | .bitw => []
  | .palEnc => [.prematureEnd, .negativeCount, .duplicateKey, .regionOverlap, .badAddress, .dstOverflow, .capacity]
  | .palDec => [.prematureEnd, .negativeCount, .indexRange, .duplicateKey, .regionOverlap, .badAddress, .dstOverflow, .capacity]
  | .lzComp => [.prematureEnd, .widthRange, .paramRange, .regionOverlap, .badAddress, .dstOverflow]
  | .lzDecomp => [.prematureEnd, .badLzssHeader, .badOffset, .regionOverlap, .badAddress, .dstOverflow]
  | .secEnc => [.prematureEnd, .negativeCount, .duplicateKey, .paramRange, .regionOverlap, .badAddress, .dstOverflow]
  | .secDec => [.prematureEnd, .negativeCount, .indexRange, .badLzssHeader, .badOffset, .inconsistentHeader, .duplicateKey,
      .regionOverlap, .badAddress, .dstOverflow, .capacity]

/-- The next step does not stop: no host hazard and no access the spec tells a model to refuse. -/
def safeStep (s : State) : Bool :=
  match step s with
  | .next _ => true
  | .fault _ => false
  | .refused _ => false

/-- The first `k` steps from `s` do not stop. -/
def safeRun : Nat → State → Bool
  | 0, _ => true
  | k + 1, s =>
    match step s with
    | .next t => safeRun k t
    | .fault _ => false
    | .refused _ => false

end Sys2Proof.Machine
end

