-- ==== Sys2Proof/Certificates/Slice0/Obligations.lean ====
section
/-! DEFINITION. The statements for the provers, from the numbered rules of spec/. -/

open Sys2Proof Sys2Proof.Machine

/-! ### Commands and steps -/

/-- 30_encoding.md R91: the words of the opcode table, and words next to them that are no command. -/
def Obligations.TableWordsDecode : Prop :=
  decode 0x00000001#32 = .ok .bitw ∧ decode 0x00000002#32 = .ok .palEnc ∧ decode 0x00000003#32 = .ok .palDec ∧
  decode 0x00000004#32 = .ok .lzComp ∧ decode 0x00000005#32 = .ok .lzDecomp ∧ decode 0x00000006#32 = .ok .secEnc ∧
  decode 0x00000007#32 = .ok .secDec ∧ decode 0x00000000#32 = .error .reservedOpcode ∧
  decode 0x00000008#32 = .error .reservedOpcode ∧ decode 0x000000FF#32 = .error .reservedOpcode ∧
  decode 0x00000101#32 = .error .reservedBits

/-- 30_encoding.md R90, R91, R94: a 32-bit word decodes to a command exactly when it is that command's encoding, so decoding an
encoded command gives it back and no two words share a command. -/
def Obligations.DecodeInvertsEncode : Prop :=
  ∀ (w : Word) (i : Instr), decode w = .ok i ↔ w = encode i

/-- 30_encoding.md R93: the words with a reserved opcode or a nonzero reserved bit, and no others, are no command of the table; such
a word starts a command like any other, and its completion is CONTRACT_VIOLATION(ILLEGAL_COMMAND), which reads no operand and
touches no memory. -/
def Obligations.IllegalWordEndsInIllegalCommand : Prop :=
  (∀ w : Word, (∃ i, decode w = .ok i) ↔
    ¬ (w.extractLsb' 8 24 ≠ 0#24 ∨ w.extractLsb' 0 8 = 0x00#8 ∨ 0x08#8 ≤ w.extractLsb' 0 8)) ∧
  ∀ w : Word, (w.extractLsb' 8 24 ≠ 0#24 ∨ w.extractLsb' 0 8 = 0x00#8 ∨ 0x08#8 ≤ w.extractLsb' 0 8) →
    (∀ s : State, busyFlag s.status = false → hostRegWrite 32 0x04#8 w s = .next (s.start w)) ∧
    ∀ s : State, s.CoreTurn → s.lcmd = w →
      step s = .next { s.atCoreTurn with
        phase := .idle
        status := 0x00000004#32
        errinfo := 0x00#8 ++ w.extractLsb' 0 8 ++ 0x01#8 ++ 0x02#8
        res0 := 0#32
        res1 := 0#32
        res2 := 0#32
        res3 := 0#32 }

/-- 10_state.md R41, 30_encoding.md R96: when the completion is next and the latched word decodes to a command, the step is that
command's meaning. -/
def Obligations.StepRunsTheDecodedCommand : Prop :=
  ∀ (s : State) (i : Instr), s.CoreTurn → decode s.lcmd = .ok i → step s = exec i s.atCoreTurn

/-- 20_memory.md R77, 60_exceptions.md R285, and the model's schedule (log 3): while idle, and while busy when the schedule gives
the host the turn, the step is the host's next event; an idle core with nothing to come from the host keeps its state. -/
def Obligations.StepTakesTheHostEvent : Prop :=
  ∀ s : State,
    (s.phase = .idle → s.host = [] → step s = .next s) ∧
    (∀ op ops, s.phase = .idle → s.host = op :: ops → step s = hostStep op ops s) ∧
    (∀ op ops bs, s.phase = .busy → s.host = op :: ops → s.schedule = false :: bs →
      step s = hostStep op ops (s.withSchedule bs))

/-- The model's withFetchWord (log 4) stands for a CMD write with the completion next (10_state.md R40, R41): the next step runs
exactly the command placed. -/
def Obligations.FetchWordRunsTheCommand : Prop :=
  ∀ (s : State) (i : Instr),
    step (s.withFetchWord 32 (encode i).toNat) = exec i (s.withFetchWord 32 (encode i).toNat) ∧
    (s.withFetchWord 32 (encode i).toNat).lreg = s.rw ∧ (s.withFetchWord 32 (encode i).toNat).mem = s.mem

/-- 10_state.md R40: a CMD write while STATUS.BUSY = 0 latches the word and the twelve RW registers, sets STATUS, ERRINFO and the
results and enters BUSY, in one step; a later write of an RW register changes what the host reads back there, and not the command that
runs. -/
def Obligations.CommandStartLatchesOperands : Prop :=
  (∀ (s : State) (c : Word) (ops : List HostOp), busyFlag s.status = false →
    hostStep (.regWrite 32 0x04#8 c) ops s = .next { s with
      phase := .busy
      lcmd := c
      lreg := s.rw
      status := 0x00000001#32
      errinfo := 0#32
      res0 := 0#32
      res1 := 0#32
      res2 := 0#32
      res3 := 0#32
      host := ops }) ∧
  ∀ (i : Instr) (s t : State) (r : RwReg) (v : Word), exec i s = .next t →
    exec i (regWrite s (offsetOf (.rw r)) v) = .next (regWrite t (offsetOf (.rw r)) v) ∧
    regRead (regWrite s (offsetOf (.rw r)) v) (offsetOf (.rw r)) = v

/-- 10_state.md R41, 60_exceptions.md R270, R271: every command completes, in DONE or in ERR; an error completion changes nothing
but the phase, STATUS, ERRINFO and the results, and writes no byte of memory. -/
def Obligations.CompletionIsDoneOrPreciseError : Prop :=
  ∀ (i : Instr) (s : State), ∃ t, exec i s = .next t ∧ t.phase = .idle ∧
    ((t.status = 0x00000002#32 ∧ t.errinfo = 0#32) ∨
     ∃ c : Cause, t = { s with
       phase := .idle
       status := 0x00000004#32
       errinfo := 0x00#8 ++ s.lcmd.extractLsb' 0 8 ++ causeCode c ++ kindCode (causeKind c)
       res0 := 0#32
       res1 := 0#32
       res2 := 0#32
       res3 := 0#32 })

/-- 60_exceptions.md R261, last column: on a machine whose parameters are in range, a command that ends in error records a cause
the table lists for its opcode. -/
def Obligations.CommandsRaiseOnlyTheirCauses : Prop :=
  ∀ (i : Instr) (s t : State), s.params.Valid → exec i s = .next t → t.status = 0x00000004#32 →
    ∃ c ∈ raisedBy i, t.errinfo = 0x00#8 ++ s.lcmd.extractLsb' 0 8 ++ causeCode c ++ kindCode (causeKind c)

/-- 30_encoding.md R96, 60_exceptions.md R262, R265: operand errors come before bounds, bounds before overlap, and each of them
before the input is read. -/
def Obligations.ChecksComeInOrder : Prop :=
  ∀ (i : Instr) (s : State),
    (∀ c, checkOperands s.params i s.lreg = .error c → exec i s = .next (s.raise c)) ∧
    (checkOperands s.params i s.lreg = .ok () →
      (∃ g ∈ sourceRegions i s.lreg ++ destRegions i s.lreg, s.params.memSize < g.addr + g.len) →
      exec i s = .next (s.raise .badAddress)) ∧
    (checkOperands s.params i s.lreg = .ok () →
      (∀ g ∈ sourceRegions i s.lreg ++ destRegions i s.lreg, g.addr + g.len ≤ s.params.memSize) →
      regionsOverlap (sourceRegions i s.lreg) (destRegions i s.lreg) = true →
      exec i s = .next (s.raise .regionOverlap))

/-- 20_memory.md R62: what regionsOverlap means for every command's regions. -/
def Obligations.OverlapIsACommonByte : Prop :=
  ∀ srcs dsts : List Region,
    regionsOverlap srcs dsts = true ↔
      (∃ a, (∃ r ∈ srcs, regionHolds r a = true) ∧ ∃ d ∈ dsts, regionHolds d a = true) ∨
      ∃ (j k : Nat) (d e : Region) (a : Nat), j < k ∧ dsts[j]? = some d ∧ dsts[k]? = some e ∧
        regionHolds d a = true ∧ regionHolds e a = true

/-- 10_state.md R31, 20_memory.md R71, R72: a command changes no RW register, no latched operand and nothing of the host's; its outputs
are no longer than their destination regions, and no byte outside the bytes they are stored to changes: DST0 from its start on and
DST1 from its start on, as many bytes as the result registers say (storedSizes; none after an error). -/
def Obligations.CommandsWriteOnlyTheirOutputs : Prop :=
  ∀ (i : Instr) (s t : State), exec i s = .next t →
    (t.params = s.params ∧ t.lcmd = s.lcmd ∧ t.lreg = s.lreg ∧ t.rw = s.rw ∧ t.host = s.host ∧ t.schedule = s.schedule ∧
      t.seen = s.seen ∧ t.freeCount = s.freeCount) ∧
    ((storedSizes i t).1 ≤ s.lreg.dst0Cap.toNat ∧ (storedSizes i t).2 ≤ s.lreg.dst1Cap.toNat) ∧
    ∀ a : Nat, ¬ (s.lreg.dst0Addr.toNat ≤ a ∧ a < s.lreg.dst0Addr.toNat + (storedSizes i t).1) →
      ¬ (s.lreg.dst1Addr.toNat ≤ a ∧ a < s.lreg.dst1Addr.toNat + (storedSizes i t).2) →
      memRead t.mem a = memRead s.mem a

/-- 60_exceptions.md R263: a command that succeeds also succeeds, with the same outputs, when its destination regions are just long enough
for them, and ends in DST_OVERFLOW when one of them is shorter. -/
def Obligations.OutputsMustFitTheirRegions : Prop :=
  ∀ (i : Instr) (s t : State) (cap0 cap1 : Word), exec i s = .next t → t.status = 0x00000002#32 →
    cap0.toNat ≤ s.lreg.dst0Cap.toNat → cap1.toNat ≤ s.lreg.dst1Cap.toNat →
    (cap0.toNat < (storedSizes i t).1 ∨ cap1.toNat < (storedSizes i t).2 →
      exec i { s with lreg := s.lreg.withCaps cap0 cap1 } =
        .next (State.raise { s with lreg := s.lreg.withCaps cap0 cap1 } .dstOverflow)) ∧
    ((storedSizes i t).1 ≤ cap0.toNat → (storedSizes i t).2 ≤ cap1.toNat →
      exec i { s with lreg := s.lreg.withCaps cap0 cap1 } =
        .next { t with lreg := s.lreg.withCaps cap0 cap1 })

/-- 60_exceptions.md R264, 41_palette.md R155, R165, 43_section.md R230: the operand checks of PAL_ENC, PAL_DEC and SEC_ENC, in their
order; LZ_DECOMP, SEC_DEC and BITW check no operand. -/
def Obligations.OperandErrors : Prop :=
  ∀ s : State,
    let a0 := s.lreg.arg0.toNat
    let a1 := s.lreg.arg1.toNat
    let a2 := s.lreg.arg2.toNat
    (s.params.maxCells < a0 → exec .palEnc s = .next (s.raise .capacity)) ∧
    (s.params.maxPalette < a0 ∨ s.params.maxCells < a1 → exec .palDec s = .next (s.raise .capacity)) ∧
    (4096 < a0 ∨ ¬ (1 ≤ a1 ∧ a1 ≤ 4095) ∨ ¬ (1 ≤ a2 ∧ a2 ≤ 4095) → exec .secEnc s = .next (s.raise .paramRange)) ∧
    (a0 ≤ s.params.maxCells → checkOperands s.params .palEnc s.lreg = .ok ()) ∧
    (a0 ≤ s.params.maxPalette → a1 ≤ s.params.maxCells → checkOperands s.params .palDec s.lreg = .ok ()) ∧
    (a0 ≤ 4096 → 1 ≤ a1 → a1 ≤ 4095 → 1 ≤ a2 → a2 ≤ 4095 → checkOperands s.params .secEnc s.lreg = .ok ()) ∧
    checkOperands s.params .bitw s.lreg = .ok () ∧ checkOperands s.params .lzDecomp s.lreg = .ok () ∧
    checkOperands s.params .secDec s.lreg = .ok ()

/-- 20_memory.md R71: a command reads only bytes of its source regions: two memories that agree on them give the same
completion, and each byte afterwards is the same in both or untouched in both. -/
def Obligations.CommandsReadOnlyTheirSources : Prop :=
  ∀ (i : Instr) (s : State) (m : Memory),
    (∀ a, (∃ g ∈ sourceRegions i s.lreg, regionHolds g a = true) → memRead m a = memRead s.mem a) →
    ∃ t t', exec i s = .next t ∧ exec i { s with mem := m } = .next t' ∧ t' = { t with mem := t'.mem } ∧
      ∀ a, memRead t'.mem a = memRead t.mem a ∨
        (memRead t.mem a = memRead s.mem a ∧ memRead t'.mem a = memRead m a)

/-- 10_state.md R42, 60_exceptions.md R272: no command's result depends on an earlier command except through the buffer memory and
the operands: states that agree on them and on the command word complete alike, whatever an earlier command left. -/
def Obligations.CommandsKeepNoWorkingState : Prop :=
  ∀ (i : Instr) (s s' : State), s'.params = s.params → s'.lcmd = s.lcmd → s'.lreg = s.lreg → s'.mem = s.mem →
    ∃ t t', exec i s = .next t ∧ exec i s' = .next t' ∧ t'.status = t.status ∧ t'.errinfo = t.errinfo ∧ t'.mem = t.mem ∧
      t'.res0 = t.res0 ∧ t'.res1 = t.res1 ∧ t'.res2 = t.res2 ∧ t'.res3 = t.res3

/-! ### Invariant, reset, liveness -/

/-- 70_reset_and_hazards.md R300: the invariant holds right after reset. -/
def Obligations.ResetMeetsTheInvariant : Prop := State.reset.Inv

/-- 10_state.md R25, R27, R30, R41, 20_memory.md R60: every step keeps the invariant: parameters in range, memory in form and below
MEM_SIZE, STATUS legal and BUSY exactly in phase BUSY, ERRINFO nonzero exactly in ERR, results 0 unless DONE. -/
def Obligations.StepKeepsTheInvariant : Prop :=
  ∀ s t : State, s.Inv → step s = .next t → t.Inv

/-- 70_reset_and_hazards.md R301, R303, with the values of R300: a reset in any state, busy or not, discards the pending
completion, writes no memory byte and leaves every register at its reset value; that it leaves the model's own fields is the model's
choice (log 9). -/
def Obligations.ResetDiscardsTheCommand : Prop :=
  ∀ (s : State) (ops : List HostOp), ∃ t, hostStep .reset ops s = .next t ∧
    t = { s with
      phase := .idle
      lcmd := 0#32
      lreg := RwRegs.zero
      rw := RwRegs.zero
      status := 0#32
      errinfo := 0#32
      res0 := 0#32
      res1 := 0#32
      res2 := 0#32
      res3 := 0#32
      host := ops } ∧
    (∀ a, memRead t.mem a = memRead s.mem a) ∧
    regRead t 0x00#8 = 0x51534601#32 ∧
    ∀ off : BitVec 8, off ≠ 0x00#8 → regRead t off = 0#32

/-- 70_reset_and_hazards.md R300: the machine at power-on; what a byte of memory holds is free (the model's free value, log 2), and
so are the parameters within their ranges (log 1). -/
def Obligations.PowerOnState : Prop :=
  State.reset.phase = .idle ∧ State.reset.lcmd = 0#32 ∧ State.reset.lreg = RwRegs.zero ∧
  regRead State.reset 0x00#8 = 0x51534601#32 ∧
  (∀ off : BitVec 8, off ≠ 0x00#8 → regRead State.reset off = 0#32) ∧
  (∀ a, memRead State.reset.mem a = Config.powerOnByte a) ∧
  State.reset.params.Valid ∧ step State.reset = .next State.reset

/-- 10_state.md R41, 70_reset_and_hazards.md R320, with the model's finite schedule (log 3): a busy machine whose run does not stop is
idle again within as many steps as its schedule is long, and one more. -/
def Obligations.BusyEndsWithinTheSchedule : Prop :=
  ∀ s t : State, s.phase = .busy →
    Host.Core.run Sys2Proof.core (s.schedule.length + 1) s = .next t →
    ∃ k u, k ≤ s.schedule.length + 1 ∧ Host.Core.run Sys2Proof.core k s = .next u ∧ State.phase u = .idle

/-! ### Registers and the host -/

/-- 10_state.md R21, R22: a host read of 32 bits at an aligned offset returns the value regRead gives (recorded in the host's own list,
log 8), and what that value is at each offset of the register block. -/
def Obligations.RegisterBlockReads : Prop :=
  ∀ s : State,
    (∀ off : BitVec 8, off.toNat % 4 = 0 →
      hostRegRead 32 off s = .next { s with seen := s.seen ++ [.reg off (regRead s off)] }) ∧
    regRead s 0x00#8 = 0x51534601#32 ∧ regRead s 0x04#8 = 0#32 ∧ regRead s 0x08#8 = s.status ∧
    regRead s 0x0C#8 = s.errinfo ∧ regRead s 0x10#8 = s.rw.src0Addr ∧ regRead s 0x14#8 = s.rw.src0Len ∧
    regRead s 0x18#8 = s.rw.src1Addr ∧ regRead s 0x1C#8 = s.rw.src1Len ∧ regRead s 0x20#8 = s.rw.dst0Addr ∧
    regRead s 0x24#8 = s.rw.dst0Cap ∧ regRead s 0x28#8 = s.rw.dst1Addr ∧ regRead s 0x2C#8 = s.rw.dst1Cap ∧
    regRead s 0x30#8 = s.rw.arg0 ∧ regRead s 0x34#8 = s.rw.arg1 ∧ regRead s 0x38#8 = s.rw.arg2 ∧
    regRead s 0x3C#8 = s.rw.arg3 ∧ regRead s 0x40#8 = s.res0 ∧ regRead s 0x44#8 = s.res1 ∧ regRead s 0x48#8 = s.res2 ∧
    regRead s 0x4C#8 = s.res3 ∧ ∀ off : BitVec 8, off.toNat % 4 = 0 → 0x50#8 ≤ off → regRead s off = 0#32

/-- 10_state.md R22: an access of another width or at an unaligned offset is refused; a write to an RO register or a reserved
offset has no effect; a read of CMD or of a reserved offset returns 0; a write to an RW register stores all 32 bits, reads back
the same, and changes no other register. -/
def Obligations.RegisterAccessRules : Prop :=
  (∀ (s : State) (bits : Nat) (off : BitVec 8) (v : Word), (bits ≠ 32 ∨ off.toNat % 4 ≠ 0) →
    hostRegWrite bits off v s = .refused (.registerAccess bits off) ∧
    hostRegRead bits off s = .refused (.registerAccess bits off)) ∧
  (∀ (s : State) (off : BitVec 8) (v : Word), off.toNat % 4 = 0 →
    (off ∈ [0x00#8, 0x08#8, 0x0C#8, 0x40#8, 0x44#8, 0x48#8, 0x4C#8] ∨ 0x50#8 ≤ off) → hostRegWrite 32 off v s = .next s) ∧
  (∀ (s : State) (off : BitVec 8), off.toNat % 4 = 0 → (off = 0x04#8 ∨ 0x50#8 ≤ off) →
    hostRegRead 32 off s = .next { s with seen := s.seen ++ [.reg off 0#32] }) ∧
  (∀ (s : State) (off : BitVec 8) (v : Word), off.toNat % 4 = 0 → 0x10#8 ≤ off → off ≤ 0x3C#8 →
    ∃ t, hostRegWrite 32 off v s = .next t ∧ t = { s with rw := t.rw } ∧ regRead t off = v ∧
      ∀ off', off' ≠ off → regRead t off' = regRead s off')

/-- 10_state.md R23: ID is hardwired; no write changes it and reset does not change it. -/
def Obligations.IdIsHardwired : Prop :=
  ∀ (s : State) (off : BitVec 8) (v : Word),
    regRead s 0x00#8 = 0x51534601#32 ∧ regRead (regWrite s off v) 0x00#8 = 0x51534601#32 ∧
    regRead s.afterReset 0x00#8 = 0x51534601#32 ∧
    (regRead s 0x00#8).extractLsb' 8 24 = 0x51#8 ++ 0x53#8 ++ 0x46#8 ∧ (regRead s 0x00#8).extractLsb' 0 8 = 0x01#8

/-- 10_state.md R24: a write of CMD starts a command while STATUS.BUSY = 0 and has no effect at all while STATUS.BUSY = 1; CMD holds
no readable value; a word with a reserved bit set is no command. -/
def Obligations.CmdWriteRules : Prop :=
  ∀ (s : State) (v : Word),
    (busyFlag s.status = false → hostRegWrite 32 0x04#8 v s = .next (s.start v)) ∧
    (busyFlag s.status = true → hostRegWrite 32 0x04#8 v s = .next s) ∧
    regRead s 0x04#8 = 0#32 ∧
    ∀ i, decode v = .ok i → v.extractLsb' 8 24 = 0#24 ∧ v.extractLsb' 0 8 = opcodeOf i

/-- 60_exceptions.md R275: the next command start, or a reset, clears the error; reading ERRINFO changes nothing the core holds. -/
def Obligations.NextStartClearsTheError : Prop :=
  ∀ (s : State) (c : Word) (ops : List HostOp), s.phase = .idle → s.status = 0x00000004#32 →
    (s.host = .regWrite 32 0x04#8 c :: ops →
      ∃ t, step s = .next t ∧ errFlag t.status = false ∧ t.errinfo = 0#32 ∧ t.res0 = 0#32 ∧ t.res1 = 0#32 ∧ t.res2 = 0#32 ∧
        t.res3 = 0#32 ∧ t.phase = .busy) ∧
    (s.host = .reset :: ops →
      ∃ t, step s = .next t ∧ errFlag t.status = false ∧ t.errinfo = 0#32 ∧ t.res0 = 0#32 ∧ t.res1 = 0#32 ∧ t.res2 = 0#32 ∧
        t.res3 = 0#32 ∧ t.phase = .idle) ∧
    (s.host = .regRead 32 0x0C#8 :: ops →
      step s = .next { s with host := ops, seen := s.seen ++ [.reg 0x0C#8 s.errinfo] })

/-- 20_memory.md R60: a host access at or above MEM_SIZE is refused; below it, while no command runs, a write stores the byte, which
a read then returns, and no other byte changes. -/
def Obligations.HostMemoryAccess : Prop :=
  ∀ (s : State) (a : Nat) (b : Byte),
    (s.params.memSize ≤ a → hostMemWrite a b s = .refused (.hostAddress a) ∧ hostMemRead a s = .refused (.hostAddress a)) ∧
    (a < s.params.memSize → busyFlag s.status = false →
      hostMemRead a s = .next { s with seen := s.seen ++ [.mem a (memRead s.mem a)] } ∧
      ∃ t, hostMemWrite a b s = .next t ∧ t = { s with mem := t.mem } ∧ memRead t.mem a = b ∧
        ∀ x, x ≠ a → memRead t.mem x = memRead s.mem x)

/-- 70_reset_and_hazards.md R310, the rows on memory: while BUSY, a write inside a region of the running command is the fault
HOST_HAZARD, a write elsewhere is stored; a read inside a destination region returns a free value (log 5, also for a byte that is in
a source region as well, log 6), a read elsewhere the stored value. An illegal command word uses no region (log 12): every write is
stored and every read returns the stored value. -/
def Obligations.BusyMemoryHazards : Prop :=
  ∀ (s : State) (a : Nat) (b : Byte), busyFlag s.status = true → a < s.params.memSize →
    let stores := ∃ t, hostMemWrite a b s = .next t ∧ t = { s with mem := t.mem } ∧ memRead t.mem a = b ∧
      ∀ x, x ≠ a → memRead t.mem x = memRead s.mem x
    let returnsStored := hostMemRead a s = .next { s with seen := s.seen ++ [.mem a (memRead s.mem a)] }
    (∀ i, decode s.lcmd = .ok i →
      ((∃ g ∈ sourceRegions i s.lreg ++ destRegions i s.lreg, g.addr ≤ a ∧ a < g.addr + g.len) →
        hostMemWrite a b s = .fault (.hostHazard a)) ∧
      ((∀ g ∈ sourceRegions i s.lreg ++ destRegions i s.lreg, ¬ (g.addr ≤ a ∧ a < g.addr + g.len)) → stores) ∧
      ((∃ g ∈ destRegions i s.lreg, g.addr ≤ a ∧ a < g.addr + g.len) →
        hostMemRead a s = .next { s with
          seen := s.seen ++ [.mem a (Config.freeRead s.freeCount)]
          freeCount := s.freeCount + 1 }) ∧
      ((∀ g ∈ destRegions i s.lreg, ¬ (g.addr ≤ a ∧ a < g.addr + g.len)) → returnsStored)) ∧
    ((∀ i, decode s.lcmd ≠ .ok i) → stores ∧ returnsStored)

/-- 70_reset_and_hazards.md R310, the rows on registers, in states that meet the invariant: while BUSY a CMD write is ignored, an RW
write changes that register and no other, and not the running command, STATUS reads 1 and ERRINFO and the results read 0. -/
def Obligations.BusyRegisterAccess : Prop :=
  ∀ (s : State) (r : RwReg) (v : Word), s.Inv → s.phase = .busy →
    hostRegWrite 32 0x04#8 v s = .next s ∧
    (∃ t, hostRegWrite 32 (offsetOf (.rw r)) v s = .next t ∧ t = { s with rw := t.rw } ∧ regRead t (offsetOf (.rw r)) = v ∧
      ∀ off : BitVec 8, off ≠ offsetOf (.rw r) → regRead t off = regRead s off) ∧
    regRead s 0x08#8 = 0x00000001#32 ∧ regRead s 0x0C#8 = 0#32 ∧ regRead s 0x40#8 = 0#32 ∧ regRead s 0x44#8 = 0#32 ∧
    regRead s 0x48#8 = 0#32 ∧ regRead s 0x4C#8 = 0#32

/-- 30_encoding.md R121, in the model's form (log 8): each round of `wait` reads STATUS; it ends when bit 0 of the value read is 0
and is repeated otherwise. -/
def Obligations.WaitPollsUntilNotBusy : Prop :=
  ∀ (s : State) (ops : List HostOp),
    (s.status.getLsbD 0 = true → hostStep .poll ops s =
      .next { s with host := .poll :: ops, seen := s.seen ++ [.reg 0x08#8 s.status] }) ∧
    (s.status.getLsbD 0 = false → hostStep .poll ops s =
      .next { s with host := ops, seen := s.seen ++ [.reg 0x08#8 s.status] })

/-! ### Bit streams and records -/

/-- 20_memory.md R64 to R67: the bit order of a byte sequence, `get`, `put`, and the padding and size of `bytes`. -/
def Obligations.BitStreamRules : Prop :=
  (∀ (bytes : List Byte) (p : Nat), p < 8 * bytes.length →
    (bytesToBits bytes)[p]? = some ((bytes.getD (p / 8) 0#8).getLsbD (7 - p % 8))) ∧
  (∀ (r : BitReader) (m : Nat), r.rest.length < m → getBits r m = .error .prematureEnd) ∧
  (∀ (r : BitReader) (m : Nat), m ≤ r.rest.length → ∃ v, getBits r m = .ok (v, ⟨r.pos + m, r.rest.drop m⟩) ∧ v < 2 ^ m ∧
    ∀ k, k < m → r.rest[k]? = some (v.testBit (m - 1 - k))) ∧
  (∀ m v k : Nat, (natBits m v).length = m ∧ (k < m → (natBits m v)[k]? = some (v.testBit (m - 1 - k)))) ∧
  ∀ bits : List Bool,
    bytesToBits (bitsToBytes bits) = bits ++ List.replicate ((8 - bits.length % 8) % 8) false ∧
    (bitsToBytes bits).length = (bits.length + 7) / 8

/-- 30_encoding.md R114, 20_memory.md R63, R70: a stream of 32-bit fields over a region reads the big-endian words of memory; the value
of a big-endian read; what a big-endian write stores, and that it reads back. -/
def Obligations.WordsAreBigEndian : Prop :=
  (∀ (m : Memory) (a n : Nat), ∃ r, getMany 32 n (readerOf (memBytes m a (4 * n))) =
    .ok ((List.range n).map (fun k => memReadBE m (a + 4 * k) 4), r)) ∧
  (∀ (m : Memory) (a n : Nat), memReadBE m a n =
    ((List.range n).map (fun k => (memRead m (a + k)).toNat * 2 ^ (8 * (n - 1 - k)))).sum) ∧
  ∀ (m : Memory) (a n v : Nat), v < 2 ^ (8 * n) →
    memReadBE (memWriteBE m a n v) a n = v ∧
    (∀ k, k < n → memRead (memWriteBE m a n v) (a + k) = BitVec.ofNat 8 (v / 2 ^ (8 * (n - 1 - k)))) ∧
    ∀ x, ¬ (a ≤ x ∧ x < a + n) → memRead (memWriteBE m a n v) x = memRead m x

/-- 20_memory.md R68, 30_encoding.md R110, R112: a 32-bit length or count that is negative as a signed integer is NEGATIVE_COUNT, as the
length of a string and as the property count of a record. -/
def Obligations.NegativeCountsAreRejected : Prop :=
  ∀ (v pos : Nat) (rest : List Bool), 2147483648 ≤ v → v < 4294967296 →
    getCount ⟨pos, natBits 32 v ++ rest⟩ = .error .negativeCount ∧
    readString ⟨pos, natBits 32 v ++ rest⟩ = .error .negativeCount ∧
    ∀ name : List CodeUnit, name.length < 2147483648 →
      readRecord ⟨pos, stringBits name ++ (natBits 32 v ++ rest)⟩ = .error .negativeCount

/-- 30_encoding.md R118: packed units: where each bit stands, the zero padding, the size, and that they read back, whatever follows
them. -/
def Obligations.UnpackInvertsPack : Prop :=
  ∀ (u : List Nat) (w : Nat), 1 ≤ w → w ≤ 16 → (∀ x ∈ u, x < 2 ^ w) →
    (∀ k j, k < u.length → j < w → (bytesToBits (pack u w))[k * w + j]? = some ((u.getD k 0).testBit (w - 1 - j))) ∧
    (∀ p, u.length * w ≤ p → p < 8 * (pack u w).length → (bytesToBits (pack u w))[p]? = some false) ∧
    (pack u w).length = (u.length * w + 7) / 8 ∧
    ∀ extra : List Byte, unpack (pack u w ++ extra) w u.length = .ok u

/-- 30_encoding.md R112, R113: a block record reads back as the block it was written from, whatever follows it; a record cut short is
PREMATURE_END (20_memory.md R65). -/
def Obligations.RecordReadsBack : Prop :=
  ∀ (b : Block) (pos : Nat), b.Legal →
    (∀ rest, readRecord ⟨pos, recordBits b ++ rest⟩ = .ok (b, ⟨pos + (recordBits b).length, rest⟩)) ∧
    ∀ k, k < (recordBits b).length → readRecord ⟨pos, (recordBits b).take k⟩ = .error .prematureEnd

/-- 30_encoding.md R113: what a block record is made of, and that writing the record that was read reproduces the bits it was read
from; what was read is a legal block (41_palette.md R150). -/
def Obligations.RecordRewritesItsBits : Prop :=
  (∀ b : Block, recordBits b =
    natBits 32 b.name.length ++ b.name.flatMap (fun c => natBits 16 c.toNat) ++ natBits 32 b.props.length ++
      b.props.flatMap (fun kv =>
        natBits 32 kv.1.length ++ kv.1.flatMap (fun c => natBits 16 c.toNat) ++
        natBits 32 kv.2.length ++ kv.2.flatMap (fun c => natBits 16 c.toNat))) ∧
  ∀ (r r' : BitReader) (b : Block), readRecord r = .ok (b, r') →
    r.rest = recordBits b ++ r'.rest ∧ r'.pos = r.pos + (recordBits b).length ∧ b.Legal

/-- 30_encoding.md R112: a record that lists a key twice is DUPLICATE_KEY. -/
def Obligations.DuplicateKeyIsRejected : Prop :=
  ∀ (b : Block) (pos : Nat) (rest : List Bool), ¬ (b.props.map Prod.fst).Nodup → b.name.length < 2147483648 →
    b.props.length < 2147483648 → (∀ kv ∈ b.props, kv.1.length < 2147483648 ∧ kv.2.length < 2147483648) →
    readRecord ⟨pos, recordBits b ++ rest⟩ = .error .duplicateKey

/-! ### BITW -/

/-- 40_bitwidth.md R140, R141: BITW completes in every state, its result is the least `k` with `n < 2^k`, and nothing else
changes. -/
def Obligations.BitwGivesTheLeastWidth : Prop :=
  ∀ (s : State) (k : Nat), s.lreg.arg0.toNat < 2 ^ k → (∀ j, s.lreg.arg0.toNat < 2 ^ j → k ≤ j) →
    exec .bitw s = .next { s with
      phase := .idle
      status := 0x00000002#32
      errinfo := 0#32
      res0 := BitVec.ofNat 32 k
      res1 := 0#32
      res2 := 0#32
      res3 := 0#32 }

/-- 40_bitwidth.md R140, R143: the recursion that defines `b2r`, its closed form, and its laws. -/
def Obligations.BitWidthLaws : Prop :=
  b2r 0 = 0 ∧ (∀ n, 0 < n → b2r n = 1 + b2r (n / 2)) ∧ (∀ n, 0 < n → b2r n = Nat.log 2 n + 1) ∧
  (∀ m n, m ≤ n → b2r m ≤ b2r n) ∧ (∀ n, n < 2 ^ b2r n) ∧
  (∀ n, 0 < n → 2 ^ (b2r n - 1) ≤ n) ∧ (∀ n k, n < 2 ^ k → b2r n ≤ k) ∧ (∀ n, n < 4294967296 → b2r n ≤ 32) ∧
  (∀ n, n ≤ 4095 → b2r n ≤ 12) ∧ ∀ n, indexWidth n ≤ 16 ↔ n ≤ 65535

/-! ### Palette -/

/-- 41_palette.md R152, R153, R156, R158: the palette holds each distinct block once, in order of first occurrence and as it stood at
its first occurrence; every cell's index names its block; `P ≤ N`, `P ≤ MAX_PALETTE`, and `P = 0` exactly when `N = 0`. The encoding
fails exactly when a block that is not in the palette yet meets a palette of MAX_PALETTE entries, and the error is CAPACITY
(60_exceptions.md R264); so it succeeds whenever the grid is no longer than the capacity. -/
def Obligations.PaletteListsFirstOccurrences : Prop :=
  (∀ (limit : Nat) (g pal : List Block) (idx : List Nat), paletteEncode limit g = .ok (pal, idx) →
    idx.length = g.length ∧ pal.Pairwise (fun a b => ¬ SameBlock a b) ∧
    (∀ (c : Nat) (b : Block), g[c]? = some b → ∃ (k : Nat) (e : Block), idx[c]? = some k ∧ pal[k]? = some e ∧ SameBlock e b) ∧
    (∀ (k : Nat) (e : Block), pal[k]? = some e → ∃ c : Nat, g[c]? = some e ∧ idx[c]? = some k ∧
      ∀ c' k' : Nat, c' < c → idx[c']? = some k' → k' < k) ∧
    pal.length ≤ g.length ∧ pal.length ≤ limit ∧ (pal.length = 0 ↔ g.length = 0)) ∧
  (∀ (limit : Nat) (g : List Block) (c : Cause), paletteEncode limit g = .error c ↔
    c = .capacity ∧ ∃ (n : Nat) (b : Block) (pal : List Block) (idx : List Nat), g[n]? = some b ∧
      paletteEncode limit (g.take n) = .ok (pal, idx) ∧ pal.length = limit ∧ ∀ e ∈ pal, ¬ SameBlock e b) ∧
  ∀ (limit : Nat) (g : List Block), g.length ≤ limit → ∃ pal idx, paletteEncode limit g = .ok (pal, idx)

/-- 41_palette.md R155, R72: PAL_ENC with legal operands and regions. A record that does not read ends it with that record's error,
even where the records before it overflow the palette: reading all records first is the model's choice between R155's pseudocode and its
remark on interleaving (log 7). On a region that begins with the records of a grid `g` of legal blocks, a grid without a palette ends it with that error; else the
palette records at DST0, the index array at DST1, the four results, and nothing else changed; or DST_OVERFLOW when an output is longer
than its destination (60_exceptions.md R263). -/
def Obligations.PalEncCompletes : Prop :=
  ∀ s : State, RegionsLegal s.params .palEnc s.lreg → s.lreg.arg0.toNat ≤ s.params.maxCells →
    (∀ c, readRecords s.lreg.arg0.toNat (regionReader s.mem (src0 s.lreg)) = .error c → exec .palEnc s = .next (s.raise c)) ∧
    ∀ (g : List Block) (rest : List Bool), s.lreg.arg0.toNat = g.length → (∀ b ∈ g, b.Legal) →
      bytesToBits (regionBytes s.mem (src0 s.lreg)) = recordsBits g ++ rest →
      (∀ c, paletteEncode s.params.maxPalette g = .error c → exec .palEnc s = .next (s.raise c)) ∧
      ∀ (pal : List Block) (idx : List Nat), paletteEncode s.params.maxPalette g = .ok (pal, idx) →
        ((bitsToBytes (recordsBits pal)).length ≤ s.lreg.dst0Cap.toNat → 4 * g.length ≤ s.lreg.dst1Cap.toNat →
          ∃ t, exec .palEnc s = .next t ∧
            Completed s t (bitsToBytes (recordsBits pal)) (pack idx 32) pal.length g.length
              (bitsToBytes (recordsBits pal)).length (4 * g.length)) ∧
        (s.lreg.dst0Cap.toNat < (bitsToBytes (recordsBits pal)).length ∨ s.lreg.dst1Cap.toNat < 4 * g.length →
          exec .palEnc s = .next (s.raise .dstOverflow))

/-- 41_palette.md R165, R72: PAL_DEC with legal operands and regions. A palette record that does not read ends it with that record's
error. On regions that begin with the records of a palette and with index words, every index below the palette size: the records of
the named entries at DST0, the results, and nothing else changed; or DST_OVERFLOW when they are longer than the destination
(60_exceptions.md R263). -/
def Obligations.PalDecCompletes : Prop :=
  ∀ s : State, RegionsLegal s.params .palDec s.lreg → s.lreg.arg0.toNat ≤ s.params.maxPalette →
    s.lreg.arg1.toNat ≤ s.params.maxCells →
    (∀ c, readRecords s.lreg.arg0.toNat (regionReader s.mem (src0 s.lreg)) = .error c → exec .palDec s = .next (s.raise c)) ∧
    ∀ (pal cells : List Block) (idx : List Nat) (rest0 rest1 : List Bool),
      s.lreg.arg0.toNat = pal.length → s.lreg.arg1.toNat = idx.length → (∀ b ∈ pal, b.Legal) →
      bytesToBits (regionBytes s.mem (src0 s.lreg)) = recordsBits pal ++ rest0 →
      bytesToBits (regionBytes s.mem (src1 s.lreg)) = unitBits 32 idx ++ rest1 →
      idx.map (fun k => pal[k]?) = cells.map some →
      ((bitsToBytes (recordsBits cells)).length ≤ s.lreg.dst0Cap.toNat → ∃ t, exec .palDec s = .next t ∧
        Completed s t (bitsToBytes (recordsBits cells)) [] (bitsToBytes (recordsBits cells)).length idx.length pal.length 0) ∧
      (s.lreg.dst0Cap.toNat < (bitsToBytes (recordsBits cells)).length → exec .palDec s = .next (s.raise .dstOverflow))

/-- 41_palette.md R165, R154: the first index at or above the palette size is INDEX_RANGE, even where the index array ends right
after it; an index array that ends before that is PREMATURE_END. -/
def Obligations.PalDecReportsTheFirstBadIndex : Prop :=
  ∀ (s : State) (pal : List Block) (good : List Nat) (rest0 rest1 : List Bool),
    RegionsLegal s.params .palDec s.lreg → s.lreg.arg0.toNat = pal.length → good.length < s.lreg.arg1.toNat →
    pal.length ≤ s.params.maxPalette → s.lreg.arg1.toNat ≤ s.params.maxCells → (∀ b ∈ pal, b.Legal) →
    bytesToBits (regionBytes s.mem (src0 s.lreg)) = recordsBits pal ++ rest0 →
    bytesToBits (regionBytes s.mem (src1 s.lreg)) = unitBits 32 good ++ rest1 → (∀ k ∈ good, k < pal.length) →
    (∀ bad rest2, rest1 = natBits 32 bad ++ rest2 → pal.length ≤ bad → bad < 2 ^ 32 →
      exec .palDec s = .next (s.raise .indexRange)) ∧
    (rest1.length < 32 → exec .palDec s = .next (s.raise .prematureEnd))

/-- 41_palette.md R167: PAL_DEC on what PAL_ENC wrote, with `P = RES0` and `N = RES1`, succeeds when its destination is as large as the
grid records were; the cells come back equal in value, and the same bit for bit exactly when equal cells list their properties in one
order. -/
def Obligations.PaletteRoundTrip : Prop :=
  ∀ s t s' : State, exec .palEnc s = .next t → t.status = 0x00000002#32 →
    s'.params = s.params → RegionsLegal s'.params .palDec s'.lreg →
    s'.lreg.arg0 = t.res0 → s'.lreg.arg1 = t.res1 →
    regionBytes s'.mem (src0 s'.lreg) = memBytes t.mem (dst0 s.lreg).addr t.res2.toNat →
    regionBytes s'.mem (src1 s'.lreg) = memBytes t.mem (dst1 s.lreg).addr t.res3.toNat →
    s.lreg.src0Len.toNat ≤ s'.lreg.dst0Cap.toNat →
    ∃ (t' : State) (g g' : List Block) (rest : List Bool),
      exec .palDec s' = .next t' ∧ t'.status = 0x00000002#32 ∧
      bytesToBits (regionBytes s.mem (src0 s.lreg)) = recordsBits g ++ rest ∧ g.length = s.lreg.arg0.toNat ∧
      bytesToBits (memBytes t'.mem (dst0 s'.lreg).addr t'.res0.toNat) = recordsBits g' ∧
      SameGrid g g' ∧
      (recordsBits g' = recordsBits g ↔ ∀ a ∈ g, ∀ b ∈ g, SameBlock a b → a = b)

/-! ### LZSS -/

/-- 42_lzss.md R181: the operand checks of LZ_COMP in their order. -/
def Obligations.LzCompOperandErrors : Prop :=
  ∀ s : State,
    let search := s.lreg.arg0.toNat
    let look := s.lreg.arg1.toNat
    let width := s.lreg.arg2.toNat
    let n := s.lreg.arg3.toNat
    (¬ (1 ≤ search ∧ search ≤ 4095) → exec .lzComp s = .next (s.raise .paramRange)) ∧
    (1 ≤ search ∧ search ≤ 4095 → ¬ (1 ≤ look ∧ look ≤ 4095) → exec .lzComp s = .next (s.raise .paramRange)) ∧
    (1 ≤ search ∧ search ≤ 4095 → 1 ≤ look ∧ look ≤ 4095 → ¬ (1 ≤ width ∧ width ≤ 16) →
      exec .lzComp s = .next (s.raise .widthRange)) ∧
    (1 ≤ search ∧ search ≤ 4095 → 1 ≤ look ∧ look ≤ 4095 → 1 ≤ width ∧ width ≤ 16 → 4096 < n →
      exec .lzComp s = .next (s.raise .paramRange))

/-- 42_lzss.md R180, R72: LZ_COMP with legal operands and regions. A source of fewer than `N·W` bits is PREMATURE_END. On a region that
begins with `N` packed units: the payload at DST0, the sizes and token counts in the results, and nothing else changed; a payload
longer than the destination is DST_OVERFLOW (60_exceptions.md R263). -/
def Obligations.LzCompCompletes : Prop :=
  ∀ s : State,
    let search := s.lreg.arg0.toNat
    let look := s.lreg.arg1.toNat
    let width := s.lreg.arg2.toNat
    let n := s.lreg.arg3.toNat
    LzParamsLegal search look width n → RegionsLegal s.params .lzComp s.lreg →
    (8 * s.lreg.src0Len.toNat < n * width → exec .lzComp s = .next (s.raise .prematureEnd)) ∧
    ∀ (u : List Nat) (rest : List Bool), n = u.length → (∀ x ∈ u, x < 2 ^ width) →
      bytesToBits (regionBytes s.mem (src0 s.lreg)) = unitBits width u ++ rest →
      let pay := lzCompress search look width u
      let ts := compressTokens search look width u
      (pay.length ≤ s.lreg.dst0Cap.toNat → ∃ t, exec .lzComp s = .next t ∧
        Completed s t pay [] pay.length (countLits ts) (countMats ts) (bodyBits search look width ts).length) ∧
      (s.lreg.dst0Cap.toNat < pay.length → exec .lzComp s = .next (s.raise .dstOverflow))

/-- 42_lzss.md R188: the search takes the longest length for which some offset matches and, for that length, the smallest offset; the
offsets tried for length `i` are `i, …, S − 1`. -/
def Obligations.SearchTakesLongestThenNearest : Prop :=
  ∀ (search n : Nat) (hist la : List Nat),
    (∀ i off, searchMatch search hist la n = some (i, off) →
      (1 ≤ i ∧ i ≤ n ∧ i ≤ off ∧ off < search) ∧ (hist.drop (search - off)).take i = la.take i ∧
      (∀ off', i ≤ off' → off' < off → (hist.drop (search - off')).take i ≠ la.take i) ∧
      ∀ i' off', i < i' → i' ≤ n → i' ≤ off' → off' < search → (hist.drop (search - off')).take i' ≠ la.take i') ∧
    (searchMatch search hist la n = none →
      ∀ i' off', 1 ≤ i' → i' ≤ n → i' ≤ off' → off' < search → (hist.drop (search - off')).take i' ≠ la.take i')

/-- 42_lzss.md R185, R187, R188, R189, R191, R194, R195: the tokens the compressor emits. Token `k` stands at the position `p` the tokens
before it have consumed: with the last `S` units of the padding and the units before `p` as history and at most `L` units from `p` on as
lookahead, it is the match the search finds there when that costs no more than its literals, equality included, and the literal `u[p]`
otherwise. Every match lies in the history and costs no more than its literals, and the tokens consume every unit. -/
def Obligations.TokensLieInTheHistory : Prop :=
  ∀ (search look width : Nat) (u : List Nat),
    let ts := compressTokens search look width u
    (∀ (k : Nat) (t : Token), ts[k]? = some t →
      let p := ((ts.take k).map tokenUnits).sum
      let hist := (List.replicate search 0 ++ u.take p).drop p
      let la := (u.drop p).take look
      ∃ x, u[p]? = some x ∧
        (∀ i off, searchMatch search hist la la.length = some (i, off) →
          t = if 1 + b2r search + b2r look ≤ (1 + width) * i then .mat off i else .lit x) ∧
        (searchMatch search hist la la.length = none → t = .lit x)) ∧
    (∀ off len, Token.mat off len ∈ ts →
      1 ≤ len ∧ len ≤ look ∧ len ≤ off ∧ off ≤ search - 1 ∧ 1 + b2r search + b2r look ≤ (1 + width) * len) ∧
    (ts.map tokenUnits).sum = u.length

/-- 42_lzss.md R194: the size of a payload and of its body. -/
def Obligations.PayloadSize : Prop :=
  ∀ (search look width : Nat) (u : List Nat),
    let ts := compressTokens search look width u
    let bb := (bodyBits search look width ts).length
    (lzCompress search look width u).length = (48 + bb + 7) / 8 ∧
    bb = countLits ts * (1 + width) + countMats ts * (1 + b2r search + b2r look) ∧
    countLits ts + ((ts.filter (fun t => match t with | .lit _ => false | .mat _ _ => true)).map tokenUnits).sum = u.length ∧
    bb ≤ u.length * (1 + width) ∧
    (lzCompress search look width u).length ≤ 6 + (u.length * (1 + width) + 7) / 8

/-- 42_lzss.md R201, R202, R203: reading and checking the header of a payload. -/
def Obligations.LzHeaderRules : Prop :=
  (∀ (search look width c pos nbytes : Nat) (rest : List Bool), search < 4096 → look < 4096 → width < 4096 → c < 4096 →
    lzReadHeader ⟨pos, natBits 12 search ++ natBits 12 look ++ natBits 12 width ++ natBits 12 c ++ rest⟩ nbytes =
      if width < 1 ∨ 16 < width ∨ search = 0 ∨ look = 0 then .error .badLzssHeader
      else if c = 4095 ∧ nbytes = 6 then .ok (⟨search, look, width, 0⟩, ⟨pos + 48, rest⟩)
      else .ok (⟨search, look, width, c + 1⟩, ⟨pos + 48, rest⟩)) ∧
  ∀ (bytes : List Byte) (nbytes : Nat), bytes.length < 6 → lzReadHeader (readerOf bytes) nbytes = .error .prematureEnd

/-- 30_encoding.md R117, 42_lzss.md R204: one token of a body: the flag bit, then a literal's unit or a match's offset and length, each at
its width; a body that ends inside a token is PREMATURE_END. -/
def Obligations.TokensAreReadFieldByField : Prop :=
  ∀ (h : LzHeader) (pos : Nat) (out : List Nat) (rest : List Bool),
    (∀ v, v < 2 ^ h.width → decodeToken Config.copyCount h ⟨pos, false :: natBits h.width v ++ rest⟩ out =
      .ok (out ++ [v], ⟨pos + (1 + h.width), rest⟩)) ∧
    (∀ off len : Nat, off < 2 ^ b2r h.search → len < 2 ^ b2r h.lookahead →
      decodeToken Config.copyCount h ⟨pos, true :: (natBits (b2r h.search) off ++ natBits (b2r h.lookahead) len) ++ rest⟩ out =
        match expandMatch Config.copyCount off len out with
        | .ok out' => .ok (out', ⟨pos + (1 + b2r h.search + b2r h.lookahead), rest⟩)
        | .error c => .error c) ∧
    decodeToken Config.copyCount h ⟨pos, []⟩ out = .error .prematureEnd ∧
    (rest.length < h.width → decodeToken Config.copyCount h ⟨pos, false :: rest⟩ out = .error .prematureEnd) ∧
    (rest.length < b2r h.search + b2r h.lookahead →
      decodeToken Config.copyCount h ⟨pos, true :: rest⟩ out = .error .prematureEnd)

/-- 42_lzss.md R206: match expansion: unit `k` is the unit `offset` back, the last `offset` units repeated as often as needed; an
offset past the start, or 0 with units to copy, is BAD_OFFSET; length 0 appends nothing. -/
def Obligations.MatchRepeatsTheLastUnits : Prop :=
  ∀ (off len : Nat) (out : List Nat),
    (out.length < off → expandMatch Config.copyCount off len out = .error .badOffset) ∧
    (off ≤ out.length → len = 0 → expandMatch Config.copyCount off len out = .ok out) ∧
    (off = 0 → 1 ≤ len → expandMatch Config.copyCount off len out = .error .badOffset) ∧
    (1 ≤ off → off ≤ out.length → 1 ≤ len → expandMatch Config.copyCount off len out =
      .ok (out ++ (List.range len).map (fun k => out.getD (out.length - off + k % off) 0)))

/-- 42_lzss.md R207, R208, R209: the decoder returns at least `count` units, fewer than `count + 4096` for a header that was read, and
bits after the last token do not matter. -/
def Obligations.DecodedUnitsAndTrailingBits : Prop :=
  ∀ (h : LzHeader) (r : BitReader) (u : List Nat), lzDecodeBody Config.copyCount h r = .ok u →
    h.count ≤ u.length ∧ (h.lookahead < 4096 → u.length < h.count + 4096) ∧
    ∀ extra : List Bool, lzDecodeBody Config.copyCount h ⟨r.pos, r.rest ++ extra⟩ = .ok u

/-- 42_lzss.md R213: the LZSS round trip. -/
def Obligations.LzssRoundTrip : Prop :=
  ∀ (search look width : Nat) (u : List Nat), LzParamsLegal search look width u.length → (∀ x ∈ u, x < 2 ^ width) →
    ∃ r, lzReadHeader (readerOf (lzCompress search look width u)) (lzCompress search look width u).length =
        .ok (⟨search, look, width, u.length⟩, r) ∧
      lzDecodeBody Config.copyCount ⟨search, look, width, u.length⟩ r = .ok u

/-- 42_lzss.md R200, R211, R72: LZ_DECOMP with legal regions. A header or a body that does not read ends it with that error. On a payload
whose header and body decode: the packed units at DST0, the results, and nothing else changed; an output longer than the destination
is DST_OVERFLOW (60_exceptions.md R263). -/
def Obligations.LzDecompCompletes : Prop :=
  ∀ s : State, RegionsLegal s.params .lzDecomp s.lreg →
    (∀ c, lzReadHeader (regionReader s.mem (src0 s.lreg)) s.lreg.src0Len.toNat = .error c →
      exec .lzDecomp s = .next (s.raise c)) ∧
    ∀ (h : LzHeader) (r : BitReader),
      lzReadHeader (regionReader s.mem (src0 s.lreg)) s.lreg.src0Len.toNat = .ok (h, r) →
      (∀ c, lzDecodeBody Config.copyCount h r = .error c → exec .lzDecomp s = .next (s.raise c)) ∧
      ∀ u : List Nat, lzDecodeBody Config.copyCount h r = .ok u →
        ((pack u h.width).length ≤ s.lreg.dst0Cap.toNat → ∃ t, exec .lzDecomp s = .next t ∧
          Completed s t (pack u h.width) [] u.length ((u.length * h.width + 7) / 8) h.width h.search) ∧
        (s.lreg.dst0Cap.toNat < (pack u h.width).length → exec .lzDecomp s = .next (s.raise .dstOverflow))

/-! ### Sections -/

/-- 43_section.md R230 to R235, R237, 30_encoding.md R115: SEC_ENC with legal operands and regions. A record that does not read ends it
with that record's error. On a region that begins with the records of a grid of legal blocks: the section at DST0, field by field, its
size, the results, and nothing else changed; a section longer than the destination is DST_OVERFLOW (60_exceptions.md R263). -/
def Obligations.SecEncCompletes : Prop :=
  ∀ s : State,
    let search := s.lreg.arg1.toNat
    let look := s.lreg.arg2.toNat
    s.params.Valid → s.lreg.arg0.toNat ≤ 4096 → (1 ≤ search ∧ search ≤ 4095) → (1 ≤ look ∧ look ≤ 4095) →
    RegionsLegal s.params .secEnc s.lreg →
    (∀ c, readRecords s.lreg.arg0.toNat (regionReader s.mem (src0 s.lreg)) = .error c → exec .secEnc s = .next (s.raise c)) ∧
    ∀ (g pal : List Block) (idx : List Nat) (rest : List Bool), s.lreg.arg0.toNat = g.length → (∀ b ∈ g, b.Legal) →
      bytesToBits (regionBytes s.mem (src0 s.lreg)) = recordsBits g ++ rest →
      paletteEncode s.params.maxPalette g = .ok (pal, idx) →
      let pay := lzCompress search look (max 1 (b2r pal.length)) idx
      (12 + (recordsBits pal).length / 8 + pay.length ≤ s.lreg.dst0Cap.toNat →
        ∃ (t : State) (sec : List Byte), exec .secEnc s = .next t ∧
          bytesToBits sec = natBits 32 pal.length ++ recordsBits pal ++ natBits 32 g.length ++ natBits 32 pay.length ++
            bytesToBits pay ∧
          sec.length = 12 + (recordsBits pal).length / 8 + pay.length ∧
          Completed s t sec [] sec.length pal.length (max 1 (b2r pal.length)) pay.length ∧
          pal.length ≤ g.length ∧ max 1 (b2r pal.length) ≤ 13) ∧
      (s.lreg.dst0Cap.toNat < 12 + (recordsBits pal).length / 8 + pay.length →
        exec .secEnc s = .next (s.raise .dstOverflow))

/-- 43_section.md R240 to R248: SEC_DEC on a region that begins with a section whose payload agrees with its palette size and cell
count and decodes. Indices below the palette size: the records of the cells at DST0, the results, and nothing else changed, or
DST_OVERFLOW when they are longer than the destination (60_exceptions.md R263). An index at or above it: INDEX_RANGE. -/
def Obligations.SecDecCompletes : Prop :=
  ∀ (s : State) (pal : List Block) (n : Nat) (pay : List Byte) (h : LzHeader) (r : BitReader) (u : List Nat)
    (rest : List Bool),
    RegionsLegal s.params .secDec s.lreg →
    bytesToBits (regionBytes s.mem (src0 s.lreg)) =
      natBits 32 pal.length ++ recordsBits pal ++ natBits 32 n ++ natBits 32 pay.length ++ bytesToBits pay ++ rest →
    pal.length ≤ s.params.maxPalette → pal.length ≤ 65535 → (∀ b ∈ pal, b.Legal) →
    n ≤ s.params.maxCells → n < 2147483648 → pay.length < 2147483648 →
    lzReadHeader (readerOf pay) pay.length = .ok (h, r) → h.width = max 1 (b2r pal.length) → h.count = n →
    lzDecodeBody Config.copyCount h r = .ok u →
    (∀ cells : List Block, (u.take n).map (fun k => pal[k]?) = cells.map some →
      ((bitsToBytes (recordsBits cells)).length ≤ s.lreg.dst0Cap.toNat → ∃ t, exec .secDec s = .next t ∧
        Completed s t (bitsToBytes (recordsBits cells)) [] n (bitsToBytes (recordsBits cells)).length pal.length
          (12 + (recordsBits pal).length / 8 + pay.length)) ∧
      (s.lreg.dst0Cap.toNat < (bitsToBytes (recordsBits cells)).length → exec .secDec s = .next (s.raise .dstOverflow))) ∧
    ((∃ k ∈ u.take n, pal.length ≤ k) → exec .secDec s = .next (s.raise .indexRange))

/-- 43_section.md R245, R242: a payload whose unit width is not the recomputed index width, or whose unit count is not the cell count,
is INCONSISTENT_HEADER. -/
def Obligations.SecDecRejectsMismatchedHeader : Prop :=
  ∀ (s : State) (pal : List Block) (n : Nat) (pay : List Byte) (h : LzHeader) (r : BitReader) (rest : List Bool),
    RegionsLegal s.params .secDec s.lreg →
    bytesToBits (regionBytes s.mem (src0 s.lreg)) =
      natBits 32 pal.length ++ recordsBits pal ++ natBits 32 n ++ natBits 32 pay.length ++ bytesToBits pay ++ rest →
    pal.length ≤ s.params.maxPalette → pal.length < 2147483648 → (∀ b ∈ pal, b.Legal) →
    n ≤ s.params.maxCells → n < 2147483648 → pay.length < 2147483648 →
    (65535 < pal.length → exec .secDec s = .next (s.raise .inconsistentHeader)) ∧
    (lzReadHeader (readerOf pay) pay.length = .ok (h, r) → (h.width ≠ max 1 (b2r pal.length) ∨ h.count ≠ n) →
      exec .secDec s = .next (s.raise .inconsistentHeader))

/-- 43_section.md R249: SEC_DEC on a section that SEC_ENC wrote, whatever bytes follow it, succeeds when its destination is as large as
the grid records were, and gives back a grid equal in value, cell by cell. -/
def Obligations.SectionRoundTrip : Prop :=
  ∀ (s t s' : State) (extra : List Byte), s.params.Valid → exec .secEnc s = .next t → t.status = 0x00000002#32 →
    s'.params = s.params → RegionsLegal s'.params .secDec s'.lreg →
    regionBytes s'.mem (src0 s'.lreg) = memBytes t.mem (dst0 s.lreg).addr t.res0.toNat ++ extra →
    s.lreg.src0Len.toNat ≤ s'.lreg.dst0Cap.toNat →
    ∃ (t' : State) (g g' : List Block) (rest : List Bool),
      exec .secDec s' = .next t' ∧ t'.status = 0x00000002#32 ∧ t'.res0 = s.lreg.arg0 ∧ t'.res3 = t.res0 ∧
      bytesToBits (regionBytes s.mem (src0 s.lreg)) = recordsBits g ++ rest ∧ g.length = s.lreg.arg0.toNat ∧
      bytesToBits (memBytes t'.mem (dst0 s'.lreg).addr t'.res1.toNat) = recordsBits g' ∧ SameGrid g g'

/-- 43_section.md R240 to R245: SEC_DEC with legal regions ends with the error of the first field of its section that does not read: the
palette size, the palette records, the index width, the cell count, the payload's length, the payload, its header, its body. A
section that ends inside a 32-bit field or inside the payload is PREMATURE_END, a negative field NEGATIVE_COUNT, a palette size or
a cell count above its limit CAPACITY. -/
def Obligations.SecDecReportsTheFirstError : Prop :=
  ∀ s : State, RegionsLegal s.params .secDec s.lreg →
    let bits := bytesToBits (regionBytes s.mem (src0 s.lreg))
    let fails := fun c : Cause => exec .secDec s = .next (s.raise c)
    (bits.length < 32 → fails .prematureEnd) ∧
    (∀ v rest, bits = natBits 32 v ++ rest → 2147483648 ≤ v → v < 4294967296 → fails .negativeCount) ∧
    (∀ v rest, bits = natBits 32 v ++ rest → v < 2147483648 → s.params.maxPalette < v → fails .capacity) ∧
    (∀ v rest c, bits = natBits 32 v ++ rest → v < 2147483648 → v ≤ s.params.maxPalette →
      readRecords v ⟨32, rest⟩ = .error c → fails c) ∧
    ∀ (pal : List Block) (rest : List Bool), bits = natBits 32 pal.length ++ recordsBits pal ++ rest →
      pal.length < 2147483648 → pal.length ≤ s.params.maxPalette → (∀ b ∈ pal, b.Legal) →
      (65535 < pal.length → fails .inconsistentHeader) ∧
      (pal.length ≤ 65535 →
        (rest.length < 32 → fails .prematureEnd) ∧
        (∀ n rest', rest = natBits 32 n ++ rest' → 2147483648 ≤ n → n < 4294967296 → fails .negativeCount) ∧
        (∀ n rest', rest = natBits 32 n ++ rest' → n < 2147483648 → s.params.maxCells < n → fails .capacity) ∧
        ∀ n rest', rest = natBits 32 n ++ rest' → n < 2147483648 → n ≤ s.params.maxCells →
          (rest'.length < 32 → fails .prematureEnd) ∧
          (∀ len rest'', rest' = natBits 32 len ++ rest'' → 2147483648 ≤ len → len < 4294967296 → fails .negativeCount) ∧
          (∀ len rest'', rest' = natBits 32 len ++ rest'' → len < 2147483648 → rest''.length < 8 * len →
            fails .prematureEnd) ∧
          ∀ (pay : List Byte) (rest'' : List Bool), rest' = natBits 32 pay.length ++ bytesToBits pay ++ rest'' →
            pay.length < 2147483648 →
            (∀ c, lzReadHeader (readerOf pay) pay.length = .error c → fails c) ∧
            ∀ h r c, lzReadHeader (readerOf pay) pay.length = .ok (h, r) → h.width = max 1 (b2r pal.length) → h.count = n →
              lzDecodeBody Config.copyCount h r = .error c → fails c)
end

