-- ==== Sys2Proof/Laws/State.lean ====
section
/-! SUPPORT. One lemma per field per update of State, each true by rfl, so that no proof unfolds a record update. -/

namespace Sys2Proof.Machine

variable (s : State)

@[simp] theorem start_params (c : Word) : (s.start c).params = s.params := rfl
@[simp] theorem start_phase (c : Word) : (s.start c).phase = .busy := rfl
@[simp] theorem start_lcmd (c : Word) : (s.start c).lcmd = c := rfl
@[simp] theorem start_lreg (c : Word) : (s.start c).lreg = s.rw := rfl
@[simp] theorem start_rw (c : Word) : (s.start c).rw = s.rw := rfl
@[simp] theorem start_status (c : Word) : (s.start c).status = statusBusy := rfl
@[simp] theorem start_errinfo (c : Word) : (s.start c).errinfo = 0#32 := rfl
@[simp] theorem start_res0 (c : Word) : (s.start c).res0 = 0#32 := rfl
@[simp] theorem start_res1 (c : Word) : (s.start c).res1 = 0#32 := rfl
@[simp] theorem start_res2 (c : Word) : (s.start c).res2 = 0#32 := rfl
@[simp] theorem start_res3 (c : Word) : (s.start c).res3 = 0#32 := rfl
@[simp] theorem start_mem (c : Word) : (s.start c).mem = s.mem := rfl
@[simp] theorem start_host (c : Word) : (s.start c).host = s.host := rfl
@[simp] theorem start_schedule (c : Word) : (s.start c).schedule = s.schedule := rfl
@[simp] theorem start_seen (c : Word) : (s.start c).seen = s.seen := rfl
@[simp] theorem start_freeCount (c : Word) : (s.start c).freeCount = s.freeCount := rfl

@[simp] theorem succeed_params (o : Output) : (s.succeed o).params = s.params := rfl
@[simp] theorem succeed_phase (o : Output) : (s.succeed o).phase = .idle := rfl
@[simp] theorem succeed_lcmd (o : Output) : (s.succeed o).lcmd = s.lcmd := rfl
@[simp] theorem succeed_lreg (o : Output) : (s.succeed o).lreg = s.lreg := rfl
@[simp] theorem succeed_rw (o : Output) : (s.succeed o).rw = s.rw := rfl
@[simp] theorem succeed_status (o : Output) : (s.succeed o).status = statusDone := rfl
@[simp] theorem succeed_errinfo (o : Output) : (s.succeed o).errinfo = 0#32 := rfl
@[simp] theorem succeed_res0 (o : Output) : (s.succeed o).res0 = BitVec.ofNat 32 o.res0 := rfl
@[simp] theorem succeed_res1 (o : Output) : (s.succeed o).res1 = BitVec.ofNat 32 o.res1 := rfl
@[simp] theorem succeed_res2 (o : Output) : (s.succeed o).res2 = BitVec.ofNat 32 o.res2 := rfl
@[simp] theorem succeed_res3 (o : Output) : (s.succeed o).res3 = BitVec.ofNat 32 o.res3 := rfl
@[simp] theorem succeed_mem (o : Output) : (s.succeed o).mem = memWriteBytes (memWriteBytes s.mem s.lreg.dst0Addr.toNat o.out0) s.lreg.dst1Addr.toNat o.out1 := rfl
@[simp] theorem succeed_host (o : Output) : (s.succeed o).host = s.host := rfl
@[simp] theorem succeed_schedule (o : Output) : (s.succeed o).schedule = s.schedule := rfl
@[simp] theorem succeed_seen (o : Output) : (s.succeed o).seen = s.seen := rfl
@[simp] theorem succeed_freeCount (o : Output) : (s.succeed o).freeCount = s.freeCount := rfl

@[simp] theorem raise_params (c : Cause) : (s.raise c).params = s.params := rfl
@[simp] theorem raise_phase (c : Cause) : (s.raise c).phase = .idle := rfl
@[simp] theorem raise_lcmd (c : Cause) : (s.raise c).lcmd = s.lcmd := rfl
@[simp] theorem raise_lreg (c : Cause) : (s.raise c).lreg = s.lreg := rfl
@[simp] theorem raise_rw (c : Cause) : (s.raise c).rw = s.rw := rfl
@[simp] theorem raise_status (c : Cause) : (s.raise c).status = statusErr := rfl
@[simp] theorem raise_errinfo (c : Cause) : (s.raise c).errinfo = errinfoWord c s.lcmd := rfl
@[simp] theorem raise_res0 (c : Cause) : (s.raise c).res0 = 0#32 := rfl
@[simp] theorem raise_res1 (c : Cause) : (s.raise c).res1 = 0#32 := rfl
@[simp] theorem raise_res2 (c : Cause) : (s.raise c).res2 = 0#32 := rfl
@[simp] theorem raise_res3 (c : Cause) : (s.raise c).res3 = 0#32 := rfl
@[simp] theorem raise_mem (c : Cause) : (s.raise c).mem = s.mem := rfl
@[simp] theorem raise_host (c : Cause) : (s.raise c).host = s.host := rfl
@[simp] theorem raise_schedule (c : Cause) : (s.raise c).schedule = s.schedule := rfl
@[simp] theorem raise_seen (c : Cause) : (s.raise c).seen = s.seen := rfl
@[simp] theorem raise_freeCount (c : Cause) : (s.raise c).freeCount = s.freeCount := rfl

@[simp] theorem afterReset_params : (s.afterReset).params = s.params := rfl
@[simp] theorem afterReset_phase : (s.afterReset).phase = .idle := rfl
@[simp] theorem afterReset_lcmd : (s.afterReset).lcmd = 0#32 := rfl
@[simp] theorem afterReset_lreg : (s.afterReset).lreg = RwRegs.zero := rfl
@[simp] theorem afterReset_rw : (s.afterReset).rw = RwRegs.zero := rfl
@[simp] theorem afterReset_status : (s.afterReset).status = statusIdle := rfl
@[simp] theorem afterReset_errinfo : (s.afterReset).errinfo = 0#32 := rfl
@[simp] theorem afterReset_res0 : (s.afterReset).res0 = 0#32 := rfl
@[simp] theorem afterReset_res1 : (s.afterReset).res1 = 0#32 := rfl
@[simp] theorem afterReset_res2 : (s.afterReset).res2 = 0#32 := rfl
@[simp] theorem afterReset_res3 : (s.afterReset).res3 = 0#32 := rfl
@[simp] theorem afterReset_mem : (s.afterReset).mem = s.mem := rfl
@[simp] theorem afterReset_host : (s.afterReset).host = s.host := rfl
@[simp] theorem afterReset_schedule : (s.afterReset).schedule = s.schedule := rfl
@[simp] theorem afterReset_seen : (s.afterReset).seen = s.seen := rfl
@[simp] theorem afterReset_freeCount : (s.afterReset).freeCount = s.freeCount := rfl

@[simp] theorem saw_params (x : Seen) : (s.saw x).params = s.params := rfl
@[simp] theorem saw_phase (x : Seen) : (s.saw x).phase = s.phase := rfl
@[simp] theorem saw_lcmd (x : Seen) : (s.saw x).lcmd = s.lcmd := rfl
@[simp] theorem saw_lreg (x : Seen) : (s.saw x).lreg = s.lreg := rfl
@[simp] theorem saw_rw (x : Seen) : (s.saw x).rw = s.rw := rfl
@[simp] theorem saw_status (x : Seen) : (s.saw x).status = s.status := rfl
@[simp] theorem saw_errinfo (x : Seen) : (s.saw x).errinfo = s.errinfo := rfl
@[simp] theorem saw_res0 (x : Seen) : (s.saw x).res0 = s.res0 := rfl
@[simp] theorem saw_res1 (x : Seen) : (s.saw x).res1 = s.res1 := rfl
@[simp] theorem saw_res2 (x : Seen) : (s.saw x).res2 = s.res2 := rfl
@[simp] theorem saw_res3 (x : Seen) : (s.saw x).res3 = s.res3 := rfl
@[simp] theorem saw_mem (x : Seen) : (s.saw x).mem = s.mem := rfl
@[simp] theorem saw_host (x : Seen) : (s.saw x).host = s.host := rfl
@[simp] theorem saw_schedule (x : Seen) : (s.saw x).schedule = s.schedule := rfl
@[simp] theorem saw_seen (x : Seen) : (s.saw x).seen = s.seen ++ [x] := rfl
@[simp] theorem saw_freeCount (x : Seen) : (s.saw x).freeCount = s.freeCount := rfl

@[simp] theorem sawFree_params (a : Nat) : (s.sawFree a).params = s.params := rfl
@[simp] theorem sawFree_phase (a : Nat) : (s.sawFree a).phase = s.phase := rfl
@[simp] theorem sawFree_lcmd (a : Nat) : (s.sawFree a).lcmd = s.lcmd := rfl
@[simp] theorem sawFree_lreg (a : Nat) : (s.sawFree a).lreg = s.lreg := rfl
@[simp] theorem sawFree_rw (a : Nat) : (s.sawFree a).rw = s.rw := rfl
@[simp] theorem sawFree_status (a : Nat) : (s.sawFree a).status = s.status := rfl
@[simp] theorem sawFree_errinfo (a : Nat) : (s.sawFree a).errinfo = s.errinfo := rfl
@[simp] theorem sawFree_res0 (a : Nat) : (s.sawFree a).res0 = s.res0 := rfl
@[simp] theorem sawFree_res1 (a : Nat) : (s.sawFree a).res1 = s.res1 := rfl
@[simp] theorem sawFree_res2 (a : Nat) : (s.sawFree a).res2 = s.res2 := rfl
@[simp] theorem sawFree_res3 (a : Nat) : (s.sawFree a).res3 = s.res3 := rfl
@[simp] theorem sawFree_mem (a : Nat) : (s.sawFree a).mem = s.mem := rfl
@[simp] theorem sawFree_host (a : Nat) : (s.sawFree a).host = s.host := rfl
@[simp] theorem sawFree_schedule (a : Nat) : (s.sawFree a).schedule = s.schedule := rfl
@[simp] theorem sawFree_seen (a : Nat) : (s.sawFree a).seen = s.seen ++ [Seen.mem a (Config.freeRead s.freeCount)] := rfl
@[simp] theorem sawFree_freeCount (a : Nat) : (s.sawFree a).freeCount = s.freeCount + 1 := rfl

@[simp] theorem storeByte_params (a : Nat) (b : Byte) : (s.storeByte a b).params = s.params := rfl
@[simp] theorem storeByte_phase (a : Nat) (b : Byte) : (s.storeByte a b).phase = s.phase := rfl
@[simp] theorem storeByte_lcmd (a : Nat) (b : Byte) : (s.storeByte a b).lcmd = s.lcmd := rfl
@[simp] theorem storeByte_lreg (a : Nat) (b : Byte) : (s.storeByte a b).lreg = s.lreg := rfl
@[simp] theorem storeByte_rw (a : Nat) (b : Byte) : (s.storeByte a b).rw = s.rw := rfl
@[simp] theorem storeByte_status (a : Nat) (b : Byte) : (s.storeByte a b).status = s.status := rfl
@[simp] theorem storeByte_errinfo (a : Nat) (b : Byte) : (s.storeByte a b).errinfo = s.errinfo := rfl
@[simp] theorem storeByte_res0 (a : Nat) (b : Byte) : (s.storeByte a b).res0 = s.res0 := rfl
@[simp] theorem storeByte_res1 (a : Nat) (b : Byte) : (s.storeByte a b).res1 = s.res1 := rfl
@[simp] theorem storeByte_res2 (a : Nat) (b : Byte) : (s.storeByte a b).res2 = s.res2 := rfl
@[simp] theorem storeByte_res3 (a : Nat) (b : Byte) : (s.storeByte a b).res3 = s.res3 := rfl
@[simp] theorem storeByte_mem (a : Nat) (b : Byte) : (s.storeByte a b).mem = memWrite s.mem a b := rfl
@[simp] theorem storeByte_host (a : Nat) (b : Byte) : (s.storeByte a b).host = s.host := rfl
@[simp] theorem storeByte_schedule (a : Nat) (b : Byte) : (s.storeByte a b).schedule = s.schedule := rfl
@[simp] theorem storeByte_seen (a : Nat) (b : Byte) : (s.storeByte a b).seen = s.seen := rfl
@[simp] theorem storeByte_freeCount (a : Nat) (b : Byte) : (s.storeByte a b).freeCount = s.freeCount := rfl

@[simp] theorem withRw_params (r : RwRegs) : (s.withRw r).params = s.params := rfl
@[simp] theorem withRw_phase (r : RwRegs) : (s.withRw r).phase = s.phase := rfl
@[simp] theorem withRw_lcmd (r : RwRegs) : (s.withRw r).lcmd = s.lcmd := rfl
@[simp] theorem withRw_lreg (r : RwRegs) : (s.withRw r).lreg = s.lreg := rfl
@[simp] theorem withRw_rw (r : RwRegs) : (s.withRw r).rw = r := rfl
@[simp] theorem withRw_status (r : RwRegs) : (s.withRw r).status = s.status := rfl
@[simp] theorem withRw_errinfo (r : RwRegs) : (s.withRw r).errinfo = s.errinfo := rfl
@[simp] theorem withRw_res0 (r : RwRegs) : (s.withRw r).res0 = s.res0 := rfl
@[simp] theorem withRw_res1 (r : RwRegs) : (s.withRw r).res1 = s.res1 := rfl
@[simp] theorem withRw_res2 (r : RwRegs) : (s.withRw r).res2 = s.res2 := rfl
@[simp] theorem withRw_res3 (r : RwRegs) : (s.withRw r).res3 = s.res3 := rfl
@[simp] theorem withRw_mem (r : RwRegs) : (s.withRw r).mem = s.mem := rfl
@[simp] theorem withRw_host (r : RwRegs) : (s.withRw r).host = s.host := rfl
@[simp] theorem withRw_schedule (r : RwRegs) : (s.withRw r).schedule = s.schedule := rfl
@[simp] theorem withRw_seen (r : RwRegs) : (s.withRw r).seen = s.seen := rfl
@[simp] theorem withRw_freeCount (r : RwRegs) : (s.withRw r).freeCount = s.freeCount := rfl

@[simp] theorem withHost_params (ops : List HostOp) : (s.withHost ops).params = s.params := rfl
@[simp] theorem withHost_phase (ops : List HostOp) : (s.withHost ops).phase = s.phase := rfl
@[simp] theorem withHost_lcmd (ops : List HostOp) : (s.withHost ops).lcmd = s.lcmd := rfl
@[simp] theorem withHost_lreg (ops : List HostOp) : (s.withHost ops).lreg = s.lreg := rfl
@[simp] theorem withHost_rw (ops : List HostOp) : (s.withHost ops).rw = s.rw := rfl
@[simp] theorem withHost_status (ops : List HostOp) : (s.withHost ops).status = s.status := rfl
@[simp] theorem withHost_errinfo (ops : List HostOp) : (s.withHost ops).errinfo = s.errinfo := rfl
@[simp] theorem withHost_res0 (ops : List HostOp) : (s.withHost ops).res0 = s.res0 := rfl
@[simp] theorem withHost_res1 (ops : List HostOp) : (s.withHost ops).res1 = s.res1 := rfl
@[simp] theorem withHost_res2 (ops : List HostOp) : (s.withHost ops).res2 = s.res2 := rfl
@[simp] theorem withHost_res3 (ops : List HostOp) : (s.withHost ops).res3 = s.res3 := rfl
@[simp] theorem withHost_mem (ops : List HostOp) : (s.withHost ops).mem = s.mem := rfl
@[simp] theorem withHost_host (ops : List HostOp) : (s.withHost ops).host = ops := rfl
@[simp] theorem withHost_schedule (ops : List HostOp) : (s.withHost ops).schedule = s.schedule := rfl
@[simp] theorem withHost_seen (ops : List HostOp) : (s.withHost ops).seen = s.seen := rfl
@[simp] theorem withHost_freeCount (ops : List HostOp) : (s.withHost ops).freeCount = s.freeCount := rfl

@[simp] theorem withSchedule_params (bs : List Bool) : (s.withSchedule bs).params = s.params := rfl
@[simp] theorem withSchedule_phase (bs : List Bool) : (s.withSchedule bs).phase = s.phase := rfl
@[simp] theorem withSchedule_lcmd (bs : List Bool) : (s.withSchedule bs).lcmd = s.lcmd := rfl
@[simp] theorem withSchedule_lreg (bs : List Bool) : (s.withSchedule bs).lreg = s.lreg := rfl
@[simp] theorem withSchedule_rw (bs : List Bool) : (s.withSchedule bs).rw = s.rw := rfl
@[simp] theorem withSchedule_status (bs : List Bool) : (s.withSchedule bs).status = s.status := rfl
@[simp] theorem withSchedule_errinfo (bs : List Bool) : (s.withSchedule bs).errinfo = s.errinfo := rfl
@[simp] theorem withSchedule_res0 (bs : List Bool) : (s.withSchedule bs).res0 = s.res0 := rfl
@[simp] theorem withSchedule_res1 (bs : List Bool) : (s.withSchedule bs).res1 = s.res1 := rfl
@[simp] theorem withSchedule_res2 (bs : List Bool) : (s.withSchedule bs).res2 = s.res2 := rfl
@[simp] theorem withSchedule_res3 (bs : List Bool) : (s.withSchedule bs).res3 = s.res3 := rfl
@[simp] theorem withSchedule_mem (bs : List Bool) : (s.withSchedule bs).mem = s.mem := rfl
@[simp] theorem withSchedule_host (bs : List Bool) : (s.withSchedule bs).host = s.host := rfl
@[simp] theorem withSchedule_schedule (bs : List Bool) : (s.withSchedule bs).schedule = bs := rfl
@[simp] theorem withSchedule_seen (bs : List Bool) : (s.withSchedule bs).seen = s.seen := rfl
@[simp] theorem withSchedule_freeCount (bs : List Bool) : (s.withSchedule bs).freeCount = s.freeCount := rfl

@[simp] theorem complete_ok (o : Output) : s.complete (.ok o) = s.succeed o := rfl
@[simp] theorem complete_error (c : Cause) : s.complete (.error c) = s.raise c := rfl

end Sys2Proof.Machine
end

