-- ==== Sys2Proof/Laws/Memory.lean ====
section
/-! SUPPORT. The laws of the buffer memory: what a read sees after a write, and that every write keeps the canonical form. -/

namespace Sys2Proof.Machine

theorem memFind_memWrite (m : Memory) (a : Nat) (b : Byte) (x : Nat) :
    memFind (memWrite m a b) x = if x = a then some b else memFind m x := by
  have hc : ∀ k v (m : Memory), memFind ((k, v) :: m) x = if k = x then some v else memFind m x := fun _ _ _ => rfl
  induction m with
  | nil =>
    rw [memWrite, hc]
    by_cases h : x = a
    · rw [if_pos h, if_pos h.symm]
    · rw [if_neg h, if_neg (Ne.symm h)]
  | cons c m ih =>
    obtain ⟨k, v⟩ := c
    rw [memWrite]
    by_cases hx : x = a
    · subst hx
      by_cases h1 : x < k
      · simp [h1, hc]
      · by_cases h2 : x = k
        · subst h2; simp [hc]
        · rw [if_neg h1, if_neg h2, hc, if_neg (Ne.symm h2), ih]; simp
    · rw [if_neg hx] at ih ⊢
      by_cases h1 : a < k
      · rw [if_pos h1, hc, if_neg (Ne.symm hx)]
      · by_cases h2 : a = k
        · subst h2
          rw [if_neg h1, if_pos rfl, hc, hc, if_neg (Ne.symm hx), if_neg (Ne.symm hx)]
        · rw [if_neg h1, if_neg h2, hc, hc, ih]

theorem memRead_memWrite (m : Memory) (a : Nat) (b : Byte) (x : Nat) :
    memRead (memWrite m a b) x = if x = a then b else memRead m x := by
  rw [memRead, memFind_memWrite]
  by_cases h : x = a
  · rw [if_pos h, if_pos h]
  · rw [if_neg h, if_neg h]; rfl

@[simp] theorem memRead_memWrite_same (m : Memory) (a : Nat) (b : Byte) : memRead (memWrite m a b) a = b := by
  simp [memRead_memWrite]

theorem memRead_memWrite_other (m : Memory) {a x : Nat} (b : Byte) (h : x ≠ a) :
    memRead (memWrite m a b) x = memRead m x := by
  simp [memRead_memWrite, h]

/-- What a read sees after a byte string was written: the string inside it, the old bytes outside. -/
theorem memRead_memWriteBytes (m : Memory) (a : Nat) (bs : List Byte) (x : Nat) :
    memRead (memWriteBytes m a bs) x = if a ≤ x then (bs[x - a]?).getD (memRead m x) else memRead m x := by
  induction bs generalizing m a with
  | nil => simp [memWriteBytes]
  | cons b bs ih =>
    simp only [memWriteBytes, ih, memRead_memWrite]
    by_cases h1 : a ≤ x
    · by_cases h2 : x = a
      · subst h2; simp
      · have h3 : a + 1 ≤ x := by omega
        have h4 : x - a = (x - (a + 1)) + 1 := by omega
        simp [h1, h3, h2, h4]
    · simp [h1, show ¬ a + 1 ≤ x by omega, show x ≠ a by omega]

theorem memRead_memWriteBytes_outside (m : Memory) (a : Nat) (bs : List Byte) (x : Nat)
    (h : ¬ (a ≤ x ∧ x < a + bs.length)) : memRead (memWriteBytes m a bs) x = memRead m x := by
  rw [memRead_memWriteBytes]
  split
  · rw [List.getElem?_eq_none (by omega)]; rfl
  · rfl

theorem memRead_memWriteBytes_inside (m : Memory) (a : Nat) (bs : List Byte) (k : Nat) (h : k < bs.length) :
    memRead (memWriteBytes m a bs) (a + k) = bs[k] := by
  rw [memRead_memWriteBytes]; simp [h]

@[simp] theorem memBytes_length (m : Memory) (a n : Nat) : (memBytes m a n).length = n := by
  induction n generalizing a with
  | zero => rfl
  | succ n ih => simp [memBytes, ih]

theorem memBytes_getElem? (m : Memory) (a n k : Nat) (h : k < n) : (memBytes m a n)[k]? = some (memRead m (a + k)) := by
  induction n generalizing a k with
  | zero => omega
  | succ n ih =>
    cases k with
    | zero => simp [memBytes]
    | succ k => simp [memBytes, ih (a + 1) k (by omega), Nat.add_assoc, Nat.add_comm 1]

/-- Memories that agree on a range read the same bytes there. -/
theorem memBytes_congr {m m' : Memory} {a n : Nat} (h : ∀ x, a ≤ x → x < a + n → memRead m x = memRead m' x) :
    memBytes m a n = memBytes m' a n := by
  induction n generalizing a with
  | zero => rfl
  | succ n ih =>
    simp only [memBytes]
    rw [h a (by omega) (by omega), ih (fun x h1 h2 => h x (by omega) (by omega))]

/-- A byte string reads back where it was written. -/
theorem memBytes_memWriteBytes (m : Memory) (a : Nat) (bs : List Byte) :
    memBytes (memWriteBytes m a bs) a bs.length = bs := by
  apply List.ext_getElem?
  intro k
  by_cases h : k < bs.length
  · rw [memBytes_getElem? _ _ _ _ h, memRead_memWriteBytes_inside _ _ _ _ h, List.getElem?_eq_getElem h]
  · rw [List.getElem?_eq_none (by simp; omega), List.getElem?_eq_none (by omega)]

theorem memSorted_cons (c : Host.Cell) (m : Memory) :
    memSorted (c :: m) = true ↔ (∀ d ∈ m, c.1 < d.1) ∧ memSorted m = true := by
  induction m generalizing c with
  | nil => simp [memSorted]
  | cons d m ih =>
    obtain ⟨a, b⟩ := c
    obtain ⟨a', b'⟩ := d
    rw [memSorted, Bool.and_eq_true, decide_eq_true_eq]
    constructor
    · rintro ⟨h1, h2⟩
      refine ⟨?_, h2⟩
      intro d hd
      rcases List.mem_cons.mp hd with rfl | hd
      · exact h1
      · exact Nat.lt_trans h1 (((ih _).mp h2).1 d hd)
    · rintro ⟨h1, h2⟩
      exact ⟨h1 (a', b') (by simp), h2⟩

theorem mem_memWrite {m : Memory} {a : Nat} {b : Byte} {c : Host.Cell} (h : c ∈ memWrite m a b) :
    c = (a, b) ∨ c ∈ m := by
  induction m with
  | nil => simpa [memWrite] using h
  | cons d m ih =>
    simp only [memWrite] at h
    split at h
    · simpa using h
    · split at h
      · rcases List.mem_cons.mp h with h | h
        · exact .inl h
        · exact .inr (List.mem_cons_of_mem _ h)
      · rcases List.mem_cons.mp h with h | h
        · exact .inr (by simp [h])
        · rcases ih h with h | h
          · exact .inl h
          · exact .inr (List.mem_cons_of_mem _ h)

theorem memSorted_memWrite {m : Memory} (a : Nat) (b : Byte) (h : memSorted m = true) :
    memSorted (memWrite m a b) = true := by
  induction m with
  | nil => rfl
  | cons d m ih =>
    obtain ⟨k, v⟩ := d
    obtain ⟨h1, h2⟩ := (memSorted_cons _ _).mp h
    simp only [memWrite]
    split
    · rename_i hlt
      refine (memSorted_cons _ _).mpr ⟨?_, h⟩
      intro c hc
      rcases List.mem_cons.mp hc with rfl | hc
      · exact hlt
      · exact Nat.lt_trans hlt (h1 c hc)
    · split
      · rename_i heq; subst heq; exact (memSorted_cons _ _).mpr ⟨h1, h2⟩
      · refine (memSorted_cons _ _).mpr ⟨?_, ih h2⟩
        intro c hc
        rcases mem_memWrite hc with rfl | hc
        · simp only; omega
        · exact h1 c hc

/-- A write below the memory's size keeps its form. -/
theorem memWrite_wf {size : Nat} {m : Memory} {a : Nat} (b : Byte) (h : Memory.wf size m = true) (ha : a < size) :
    Memory.wf size (memWrite m a b) = true := by
  simp only [Memory.wf, Bool.and_eq_true, List.all_eq_true, decide_eq_true_eq] at h ⊢
  refine ⟨memSorted_memWrite a b h.1, fun c hc => ?_⟩
  rcases mem_memWrite hc with rfl | hc
  · exact ha
  · exact h.2 c hc

/-- A byte string written below the memory's size keeps its form. -/
theorem memWriteBytes_wf {size : Nat} {m : Memory} {a : Nat} {bs : List Byte} (h : Memory.wf size m = true)
    (ha : a + bs.length ≤ size) : Memory.wf size (memWriteBytes m a bs) = true := by
  induction bs generalizing m a with
  | nil => exact h
  | cons b bs ih =>
    simp only [List.length_cons] at ha
    exact ih (memWrite_wf b h (by omega)) (by omega)

theorem reset_mem_wf : Memory.wf State.reset.params.memSize State.reset.mem = true := rfl

/-- The bytes of `v` have the value `v`. -/
theorem bytesOf_length (n v : Nat) : (bytesOf n v).length = n := by
  induction n with
  | zero => rfl
  | succ n ih => simp [bytesOf, ih]

end Sys2Proof.Machine
end

