-- ==== Sys2Proof/Laws/Bits.lean ====
section
/-! SUPPORT. The laws of the bit streams: reading gives back what was written, and writing gives back what was read. -/

namespace Sys2Proof.Machine

@[simp] theorem natBits_length (m v : Nat) : (natBits m v).length = m := by
  induction m with
  | zero => rfl
  | succ m ih => simp [natBits, ih]

theorem testBit_toNat_mod (v m : Nat) : (v.testBit m).toNat * 2 ^ m + v % 2 ^ m = v % 2 ^ (m + 1) := by
  have h1 : v % 2 ^ (m + 1) = v % 2 ^ m + 2 ^ m * (v / 2 ^ m % 2) := by rw [Nat.pow_succ, Nat.mod_mul]
  have h2 : (v.testBit m).toNat = v / 2 ^ m % 2 := by rw [Nat.testBit_eq_decide_div_mod_eq]; rcases Nat.mod_two_eq_zero_or_one (v / 2 ^ m) with h | h <;> simp [h]
  rw [h1, h2, Nat.mul_comm]; omega

/-- Reading a field that was written: its value below the accumulated bits, and the rest of the stream. -/
theorem takeBits_natBits (m acc v : Nat) (rest : List Bool) :
    takeBits m acc (natBits m v ++ rest) = some (acc * 2 ^ m + v % 2 ^ m, rest) := by
  induction m generalizing acc with
  | zero => simp [natBits, takeBits, Nat.mod_one]
  | succ m ih =>
    have h := testBit_toNat_mod v m
    rw [natBits, List.cons_append, takeBits, ih, ← h]
    congr 2
    rw [Nat.pow_succ, Nat.add_mul]
    ring

theorem takeBits_eq_some {m acc v : Nat} {bits rest : List Bool} (h : takeBits m acc bits = some (v, rest)) :
    ∃ w, w < 2 ^ m ∧ v = acc * 2 ^ m + w ∧ bits = natBits m w ++ rest := by
  induction m generalizing acc bits with
  | zero =>
    simp only [takeBits, Option.some.injEq, Prod.mk.injEq] at h
    exact ⟨0, by simp, by simp [h.1], by simp [natBits, h.2]⟩
  | succ m ih =>
    cases bits with
    | nil => simp [takeBits] at h
    | cons b bits =>
      rw [takeBits] at h
      obtain ⟨w, hw, hv, hb⟩ := ih h
      have hlt : b.toNat * 2 ^ m + w < 2 ^ (m + 1) := by
        rw [Nat.pow_succ]; cases b <;> simp <;> omega
      refine ⟨b.toNat * 2 ^ m + w, hlt, ?_, ?_⟩
      · rw [hv, Nat.pow_succ]; ring
      · have hbit : (b.toNat * 2 ^ m + w).testBit m = b := by
          cases b
          · simpa using Nat.testBit_lt_two_pow hw
          · have := Nat.testBit_two_pow_add_eq w m
            simp [Nat.testBit_lt_two_pow hw] at this
            simpa using this
        have hrest : ∀ k, k ≤ m → natBits k (b.toNat * 2 ^ m + w) = natBits k w := by
          intro k hk
          induction k with
          | zero => rfl
          | succ k ihk =>
            rw [natBits, natBits, ihk (by omega)]
            congr 1
            cases b
            · simp
            · simpa using Nat.testBit_two_pow_add_gt (show k < m by omega) w
        rw [natBits, hbit, hrest m (Nat.le_refl m), List.cons_append, ← hb]

theorem takeBits_eq_none {m acc : Nat} {bits : List Bool} : takeBits m acc bits = none ↔ bits.length < m := by
  induction m generalizing acc bits with
  | zero => simp [takeBits]
  | succ m ih =>
    cases bits with
    | nil => simp [takeBits]
    | cons b bits => rw [takeBits, ih]; simp

/-- `get` after `put` (20_memory.md R65, R66). -/
theorem getBits_natBits (pos m v : Nat) (rest : List Bool) (h : v < 2 ^ m) :
    getBits ⟨pos, natBits m v ++ rest⟩ m = .ok (v, ⟨pos + m, rest⟩) := by
  simp [getBits, takeBits_natBits, Nat.mod_eq_of_lt h]

/-- What `get` can do: it fails exactly when fewer than `m` bits are left, and otherwise takes the field that stands there. -/
theorem getBits_eq_ok {r r' : BitReader} {m v : Nat} (h : getBits r m = .ok (v, r')) :
    v < 2 ^ m ∧ r.rest = natBits m v ++ r'.rest ∧ r'.pos = r.pos + m := by
  rw [getBits] at h
  split at h
  · rename_i v' rest heq
    obtain ⟨w, hw, hv, hb⟩ := takeBits_eq_some heq
    simp only [Except.ok.injEq, Prod.mk.injEq] at h
    obtain ⟨rfl, rfl⟩ := h
    have hvw : v' = w := by omega
    subst hvw
    exact ⟨hw, hb, rfl⟩
  · exact absurd h (by simp)

theorem getBits_eq_error {r : BitReader} {m : Nat} {c : Cause} :
    getBits r m = .error c ↔ r.rest.length < m ∧ c = .prematureEnd := by
  rw [getBits]
  split
  · rename_i v rest heq
    have : ¬ r.rest.length < m := fun hlt => by rw [takeBits_eq_none.mpr hlt] at heq; cases heq
    simp [this]
  · rename_i heq
    have := takeBits_eq_none.mp heq
    simp [this, eq_comm]

/-- A 32-bit count reads back (20_memory.md R68). -/
theorem getCount_natBits (pos v : Nat) (rest : List Bool) (h : v < 2147483648) :
    getCount ⟨pos, natBits 32 v ++ rest⟩ = .ok (v, ⟨pos + 32, rest⟩) := by
  simp [getCount, getBits_natBits pos 32 v rest (by omega), h, bind, Except.bind]

/-- A stream that ends inside a 32-bit count (20_memory.md R65). -/
theorem getCount_short {r : BitReader} (h : r.rest.length < 32) : getCount r = .error .prematureEnd := by
  rw [getCount, getBits_eq_error.mpr ⟨h, rfl⟩]
  rfl

theorem getCount_eq_ok {r r' : BitReader} {v : Nat} (h : getCount r = .ok (v, r')) :
    v < 2147483648 ∧ r.rest = natBits 32 v ++ r'.rest ∧ r'.pos = r.pos + 32 := by
  rw [getCount] at h
  cases hg : getBits r 32 with
  | error c => rw [hg] at h; simp [bind, Except.bind] at h
  | ok p =>
    obtain ⟨v', r''⟩ := p
    rw [hg] at h
    simp only [bind, Except.bind] at h
    split at h
    · rename_i hlt
      simp only [Except.ok.injEq, Prod.mk.injEq] at h
      obtain ⟨rfl, rfl⟩ := h
      exact ⟨hlt, (getBits_eq_ok hg).2⟩
    · cases h

@[simp] theorem byteBits_length (b : Byte) : (byteBits b).length = 8 := rfl

@[simp] theorem bytesToBits_length (bs : List Byte) : (bytesToBits bs).length = 8 * bs.length := by
  induction bs with
  | nil => rfl
  | cons b bs ih => simp [bytesToBits, ih]; omega

theorem bytesToBits_append (as bs : List Byte) : bytesToBits (as ++ bs) = bytesToBits as ++ bytesToBits bs := by
  induction as with
  | nil => rfl
  | cons a as ih => simp [bytesToBits, ih]

theorem byteBits_ofNat (v : Nat) : byteBits (BitVec.ofNat 8 v) = natBits 8 v := by
  simp only [byteBits, natBits, BitVec.getLsbD_ofNat]; rfl

theorem bitsValue_byteBits (b : Byte) : BitVec.ofNat 8 (bitsValue 0 (byteBits b)) = b := by
  revert b; decide

/-- Cutting the bits of a byte string gives the byte string back. -/
@[simp] theorem cutBytes_bytesToBits (bs : List Byte) : cutBytes (bytesToBits bs) = bs := by
  induction bs with
  | nil => rfl
  | cons b bs ih =>
    have h := bitsValue_byteBits b
    simp only [bytesToBits, byteBits, List.cons_append, List.nil_append, cutBytes, ih]
    rw [byteBits] at h
    rw [h]

theorem byteBits_cut (b7 b6 b5 b4 b3 b2 b1 b0 : Bool) :
    byteBits (BitVec.ofNat 8 (bitsValue 0 [b7, b6, b5, b4, b3, b2, b1, b0])) = [b7, b6, b5, b4, b3, b2, b1, b0] := by
  revert b7 b6 b5 b4 b3 b2 b1 b0; decide

/-- A whole number of bytes survives cutting. -/
theorem bytesToBits_cutBytes (bits : List Bool) (h : bits.length % 8 = 0) : bytesToBits (cutBytes bits) = bits := by
  induction bits using cutBytes.induct with
  | case1 b7 b6 b5 b4 b3 b2 b1 b0 rest ih =>
    simp only [List.length_cons] at h
    rw [cutBytes, bytesToBits, byteBits_cut, ih (by omega)]
    rfl
  | case2 bits hne =>
    match bits, h, hne with
    | [], _, _ => rfl
    | b7 :: b6 :: b5 :: b4 :: b3 :: b2 :: b1 :: b0 :: rest, _, hne => exact absurd rfl (hne b7 b6 b5 b4 b3 b2 b1 b0 rest)
    | [_], h, _ | [_, _], h, _ | [_, _, _], h, _ | [_, _, _, _], h, _ | [_, _, _, _, _], h, _
    | [_, _, _, _, _, _], h, _ | [_, _, _, _, _, _, _], h, _ => simp at h

theorem alignBits_length (bits : List Bool) : (alignBits bits).length = 8 * ((bits.length + 7) / 8) := by
  simp only [alignBits, List.length_append, List.length_replicate]; omega

/-- The bits of `bytes(w)`: what was written, then zero bits to the byte boundary (20_memory.md R67). -/
theorem bytesToBits_bitsToBytes (bits : List Bool) : bytesToBits (bitsToBytes bits) = alignBits bits :=
  bytesToBits_cutBytes _ (by rw [alignBits_length]; omega)

/-- `|bytes(w)| = ceil(|w.bits| / 8)` (20_memory.md R67). -/
theorem bitsToBytes_length (bits : List Bool) : (bitsToBytes bits).length = (bits.length + 7) / 8 := by
  have h := congrArg List.length (bytesToBits_bitsToBytes bits)
  rw [bytesToBits_length, alignBits_length] at h
  omega

/-- A whole number of bytes needs no padding. -/
theorem bitsToBytes_bytesToBits (bs : List Byte) : bitsToBytes (bytesToBits bs) = bs := by
  simp [bitsToBytes, alignBits]

theorem unitBits_append (w : Nat) (u v : List Nat) : unitBits w (u ++ v) = unitBits w u ++ unitBits w v := by
  induction u with
  | nil => rfl
  | cons x u ih => simp [unitBits, ih]

@[simp] theorem unitBits_length (w : Nat) (u : List Nat) : (unitBits w u).length = u.length * w := by
  induction u with
  | nil => simp [unitBits]
  | cons x u ih => simp [unitBits, ih, Nat.add_mul]; omega

/-- Fields that were written read back. -/
theorem getMany_unitBits (w pos : Nat) (u : List Nat) (rest : List Bool) (h : ∀ x ∈ u, x < 2 ^ w) :
    getMany w u.length ⟨pos, unitBits w u ++ rest⟩ = .ok (u, ⟨pos + u.length * w, rest⟩) := by
  induction u generalizing pos with
  | nil => simp [getMany, unitBits]
  | cons x u ih =>
    have hx : x < 2 ^ w := h x (by simp)
    have hu := ih (pos + w) (fun y hy => h y (by simp [hy]))
    simp only [unitBits, List.append_assoc, List.length_cons, getMany, getBits_natBits _ _ _ _ hx, bind, Except.bind, hu]
    congr 3
    ring

theorem getMany_eq_ok {w n : Nat} {r r' : BitReader} {u : List Nat} (h : getMany w n r = .ok (u, r')) :
    u.length = n ∧ (∀ x ∈ u, x < 2 ^ w) ∧ r.rest = unitBits w u ++ r'.rest ∧ r'.pos = r.pos + n * w := by
  induction n generalizing r u with
  | zero =>
    simp only [getMany, Except.ok.injEq, Prod.mk.injEq] at h
    obtain ⟨rfl, rfl⟩ := h
    simp [unitBits]
  | succ n ih =>
    rw [getMany] at h
    cases hg : getBits r w with
    | error c => rw [hg] at h; simp [bind, Except.bind] at h
    | ok p =>
      obtain ⟨v, r1⟩ := p
      rw [hg] at h
      simp only [bind, Except.bind] at h
      cases hm : getMany w n r1 with
      | error c => rw [hm] at h; cases h
      | ok q =>
        obtain ⟨vs, r2⟩ := q
        rw [hm] at h
        simp only [Except.ok.injEq, Prod.mk.injEq] at h
        obtain ⟨rfl, rfl⟩ := h
        obtain ⟨h1, h2, h3⟩ := getBits_eq_ok hg
        obtain ⟨k1, k2, k3, k4⟩ := ih hm
        refine ⟨by simp [k1], ?_, ?_, ?_⟩
        · intro x hx
          rcases List.mem_cons.mp hx with rfl | hx
          · exact h1
          · exact k2 x hx
        · rw [h2, k3, unitBits, List.append_assoc]
        · rw [k4, h3]; ring

end Sys2Proof.Machine
end

