-- ==== Sys2Proof/Laws/Completed.lean ====
section
/-! SUPPORT. What a successful completion leaves, in the terms of `Completed`, and one step of a run. -/

open Sys2Proof Sys2Proof.Machine

namespace Sys2Proof.Machine

/-- A stored byte string: the bytes inside it are its own, every other byte is as before. -/
theorem memRead_memWriteBytes_storedByte (m : Memory) (a : Nat) (out : List Byte) (x : Nat) :
    memRead (memWriteBytes m a out) x = storedByte m a out x := by
  rw [storedByte]
  split
  · rename_i h
    obtain ⟨k, rfl⟩ : ∃ k, x = a + k := ⟨x - a, by omega⟩
    rw [memRead_memWriteBytes_inside _ _ _ k (by omega)]
    simp [List.getD, List.getElem?_eq_getElem (show k < out.length by omega)]
  · rw [memRead_memWriteBytes_outside _ _ _ _ (by assumption)]

/-- A successful completion whose results fit 32 bits and whose two outputs share no byte is `Completed`. -/
theorem succeed_completed (s : State) (o : Output) (h0 : o.res0 < 2 ^ 32) (h1 : o.res1 < 2 ^ 32) (h2 : o.res2 < 2 ^ 32)
    (h3 : o.res3 < 2 ^ 32)
    (hd : ∀ a, ¬ (((dst0 s.lreg).addr ≤ a ∧ a < (dst0 s.lreg).addr + o.out0.length) ∧
      ((dst1 s.lreg).addr ≤ a ∧ a < (dst1 s.lreg).addr + o.out1.length))) :
    Completed s (s.succeed o) o.out0 o.out1 o.res0 o.res1 o.res2 o.res3 := by
  refine ⟨rfl, ⟨by simp; omega, by simp; omega, by simp; omega, by simp; omega⟩, fun a => ?_⟩
  simp only [succeed_mem]
  rw [show s.lreg.dst0Addr.toNat = (dst0 s.lreg).addr from rfl, show s.lreg.dst1Addr.toNat = (dst1 s.lreg).addr from rfl,
    memRead_memWriteBytes_storedByte]
  have := hd a
  split
  · rename_i h
    rw [storedByte, if_neg (by tauto), memRead_memWriteBytes_storedByte]
  · rename_i h
    rw [storedByte, storedByte]
    split
    · rfl
    · rw [memRead_memWriteBytes_storedByte, storedByte, if_neg h]

/-- The same for a command with one output. -/
theorem complete_ok_completed (s : State) (out0 : List Byte) (r0 r1 r2 r3 : Nat) (h0 : r0 < 2 ^ 32) (h1 : r1 < 2 ^ 32)
    (h2 : r2 < 2 ^ 32) (h3 : r3 < 2 ^ 32) :
    Completed s (s.complete (.ok { out0 := out0, out1 := [], res0 := r0, res1 := r1, res2 := r2, res3 := r3 }))
      out0 [] r0 r1 r2 r3 :=
  succeed_completed s { out0 := out0, out1 := [], res0 := r0, res1 := r1, res2 := r2, res3 := r3 } h0 h1 h2 h3
    (by intro a; simp only [List.length_nil]; omega)

/-- A run of `k + 1` steps whose first step answers `u` is a run of `k` steps from `u`. -/
theorem core_run_next (k : Nat) (s u : core.State) (h : core.step s = .next u) :
    core.run (k + 1) s = core.run k u := by
  rw [Host.Core.run, h]

end Sys2Proof.Machine
end

