-- ==== Sys2Proof/Laws/Completion.lean ====
section
/-! SUPPORT. What a completion can do: each command's meaning is one completion of the state on the result of its command function,
and what every such completion leaves unchanged. -/

namespace Sys2Proof.Machine

variable (s : State)

theorem exec_bitw : exec .bitw s = .next (s.complete (cmdBitw s.params s.lreg)) := rfl
theorem exec_palEnc : exec .palEnc s = .next (s.complete (cmdPalEnc s.params s.lreg s.mem)) := rfl
theorem exec_palDec : exec .palDec s = .next (s.complete (cmdPalDec s.params s.lreg s.mem)) := rfl
theorem exec_lzComp : exec .lzComp s = .next (s.complete (cmdLzComp s.params s.lreg s.mem)) := rfl
theorem exec_lzDecomp : exec .lzDecomp s = .next (s.complete (cmdLzDecomp s.params s.lreg s.mem)) := rfl
theorem exec_secEnc : exec .secEnc s = .next (s.complete (cmdSecEnc s.params s.lreg s.mem)) := rfl
theorem exec_secDec : exec .secDec s = .next (s.complete (cmdSecDec s.params s.lreg s.mem)) := rfl

variable {s} in
/-- Every command answers the completion of the state on some result. -/
theorem exec_next {i : Instr} {t : State} (h : exec i s = .next t) : ∃ res, t = s.complete res := by
  cases i <;> exact ⟨_, (Host.Outcome.next.inj h).symm⟩

section
variable (res : Except Cause Output)

@[simp] theorem complete_params : (s.complete res).params = s.params := by cases res <;> rfl
@[simp] theorem complete_phase : (s.complete res).phase = .idle := by cases res <;> rfl
@[simp] theorem complete_lcmd : (s.complete res).lcmd = s.lcmd := by cases res <;> rfl
@[simp] theorem complete_lreg : (s.complete res).lreg = s.lreg := by cases res <;> rfl
@[simp] theorem complete_rw : (s.complete res).rw = s.rw := by cases res <;> rfl
@[simp] theorem complete_host : (s.complete res).host = s.host := by cases res <;> rfl
@[simp] theorem complete_schedule : (s.complete res).schedule = s.schedule := by cases res <;> rfl
@[simp] theorem complete_seen : (s.complete res).seen = s.seen := by cases res <;> rfl
@[simp] theorem complete_freeCount : (s.complete res).freeCount = s.freeCount := by cases res <;> rfl

end

/-- A command word is its two fields (30_encoding.md R90). -/
theorem word_fields (w : Word) : w = rsvdField w ++ opcodeField w := by
  refine BitVec.eq_of_getLsbD_eq (fun k hk => ?_)
  refine Eq.trans ?_ (BitVec.getLsbD_append (x := rsvdField w) (y := opcodeField w)).symm
  simp only [rsvdField, opcodeField, BitVec.getLsbD_extractLsb']
  by_cases h : k < 8
  · simp [h]
  · simp [h, show 8 + (k - 8) = k by omega, show k - 8 < 24 by omega]

theorem checkBounds_eq_ok {p : Params} {rs : List Region} :
    checkBounds p rs = .ok () ↔ ∀ r ∈ rs, inBounds p r = true := by
  induction rs with
  | nil => simp [checkBounds]
  | cons r rs ih =>
    rw [checkBounds]
    split
    · rename_i h; simp [ih, h]
    · rename_i h; simp [h]

theorem checkBounds_eq_error {p : Params} {rs : List Region} {c : Cause} :
    checkBounds p rs = .error c ↔ c = .badAddress ∧ ∃ r ∈ rs, inBounds p r = false := by
  induction rs with
  | nil => simp [checkBounds]
  | cons r rs ih =>
    rw [checkBounds]
    split
    · rename_i h; simp [ih, h]
    · rename_i h
      simp only [Except.error.injEq, List.mem_cons, exists_eq_or_imp]
      exact ⟨fun hc => ⟨hc.symm, .inl (by simpa using h)⟩, fun hc => hc.1.symm⟩

theorem checkOverlap_eq_ok {a b : List Region} : checkOverlap a b = .ok () ↔ regionsOverlap a b = false := by
  rw [checkOverlap]; split <;> simp_all

/-- What the checks before a command reads a byte can say: they pass exactly when the operands and the regions do. -/
theorem checkCommand_eq_ok {p : Params} {i : Instr} {r : RwRegs} :
    checkCommand p i r = .ok () ↔ checkOperands p i r = .ok () ∧ RegionsLegal p i r := by
  rw [checkCommand]
  cases h1 : checkOperands p i r with
  | error c => simp [bind, Except.bind]
  | ok u =>
    simp only [bind, Except.bind, RegionsLegal, ← checkBounds_eq_ok, ← checkOverlap_eq_ok]
    cases h2 : checkBounds p (sourceRegions i r ++ destRegions i r) with
    | error c => simp
    | ok u => simp

theorem checkCommand_eq_error {p : Params} {i : Instr} {r : RwRegs} {c : Cause} (h : checkCommand p i r = .error c) :
    checkOperands p i r = .error c ∨ c = .badAddress ∨ c = .regionOverlap := by
  rw [checkCommand] at h
  cases h1 : checkOperands p i r with
  | error c' => rw [h1] at h; exact .inl h
  | ok u =>
    rw [h1] at h
    simp only [bind, Except.bind] at h
    cases h2 : checkBounds p (sourceRegions i r ++ destRegions i r) with
    | error c' =>
      rw [h2] at h
      simp only [Except.error.injEq] at h
      exact .inr (.inl (h ▸ (checkBounds_eq_error.mp h2).1))
    | ok u =>
      rw [h2, checkOverlap] at h
      simp only at h
      split at h
      · simp only [Except.error.injEq] at h; exact .inr (.inr h.symm)
      · cases h

@[simp] theorem checkCapacity_eq_ok {d : Region} {m : Nat} : checkCapacity d m = .ok () ↔ m ≤ d.len := by
  rw [checkCapacity]; split <;> simp <;> omega

@[simp] theorem checkCapacity_eq_error {d : Region} {m : Nat} {c : Cause} :
    checkCapacity d m = .error c ↔ d.len < m ∧ c = .dstOverflow := by
  rw [checkCapacity]; split <;> simp_all [eq_comm]

@[simp] theorem checkLimit_eq_ok {k n : Nat} : checkLimit k n = .ok () ↔ n ≤ k := by
  rw [checkLimit]; split <;> simp <;> omega

@[simp] theorem checkLimit_eq_error {k n : Nat} {c : Cause} : checkLimit k n = .error c ↔ k < n ∧ c = .capacity := by
  rw [checkLimit]; split <;> simp_all [eq_comm]

@[simp] theorem checkRange_eq_ok {c : Cause} {lo hi n : Nat} : checkRange c lo hi n = .ok () ↔ lo ≤ n ∧ n ≤ hi := by
  rw [checkRange]; split <;> simp_all

@[simp] theorem checkRange_eq_error {c c' : Cause} {lo hi n : Nat} :
    checkRange c lo hi n = .error c' ↔ ¬ (lo ≤ n ∧ n ≤ hi) ∧ c' = c := by
  rw [checkRange]; split <;> simp_all [eq_comm]

@[simp] theorem failIf_eq_ok {c : Cause} {b : Bool} : failIf c b = .ok () ↔ b = false := by
  cases b <;> simp [failIf]

@[simp] theorem failIf_eq_error {c c' : Cause} {b : Bool} : failIf c b = .error c' ↔ b = true ∧ c' = c := by
  cases b <;> simp [failIf, eq_comm]

/-- What a chain of checks and readings can do: it succeeds only through the success of its first part. -/
theorem bind_eq_ok {α β : Type} {x : Except Cause α} {f : α → Except Cause β} {b : β} :
    (x >>= f) = .ok b ↔ ∃ a, x = .ok a ∧ f a = .ok b := by
  cases x <;> simp [bind, Except.bind]

/-- It fails with the failure of its first part, or of what follows it. -/
theorem bind_eq_error {α β : Type} {x : Except Cause α} {f : α → Except Cause β} {c : Cause} :
    (x >>= f) = .error c ↔ x = .error c ∨ ∃ a, x = .ok a ∧ f a = .error c := by
  cases x <;> simp [bind, Except.bind]

@[simp] theorem bind_ok {α β : Type} (a : α) (f : α → Except Cause β) : ((.ok a : Except Cause α) >>= f) = f a := rfl

@[simp] theorem bind_error {α β : Type} (c : Cause) (f : α → Except Cause β) :
    ((.error c : Except Cause α) >>= f) = .error c := rfl

/-- What the outputs of every command satisfy: the checks passed, each output fits its destination, and there is an output only for a
destination the command uses. -/
def Output.Fits (i : Instr) (p : Params) (r : RwRegs) (o : Output) : Prop :=
  checkCommand p i r = .ok () ∧ (o.out0 = [] ∨ (dst0 r ∈ destRegions i r ∧ o.out0.length ≤ (dst0 r).len)) ∧
  (o.out1 = [] ∨ (dst1 r ∈ destRegions i r ∧ o.out1.length ≤ (dst1 r).len))

theorem palLoop_length {limit : Nat} {pal g pal' : List Block} {idx : List Nat} (h : palLoop limit pal g = .ok (pal', idx)) :
    idx.length = g.length := by
  induction g generalizing pal pal' idx with
  | nil => simp only [palLoop, Except.ok.injEq, Prod.mk.injEq] at h; simp [← h.2]
  | cons b g ih =>
    rw [palLoop] at h
    split at h
    · obtain ⟨⟨p, ix⟩, h1, h2⟩ := bind_eq_ok.mp h
      simp only [Except.ok.injEq, Prod.mk.injEq] at h2
      simp [← h2.2, ih h1]
    · split at h
      · cases h
      · obtain ⟨⟨p, ix⟩, h1, h2⟩ := bind_eq_ok.mp h
        simp only [Except.ok.injEq, Prod.mk.injEq] at h2
        simp [← h2.2, ih h1]

theorem readRecords_length {n : Nat} {r r' : BitReader} {g : List Block} (h : readRecords n r = .ok (g, r')) :
    g.length = n := by
  induction n generalizing r r' g with
  | zero => simp only [readRecords, Except.ok.injEq, Prod.mk.injEq] at h; simp [← h.1]
  | succ n ih =>
    rw [readRecords] at h
    obtain ⟨⟨b, r1⟩, _, h2⟩ := bind_eq_ok.mp h
    obtain ⟨⟨bs, r2⟩, h3, h4⟩ := bind_eq_ok.mp h2
    simp only [Except.ok.injEq, Prod.mk.injEq] at h4
    simp [← h4.1, ih h3]

theorem pack_length (u : List Nat) (w : Nat) : (pack u w).length = (u.length * w + 7) / 8 := by
  rw [pack, bitsToBytes_length, unitBits_length]

theorem cmdBitw_fits {p : Params} {r : RwRegs} {o : Output} (h : cmdBitw p r = .ok o) : o.Fits .bitw p r := by
  obtain ⟨u, h1, h2⟩ := bind_eq_ok.mp h
  simp only [Except.ok.injEq] at h2
  subst h2
  exact ⟨h1, .inl rfl, .inl rfl⟩

theorem cmdPalEnc_fits {p : Params} {r : RwRegs} {m : Memory} {o : Output} (h : cmdPalEnc p r m = .ok o) :
    o.Fits .palEnc p r := by
  rw [cmdPalEnc] at h
  obtain ⟨u, h1, h⟩ := bind_eq_ok.mp h
  obtain ⟨⟨g, r1⟩, h2, h⟩ := bind_eq_ok.mp h
  obtain ⟨⟨pal, idx⟩, h3, h⟩ := bind_eq_ok.mp h
  obtain ⟨u1, h4, h⟩ := bind_eq_ok.mp h
  obtain ⟨u2, h5, h⟩ := bind_eq_ok.mp h
  simp only [Except.ok.injEq] at h
  subst h
  have hl : (pack idx 32).length = 4 * r.arg0.toNat := by
    rw [pack_length, palLoop_length h3, readRecords_length h2]; omega
  exact ⟨h1, .inr ⟨by simp [destRegions], checkCapacity_eq_ok.mp h4⟩,
    .inr ⟨by simp [destRegions], by rw [hl]; exact checkCapacity_eq_ok.mp h5⟩⟩

theorem cmdPalDec_fits {p : Params} {r : RwRegs} {m : Memory} {o : Output} (h : cmdPalDec p r m = .ok o) :
    o.Fits .palDec p r := by
  rw [cmdPalDec] at h
  obtain ⟨u, h1, h⟩ := bind_eq_ok.mp h
  obtain ⟨⟨pal, r1⟩, h2, h⟩ := bind_eq_ok.mp h
  obtain ⟨out, h3, h⟩ := bind_eq_ok.mp h
  obtain ⟨u1, h4, h⟩ := bind_eq_ok.mp h
  simp only [Except.ok.injEq] at h
  subst h
  exact ⟨h1, .inr ⟨by simp [destRegions], checkCapacity_eq_ok.mp h4⟩, .inl rfl⟩

theorem cmdLzComp_fits {p : Params} {r : RwRegs} {m : Memory} {o : Output} (h : cmdLzComp p r m = .ok o) :
    o.Fits .lzComp p r := by
  rw [cmdLzComp] at h
  obtain ⟨u, h1, h⟩ := bind_eq_ok.mp h
  obtain ⟨us, h2, h⟩ := bind_eq_ok.mp h
  obtain ⟨u1, h4, h⟩ := bind_eq_ok.mp h
  simp only [Except.ok.injEq] at h
  subst h
  exact ⟨h1, .inr ⟨by simp [destRegions], checkCapacity_eq_ok.mp h4⟩, .inl rfl⟩

theorem cmdLzDecomp_fits {p : Params} {r : RwRegs} {m : Memory} {o : Output} (h : cmdLzDecomp p r m = .ok o) :
    o.Fits .lzDecomp p r := by
  rw [cmdLzDecomp] at h
  obtain ⟨u, h1, h⟩ := bind_eq_ok.mp h
  obtain ⟨⟨hd, rd⟩, h2, h⟩ := bind_eq_ok.mp h
  obtain ⟨us, h3, h⟩ := bind_eq_ok.mp h
  obtain ⟨u1, h4, h⟩ := bind_eq_ok.mp h
  simp only [Except.ok.injEq] at h
  subst h
  exact ⟨h1, .inr ⟨by simp [destRegions], checkCapacity_eq_ok.mp h4⟩, .inl rfl⟩

theorem cmdSecEnc_fits {p : Params} {r : RwRegs} {m : Memory} {o : Output} (h : cmdSecEnc p r m = .ok o) :
    o.Fits .secEnc p r := by
  rw [cmdSecEnc] at h
  obtain ⟨u, h1, h⟩ := bind_eq_ok.mp h
  obtain ⟨⟨g, r1⟩, h2, h⟩ := bind_eq_ok.mp h
  obtain ⟨⟨pal, idx⟩, h3, h⟩ := bind_eq_ok.mp h
  obtain ⟨u1, h4, h⟩ := bind_eq_ok.mp h
  simp only [Except.ok.injEq] at h
  subst h
  exact ⟨h1, .inr ⟨by simp [destRegions], checkCapacity_eq_ok.mp h4⟩, .inl rfl⟩

theorem cmdSecDec_fits {p : Params} {r : RwRegs} {m : Memory} {o : Output} (h : cmdSecDec p r m = .ok o) :
    o.Fits .secDec p r := by
  rw [cmdSecDec] at h
  obtain ⟨u, h1, h⟩ := bind_eq_ok.mp h
  obtain ⟨⟨np, n, out, consumed⟩, h2, h⟩ := bind_eq_ok.mp h
  obtain ⟨u1, h4, h⟩ := bind_eq_ok.mp h
  simp only [Except.ok.injEq] at h
  subst h
  exact ⟨h1, .inr ⟨by simp [destRegions], checkCapacity_eq_ok.mp h4⟩, .inl rfl⟩

/-- What a command can do, in one lemma: it is the completion on a result, and a successful result fits its destinations. -/
theorem exec_next_fits {i : Instr} {t : State} (h : exec i s = .next t) :
    (∃ o : Output, t = s.succeed o ∧ o.Fits i s.params s.lreg) ∨ ∃ c, t = s.raise c := by
  have key : ∀ res : Except Cause Output, (∀ o, res = .ok o → o.Fits i s.params s.lreg) → t = s.complete res →
      (∃ o : Output, t = s.succeed o ∧ o.Fits i s.params s.lreg) ∨ ∃ c, t = s.raise c := by
    intro res hres ht
    cases res with
    | ok o => exact .inl ⟨o, ht, hres o rfl⟩
    | error c => exact .inr ⟨c, ht⟩
  cases i with
  | bitw => exact key _ (fun _ => cmdBitw_fits) (Host.Outcome.next.inj h).symm
  | palEnc => exact key _ (fun _ => cmdPalEnc_fits) (Host.Outcome.next.inj h).symm
  | palDec => exact key _ (fun _ => cmdPalDec_fits) (Host.Outcome.next.inj h).symm
  | lzComp => exact key _ (fun _ => cmdLzComp_fits) (Host.Outcome.next.inj h).symm
  | lzDecomp => exact key _ (fun _ => cmdLzDecomp_fits) (Host.Outcome.next.inj h).symm
  | secEnc => exact key _ (fun _ => cmdSecEnc_fits) (Host.Outcome.next.inj h).symm
  | secDec => exact key _ (fun _ => cmdSecDec_fits) (Host.Outcome.next.inj h).symm

end Sys2Proof.Machine
end

