-- ==== Sys2Proof/Laws/Host.lean ====
section
/-! SUPPORT. What a host event and a step can do, each said once. -/

namespace Sys2Proof.Machine

/-- What a host register write can do: nothing, a new RW register, or a command start while `STATUS.BUSY = 0`. -/
theorem regWrite_cases (s : State) (off : BitVec 8) (v : Word) :
    regWrite s off v = s ∨ (∃ r, regAt off = some (.rw r) ∧ regWrite s off v = s.withRw (rwSet s.rw r v)) ∨
    (busyFlag s.status = false ∧ regAt off = some .cmd ∧ regWrite s off v = s.start v) := by
  rw [regWrite]
  cases regAt off with
  | none => exact .inl rfl
  | some n =>
    cases n with
    | rw r => exact .inr (.inl ⟨r, rfl, rfl⟩)
    | cmd =>
      simp only [writeNamed, writeCmd]
      by_cases h : busyFlag s.status = true
      · rw [if_pos h]; exact .inl rfl
      · rw [if_neg h]; exact .inr (.inr ⟨by simpa using h, trivial, rfl⟩)
    | _ => exact .inl rfl

/-- What a host event can do when it answers a next state. -/
theorem hostStep_next {op : HostOp} {ops : List HostOp} {s t : State} (h : hostStep op ops s = .next t) :
    (∃ off v, t = regWrite (s.withHost ops) off v) ∨ (∃ ops' x, t = (s.withHost ops').saw x) ∨
    (∃ a b, a < s.params.memSize ∧ t = (s.withHost ops).storeByte a b) ∨ (∃ a, t = (s.withHost ops).sawFree a) ∨
    t = (s.withHost ops).afterReset := by
  cases op with
  | regWrite bits off v =>
    simp only [hostStep, hostRegWrite] at h
    split at h <;> simp_all
    exact .inl ⟨off, v, h.symm⟩
  | regRead bits off =>
    simp only [hostStep, hostRegRead] at h
    split at h <;> simp_all
    exact .inr (.inl ⟨ops, _, h.symm⟩)
  | memWrite a b =>
    simp only [hostStep, hostMemWrite] at h
    split at h
    · rename_i ha
      split at h
      · cases h
      · exact .inr (.inr (.inl ⟨a, b, of_decide_eq_true ha, (Host.Outcome.next.inj h).symm⟩))
    · cases h
  | memRead a =>
    simp only [hostStep, hostMemRead] at h
    split at h
    · split at h
      · exact .inr (.inr (.inr (.inl ⟨a, (Host.Outcome.next.inj h).symm⟩)))
      · exact .inr (.inl ⟨ops, _, (Host.Outcome.next.inj h).symm⟩)
    · cases h
  | poll =>
    have h := (Host.Outcome.next.inj h).symm
    rw [hostPoll] at h
    split at h
    · exact .inr (.inl ⟨_, _, h⟩)
    · exact .inr (.inl ⟨_, _, h⟩)
  | reset => exact .inr (.inr (.inr (.inr (Host.Outcome.next.inj h).symm)))

/-- What a completion can do: run the decoded command, or end in ILLEGAL_COMMAND. -/
theorem completion_eq (s : State) :
    (∃ i, decode s.lcmd = .ok i ∧ completion s = exec i s) ∨ completion s = .next (s.raise .illegalCommand) := by
  rw [completion]
  cases decode s.lcmd with
  | ok i => exact .inl ⟨i, rfl, rfl⟩
  | error e => exact .inr rfl

/-- What a step can do: nothing, while idle with nothing to come from the host; the host's next event, with the schedule's turn taken
from it while busy; or the completion, while busy. -/
theorem step_cases (s : State) :
    (s.phase = .idle ∧ s.host = [] ∧ step s = .next s) ∨
    (∃ op ops, s.phase = .idle ∧ s.host = op :: ops ∧ step s = hostStep op ops s) ∨
    (∃ op ops bs, s.phase = .busy ∧ s.host = op :: ops ∧ s.schedule = false :: bs ∧
      step s = hostStep op ops (s.withSchedule bs)) ∨
    (∃ bs, s.phase = .busy ∧ step s = completion (s.withSchedule bs)) := by
  obtain ⟨pa, ph, lc, lr, rw, st, er, r0, r1, r2, r3, m, ho, sc, se, fc⟩ := s
  rcases ph with _ | _ <;> rcases ho with _ | ⟨op, ops⟩
  · exact .inl ⟨rfl, rfl, rfl⟩
  · exact .inr (.inl ⟨op, ops, rfl, rfl, rfl⟩)
  · exact .inr (.inr (.inr ⟨sc, rfl, rfl⟩))
  · rcases sc with _ | ⟨b, bs⟩
    · exact .inr (.inr (.inr ⟨[], rfl, rfl⟩))
    · cases b
      · exact .inr (.inr (.inl ⟨op, ops, bs, rfl, rfl, rfl, rfl⟩))
      · exact .inr (.inr (.inr ⟨bs, rfl, rfl⟩))

/-- Only offset 0 names `ID`. -/
theorem regAt_id : ∀ off, regAt off = some .id → off = 0#8 := by decide

/-- `ERRINFO` of an error is not 0. -/
theorem errinfoWord_ne (c : Cause) (w : Word) : errinfoWord c w ≠ 0#32 := by
  rw [errinfoWord]
  generalize opcodeField w = x
  cases c <;> revert x <;> decide

/-- Bits [31:24] of `ERRINFO` are 0. -/
theorem errinfoWord_high (c : Cause) (w : Word) : (errinfoWord c w).extractLsb' 24 8 = 0#8 := by
  rw [errinfoWord]
  generalize opcodeField w = x
  cases c <;> revert x <;> decide

end Sys2Proof.Machine
end

