-- ==== Sys2Proof/Laws/Records.lean ====
section
/-! SUPPORT. What reading strings and properties can do, and that what was written reads back. -/

namespace Sys2Proof.Machine

/-- Reading code units: how many there are, and the bits they were read from. -/
theorem readUnits_eq_ok {n : Nat} {r r' : BitReader} {u : List CodeUnit} (h : readUnits n r = .ok (u, r')) :
    u.length = n ∧ r.rest = unitBits 16 (u.map BitVec.toNat) ++ r'.rest ∧ r'.pos = r.pos + n * 16 := by
  induction n generalizing r u with
  | zero =>
    simp only [readUnits, Except.ok.injEq, Prod.mk.injEq] at h
    obtain ⟨rfl, rfl⟩ := h
    simp [unitBits]
  | succ n ih =>
    rw [readUnits] at h
    obtain ⟨⟨v, r1⟩, h1, h⟩ := bind_eq_ok.mp h
    obtain ⟨⟨vs, r2⟩, h2, h⟩ := bind_eq_ok.mp h
    simp only [Except.ok.injEq, Prod.mk.injEq] at h
    obtain ⟨rfl, rfl⟩ := h
    obtain ⟨k1, k2, k3⟩ := getBits_eq_ok h1
    obtain ⟨j1, j2, j3⟩ := ih h2
    refine ⟨by simp [j1], ?_, by omega⟩
    simp only [List.map_cons, unitBits, BitVec.toNat_ofNat, Nat.mod_eq_of_lt k1, List.append_assoc]
    rw [k2, j2]

/-- Code units that were written read back. -/
theorem readUnits_unitBits (pos : Nat) (u : List CodeUnit) (rest : List Bool) :
    readUnits u.length ⟨pos, unitBits 16 (u.map BitVec.toNat) ++ rest⟩ = .ok (u, ⟨pos + u.length * 16, rest⟩) := by
  induction u generalizing pos with
  | nil => simp [readUnits, unitBits]
  | cons x u ih =>
    simp only [List.map_cons, unitBits, List.append_assoc, List.length_cons, readUnits, getBits_natBits _ 16 _ _ x.isLt, bind_ok,
      ih, BitVec.ofNat_toNat, BitVec.setWidth_eq]
    congr 3
    ring

@[simp] theorem stringBits_length (u : List CodeUnit) : (stringBits u).length = 32 + 16 * u.length := by
  simp [stringBits]; ring

/-- Reading a sized string: the bits it was read from, and the bound on its length. -/
theorem readString_eq_ok {r r' : BitReader} {u : List CodeUnit} (h : readString r = .ok (u, r')) :
    u.length < 2147483648 ∧ r.rest = stringBits u ++ r'.rest ∧ r'.pos = r.pos + (stringBits u).length := by
  rw [readString] at h
  obtain ⟨⟨n, r1⟩, h1, h⟩ := bind_eq_ok.mp h
  obtain ⟨k1, k2, k3⟩ := getCount_eq_ok h1
  obtain ⟨j1, j2, j3⟩ := readUnits_eq_ok h
  subst j1
  refine ⟨k1, ?_, by rw [j3, k3, stringBits_length]; ring⟩
  rw [k2, j2, stringBits, List.append_assoc]

/-- A sized string that was written reads back. -/
theorem readString_stringBits (pos : Nat) (u : List CodeUnit) (rest : List Bool) (h : u.length < 2147483648) :
    readString ⟨pos, stringBits u ++ rest⟩ = .ok (u, ⟨pos + (stringBits u).length, rest⟩) := by
  rw [readString, stringBits_length, stringBits, List.append_assoc, getCount_natBits _ _ _ h, bind_ok]
  dsimp only
  rw [readUnits_unitBits]
  congr 3
  ring

/-- The duplicate test of `readRecord` is membership among the keys. -/
theorem any_key (ps : List (List CodeUnit × List CodeUnit)) (k : List CodeUnit) :
    ps.any (fun kv => kv.1 == k) = decide (k ∈ ps.map Prod.fst) := by
  rw [Bool.eq_iff_iff]; simp

/-- Reading properties: which were read, the bits they were read from, and that distinct keys stay distinct. -/
theorem readProps_eq_ok {n : Nat} {ps ps' : List (List CodeUnit × List CodeUnit)} {r r' : BitReader}
    (h : readProps n ps r = .ok (ps', r')) :
    ∃ q, ps' = ps ++ q ∧ q.length = n ∧ r.rest = propsBits q ++ r'.rest ∧ r'.pos = r.pos + (propsBits q).length ∧
    (∀ kv ∈ q, kv.1.length < 2147483648 ∧ kv.2.length < 2147483648) ∧ ((ps.map Prod.fst).Nodup → (ps'.map Prod.fst).Nodup) := by
  induction n generalizing r ps with
  | zero => simp [readProps] at h; obtain ⟨rfl, rfl⟩ := h; exact ⟨[], by simp [propsBits]⟩
  | succ n ih =>
    rw [readProps] at h
    obtain ⟨⟨k, r1⟩, h1, h⟩ := bind_eq_ok.mp h
    obtain ⟨⟨v, r2⟩, h2, h⟩ := bind_eq_ok.mp h
    dsimp only at h
    rw [any_key] at h
    split at h
    · cases h
    rename_i hn
    obtain ⟨q, e1, e2, e3, e4, e5, e6⟩ := ih h
    obtain ⟨a1, a2, a3⟩ := readString_eq_ok h1
    obtain ⟨b1, b2, b3⟩ := readString_eq_ok h2
    refine ⟨(k,v) :: q, by simp [e1], by simp [e2], ?_, ?_, ?_, ?_⟩
    · simp [propsBits, a2, b2, e3]
    · simp [propsBits, a3, b3, e4]; omega
    · intro kv hkv; rcases List.mem_cons.mp hkv with rfl | hkv
      · exact ⟨a1, b1⟩
      · exact e5 _ hkv
    · intro hnd; apply e6
      rw [decide_eq_true_eq] at hn
      rw [List.map_append, List.nodup_append]
      refine ⟨hnd, by simp, fun a ha b hb => ?_⟩; simp at hb; rintro rfl; exact hn (hb ▸ ha)

/-- Properties that were written read back, or are DUPLICATE_KEY when a key repeats. -/
theorem readProps_bits (q ps : List (List CodeUnit × List CodeUnit)) (pos : Nat) (rest : List Bool)
    (hl : ∀ kv ∈ q, kv.1.length < 2147483648 ∧ kv.2.length < 2147483648)
    (hn : (ps.map Prod.fst).Nodup) :
    readProps q.length ps ⟨pos, propsBits q ++ rest⟩ =
      if ((ps ++ q).map Prod.fst).Nodup then .ok (ps ++ q, ⟨pos + (propsBits q).length, rest⟩)
      else .error .duplicateKey := by
  induction q generalizing ps pos with
  | nil =>
     simp [readProps, propsBits, hn]
  | cons kv q ih =>
    obtain ⟨k, v⟩ := kv
    have h1 := hl (k,v) (by simp)
    simp only [List.length_cons, readProps, propsBits, List.append_assoc]
    rw [readString_stringBits _ _ _ h1.1, bind_ok]; dsimp only
    rw [readString_stringBits _ _ _ h1.2, bind_ok]; dsimp only
    rw [any_key]
    have e : ps ++ (k, v) :: q = ps ++ [(k, v)] ++ q := by simp
    by_cases hk : k ∈ ps.map Prod.fst
    · rw [if_pos (by simpa using hk), if_neg]
      intro h
      rw [List.map_append, List.nodup_append] at h
      exact h.2.2 _ hk k (by simp) rfl
    · rw [if_neg (by simpa using hk), ih _ _ (fun kv h => hl kv (by simp [h])) (by rw [List.map_append, List.nodup_append]; refine ⟨hn, by simp, fun a ha b hb => ?_⟩; simp at hb; rintro rfl; exact hk (hb ▸ ha)), e]
      congr 4; simp only [List.length_append]; omega

/-- `get` fails only with PREMATURE_END. -/
theorem getBits_error_mem {r : BitReader} {m : Nat} {c : Cause} (h : getBits r m = .error c) : c = .prematureEnd :=
  (getBits_eq_error.mp h).2

/-- A count fails only with PREMATURE_END or NEGATIVE_COUNT. -/
theorem getCount_error_mem {r : BitReader} {c : Cause} (h : getCount r = .error c) :
    c = .prematureEnd ∨ c = .negativeCount := by
  rw [getCount] at h
  rcases bind_eq_error.mp h with h | ⟨⟨v, r1⟩, _, h⟩
  · exact .inl (getBits_error_mem h)
  · dsimp only at h
    split at h
    · cases h
    · cases h; exact .inr rfl

/-- Fields fail only with PREMATURE_END. -/
theorem getMany_error_mem {m n : Nat} {r : BitReader} {c : Cause} (h : getMany m n r = .error c) : c = .prematureEnd := by
  induction n generalizing r with
  | zero => cases h
  | succ n ih =>
    rw [getMany] at h
    rcases bind_eq_error.mp h with h | ⟨⟨v, r1⟩, _, h⟩
    · exact getBits_error_mem h
    · rcases bind_eq_error.mp h with h | ⟨⟨v, r1⟩, _, h⟩
      · exact ih h
      · cases h

/-- Code units fail only with PREMATURE_END. -/
theorem readUnits_error_mem {n : Nat} {r : BitReader} {c : Cause} (h : readUnits n r = .error c) : c = .prematureEnd := by
  induction n generalizing r with
  | zero => cases h
  | succ n ih =>
    rw [readUnits] at h
    rcases bind_eq_error.mp h with h | ⟨⟨v, r1⟩, _, h⟩
    · exact getBits_error_mem h
    · rcases bind_eq_error.mp h with h | ⟨⟨v, r1⟩, _, h⟩
      · exact ih h
      · cases h

/-- A string fails only with PREMATURE_END or NEGATIVE_COUNT. -/
theorem readString_error_mem {r : BitReader} {c : Cause} (h : readString r = .error c) :
    c = .prematureEnd ∨ c = .negativeCount := by
  rw [readString] at h
  rcases bind_eq_error.mp h with h | ⟨⟨v, r1⟩, _, h⟩
  · exact getCount_error_mem h
  · exact .inl (readUnits_error_mem h)

/-- The properties of a record fail only with PREMATURE_END, NEGATIVE_COUNT or DUPLICATE_KEY. -/
theorem readProps_error_mem {n : Nat} {props : List (List CodeUnit × List CodeUnit)} {r : BitReader} {c : Cause}
    (h : readProps n props r = .error c) : c = .prematureEnd ∨ c = .negativeCount ∨ c = .duplicateKey := by
  induction n generalizing props r with
  | zero => cases h
  | succ n ih =>
    rw [readProps] at h
    rcases bind_eq_error.mp h with h | ⟨⟨k, r1⟩, _, h⟩
    · have := readString_error_mem h; tauto
    · rcases bind_eq_error.mp h with h | ⟨⟨v, r2⟩, _, h⟩
      · have := readString_error_mem h; tauto
      · dsimp only at h
        split at h
        · cases h; tauto
        · exact ih h

/-- Records fail only with PREMATURE_END, NEGATIVE_COUNT or DUPLICATE_KEY. -/
theorem readRecords_error_mem {n : Nat} {r : BitReader} {c : Cause} (h : readRecords n r = .error c) :
    c = .prematureEnd ∨ c = .negativeCount ∨ c = .duplicateKey := by
  induction n generalizing r with
  | zero => cases h
  | succ n ih =>
    rw [readRecords] at h
    rcases bind_eq_error.mp h with h | ⟨⟨b, r1⟩, _, h⟩
    · rw [readRecord] at h
      rcases bind_eq_error.mp h with h | ⟨⟨u, r2⟩, _, h⟩
      · have := readString_error_mem h; tauto
      · rcases bind_eq_error.mp h with h | ⟨⟨k, r3⟩, _, h⟩
        · have := getCount_error_mem h; tauto
        · rcases bind_eq_error.mp h with h | ⟨⟨ps, r4⟩, _, h⟩
          · exact readProps_error_mem h
          · cases h
    · rcases bind_eq_error.mp h with h | ⟨⟨v, r1⟩, _, h⟩
      · exact ih h
      · cases h

end Sys2Proof.Machine
end

