-- ==== Sys2Proof/Laws/Lzss.lean ====
section
/-! SUPPORT. The causes of the LZSS readers and of the palette functions, and what a decoded match appends. -/

namespace Sys2Proof.Machine

/-- What the copy loop of a match can do: it appends its units one by one, or meets an index past the output. -/
theorem copyMatch_error_mem {base n : Nat} {out : List Nat} {c : Cause} (h : copyMatch base n out = .error c) :
    c = .badOffset := by
  induction n generalizing base out with
  | zero => cases h
  | succ n ih =>
    rw [copyMatch] at h
    split at h
    · cases h; rfl
    · exact ih h

/-- The copy loop appends exactly `n` units. -/
theorem copyMatch_eq_ok {base n : Nat} {out out' : List Nat} (h : copyMatch base n out = .ok out') :
    ∃ u, out' = out ++ u ∧ u.length = n := by
  induction n generalizing base out with
  | zero => cases h; exact ⟨[], by simp⟩
  | succ n ih =>
    rw [copyMatch] at h
    split at h
    · cases h
    · obtain ⟨u, h1, h2⟩ := ih h
      exact ⟨_ :: u, by rw [h1, List.append_assoc]; rfl, by simp [h2]⟩

/-- A match appends `len` units or is BAD_OFFSET. -/
theorem expandMatch_eq_ok {off len : Nat} {out out' : List Nat} (h : expandMatch Config.copyCount off len out = .ok out') :
    off ≤ out.length ∧ ∃ u, out' = out ++ u ∧ u.length = len := by
  rw [expandMatch] at h
  split at h
  · cases h
  · exact ⟨by omega, copyMatch_eq_ok h⟩

theorem expandMatch_error_mem {cc : CopyCount} {off len : Nat} {out : List Nat} {c : Cause}
    (h : expandMatch cc off len out = .error c) : c = .badOffset := by
  rw [expandMatch] at h
  split at h
  · cases h; rfl
  · exact copyMatch_error_mem h

/-- A token fails only with PREMATURE_END or BAD_OFFSET. -/
theorem decodeToken_error_mem {cc : CopyCount} {h : LzHeader} {r : BitReader} {out : List Nat} {c : Cause}
    (he : decodeToken cc h r out = .error c) : c = .prematureEnd ∨ c = .badOffset := by
  rw [decodeToken] at he
  rcases bind_eq_error.mp he with he | ⟨⟨f, r1⟩, _, he⟩
  · exact .inl (getBits_error_mem he)
  · dsimp only at he
    split at he
    · rcases bind_eq_error.mp he with he | ⟨⟨v, r2⟩, _, he⟩
      · exact .inl (getBits_error_mem he)
      · cases he
    · rcases bind_eq_error.mp he with he | ⟨⟨off, r2⟩, _, he⟩
      · exact .inl (getBits_error_mem he)
      · rcases bind_eq_error.mp he with he | ⟨⟨len, r3⟩, _, he⟩
        · exact .inl (getBits_error_mem he)
        · rcases bind_eq_error.mp he with he | ⟨o, _, he⟩
          · exact .inr (expandMatch_error_mem he)
          · cases he

/-- A body fails only with PREMATURE_END or BAD_OFFSET. -/
theorem lzDecodeBody_error_mem {cc : CopyCount} {h : LzHeader} {r : BitReader} {c : Cause}
    (he : lzDecodeBody cc h r = .error c) : c = .prematureEnd ∨ c = .badOffset := by
  have loop : ∀ (fuel : Nat) (r : BitReader) (out : List Nat),
      decodeLoop cc h fuel r out = .error c → c = .prematureEnd ∨ c = .badOffset := by
    intro fuel
    induction fuel with
    | zero =>
      intro r out he
      rw [decodeLoop] at he
      split at he
      · cases he; exact .inl rfl
      · cases he
    | succ fuel ih =>
      intro r out he
      rw [decodeLoop] at he
      split at he
      · rcases bind_eq_error.mp he with he | ⟨⟨o, r1⟩, _, he⟩
        · exact decodeToken_error_mem he
        · exact ih _ _ he
      · cases he
  rw [lzDecodeBody] at he
  rcases bind_eq_error.mp he with he | ⟨o, _, he⟩
  · exact loop _ _ _ he
  · cases he

/-- A header fails only with PREMATURE_END or BAD_LZSS_HEADER. -/
theorem lzReadHeader_error_mem {r : BitReader} {n : Nat} {c : Cause} (h : lzReadHeader r n = .error c) :
    c = .prematureEnd ∨ c = .badLzssHeader := by
  rw [lzReadHeader] at h
  rcases bind_eq_error.mp h with h | ⟨⟨s, r1⟩, _, h⟩
  · exact .inl (getBits_error_mem h)
  rcases bind_eq_error.mp h with h | ⟨⟨l, r2⟩, _, h⟩
  · exact .inl (getBits_error_mem h)
  rcases bind_eq_error.mp h with h | ⟨⟨w, r3⟩, _, h⟩
  · exact .inl (getBits_error_mem h)
  rcases bind_eq_error.mp h with h | ⟨⟨k, r4⟩, _, h⟩
  · exact .inl (getBits_error_mem h)
  dsimp only at h
  split at h
  · cases h; exact .inr rfl
  · split at h <;> cases h

/-- A palette fails only with CAPACITY, and only when it is full. -/
theorem palLoop_error_mem {limit : Nat} {pal g : List Block} {c : Cause} (h : palLoop limit pal g = .error c) :
    c = .capacity ∧ (pal.length ≤ limit → limit < pal.length + g.length) := by
  induction g generalizing pal with
  | nil => cases h
  | cons b g ih =>
    rw [palLoop] at h
    split at h
    · rcases bind_eq_error.mp h with h | ⟨⟨p, ix⟩, _, h⟩
      · have := ih h
        simp only [List.length_cons]
        exact ⟨this.1, fun hl => by have := this.2 hl; omega⟩
      · cases h
    · split at h
      · rename_i hl
        cases h
        exact ⟨rfl, fun _ => by simp only [List.length_cons]; omega⟩
      · rename_i hne
        rcases bind_eq_error.mp h with h | ⟨⟨p, ix⟩, _, h⟩
        · have := ih h
          simp only [List.length_append, List.length_cons, List.length_nil] at this ⊢
          exact ⟨this.1, fun hl => by have := this.2 (by omega); omega⟩
        · cases h

/-- Palette decoding fails only with INDEX_RANGE. -/
theorem paletteDecode_error_mem {pal : List Block} {idx : List Nat} {c : Cause} (h : paletteDecode pal idx = .error c) :
    c = .indexRange := by
  induction idx with
  | nil => cases h
  | cons k idx ih =>
    rw [paletteDecode] at h
    split at h
    · cases h; rfl
    · rcases bind_eq_error.mp h with h | ⟨o, _, h⟩
      · exact ih h
      · cases h

/-- The index loop of `PAL_DEC` fails only with PREMATURE_END or INDEX_RANGE. -/
theorem readIndexed_error_mem {pal : List Block} {n : Nat} {r : BitReader} {c : Cause} (h : readIndexed pal n r = .error c) :
    c = .prematureEnd ∨ c = .indexRange := by
  induction n generalizing r with
  | zero => cases h
  | succ n ih =>
    rw [readIndexed] at h
    rcases bind_eq_error.mp h with h | ⟨⟨k, r1⟩, _, h⟩
    · exact .inl (getBits_error_mem h)
    · dsimp only at h
      split at h
      · cases h; exact .inr rfl
      · rcases bind_eq_error.mp h with h | ⟨o, _, h⟩
        · exact ih h
        · cases h

end Sys2Proof.Machine
end

