-- ==== Sys2Proof/Laws/Palette.lean ====
section
/-! SUPPORT. What block comparison and the palette lookup can do. -/

namespace Sys2Proof.Machine

/-- `blockEq` decides equality of blocks as values. -/
theorem blockEq_iff_sameBlock (a b : Block) : blockEq a b = true ↔ SameBlock a b := by
  simp only [blockEq, SameBlock, Bool.and_eq_true, List.all_eq_true, List.elem_eq_mem, decide_eq_true_eq, beq_iff_eq]
  constructor
  · rintro ⟨⟨h1, h2⟩, h3⟩
    exact ⟨h1, fun kv => ⟨h2 kv, h3 kv⟩⟩
  · rintro ⟨h1, h2⟩
    exact ⟨⟨h1, fun kv => (h2 kv).1⟩, fun kv => (h2 kv).2⟩

/-- The lookup finds an entry equal to the block. -/
theorem palFind_eq_some {pal : List Block} {b : Block} {k : Nat} (h : palFind pal b = some k) :
    ∃ e, pal[k]? = some e ∧ SameBlock e b := by
  induction pal generalizing k with
  | nil => cases h
  | cons e pal ih =>
    rw [palFind] at h
    split at h
    · rename_i he
      cases h
      exact ⟨e, rfl, (blockEq_iff_sameBlock _ _).mp he⟩
    · obtain ⟨j, hj, rfl⟩ := Option.map_eq_some_iff.mp h
      obtain ⟨x, h1, h2⟩ := ih hj
      exact ⟨x, by simpa using h1, h2⟩

/-- The lookup fails exactly when no entry is equal to the block. -/
theorem palFind_eq_none {pal : List Block} {b : Block} : palFind pal b = none ↔ ∀ e ∈ pal, ¬ SameBlock e b := by
  induction pal with
  | nil => simp [palFind]
  | cons e pal ih =>
    rw [palFind, List.forall_mem_cons, ← ih, ← blockEq_iff_sameBlock]
    cases blockEq e b <;> simp

end Sys2Proof.Machine
end

