-- ==== Sys2Proof/Tests/Slice0.lean ====
section
/-! SUPPORT. The model's own tests: WellFormed, decoding, one-step runs of vectors of 95_test_vectors.md, and a witness for the
hypotheses of every obligation that has some. -/

namespace Sys2Proof.Tests

open Sys2Proof Sys2Proof.Machine

/-! ### Helpers -/

/-- Small parameters for the tests. -/
def params : Params := ⟨256, 4096, 4096⟩

/-- A byte string from numbers. -/
def bytes (l : List Nat) : List Byte := l.map (BitVec.ofNat 8)

/-- An idle machine with the RW registers `r` and the memory `m`. -/
def idle (r : RwRegs) (m : Memory) : State := { State.reset with params := params, rw := r, mem := m }

/-- A machine in which the command word `w` was just started, with the operands `r` and the memory `m`. -/
def started (w : Word) (r : RwRegs) (m : Memory) : State := (idle r m).start w

/-- The same for the command `i`. -/
def busy (i : Instr) (r : RwRegs) (m : Memory) : State := started (encode i) r m

/-- `STATUS`, `ERRINFO` and the results after one step. -/
def outcome (s : State) : Option (List Nat) :=
  match step s with
  | .next t => some [t.status.toNat, t.errinfo.toNat, t.res0.toNat, t.res1.toNat, t.res2.toNat, t.res3.toNat]
  | .fault _ => none
  | .refused _ => none

/-- Memory bytes after one step. -/
def bytesAfter (s : State) (a n : Nat) : List Byte :=
  match step s with
  | .next t => memBytes t.mem a n
  | .fault _ => []
  | .refused _ => []

/-- Operands with one source region at 0 and one destination region at 0x40. -/
def operands (srcLen dstCap a0 a1 a2 a3 : Nat) : RwRegs :=
  { RwRegs.zero with
    src0Len := BitVec.ofNat 32 srcLen
    dst0Addr := 0x40#32
    dst0Cap := BitVec.ofNat 32 dstCap
    arg0 := BitVec.ofNat 32 a0
    arg1 := BitVec.ofNat 32 a1
    arg2 := BitVec.ofNat 32 a2
    arg3 := BitVec.ofNat 32 a3 }

/-- The block `a` of 95_test_vectors.md section 2.1. -/
def blockA : Block := ⟨[0x61#16], []⟩

/-- The block `b{k=v}`. -/
def blockB : Block := ⟨[0x62#16], [([0x6B#16], [0x76#16])]⟩

/-- The record of `a`, as the vectors write it. -/
def recA : List Nat := [0, 0, 0, 1, 0, 0x61, 0, 0, 0, 0]

/-- The record of `b{k=v}`, as the vectors write it. -/
def recB : List Nat := [0, 0, 0, 1, 0, 0x62, 0, 0, 0, 1, 0, 0, 0, 1, 0, 0x6B, 0, 0, 0, 1, 0, 0x76]

/-- The record of `d{k=1,k=2}`. -/
def recD : List Nat :=
  [0, 0, 0, 1, 0, 0x64, 0, 0, 0, 2, 0, 0, 0, 1, 0, 0x6B, 0, 0, 0, 1, 0, 0x31, 0, 0, 0, 1, 0, 0x6B, 0, 0, 0, 1, 0, 0x32]

/-- The grid `G = [a, b{k=v}, a, a]`. -/
def recG : List Nat := recA ++ recB ++ recA ++ recA

/-- The payload of LZ-1. -/
def payload1 : List Nat := [0x00, 0x40, 0x02, 0x00, 0x40, 0x04, 0x08, 0x87, 0x70]

/-- The section of SEC-1. -/
def section1 : List Nat :=
  [0, 0, 0, 2] ++ recA ++ recB ++ [0, 0, 0, 4, 0, 0, 0, 8, 0x00, 0x40, 0x02, 0x00, 0x20, 0x03, 0x06, 0xE0]

/-- A memory that holds the bytes `l` from address 0 on. -/
def memAt0 (l : List Nat) : Memory := memWriteBytes [] 0 (bytes l)

/-! ### WellFormed: an ill-formed term for each check -/

theorem test_wellFormed_registers : HostOp.wellFormed params (.regWrite 32 0x04#8 1#32) = true ∧
    HostOp.wellFormed params (.regWrite 16 0x04#8 1#32) = false ∧ HostOp.wellFormed params (.regRead 32 0x06#8) = false ∧
    HostOp.wellFormed params (.regRead 8 0x04#8) = false := by decide

theorem test_wellFormed_memory : HostOp.wellFormed params (.memWrite 255 0#8) = true ∧
    HostOp.wellFormed params (.memWrite 256 0#8) = false ∧ HostOp.wellFormed params (.memRead 256) = false := by decide

theorem test_wellFormed_statements : Stmt.wellFormed params (.mwr 254 [1#8, 2#8]) = true ∧
    Stmt.wellFormed params (.mwr 255 [1#8, 2#8]) = false ∧ Stmt.wellFormed params (.mrd 250 7) = false ∧
    Stmt.wellFormed params (.mrd 250 6) = true := by decide

theorem test_wellFormed_instr : ([Instr.bitw, .palEnc, .palDec, .lzComp, .lzDecomp, .secEnc, .secDec].all Instr.wellFormed) = true := by
  decide

/-! ### Decoding: the word of each command written out from 30_encoding.md R90, R91 -/

theorem test_decode_bitw : decode 0b00000000000000000000000000000001#32 = .ok .bitw := rfl
theorem test_decode_palEnc : decode 0b00000000000000000000000000000010#32 = .ok .palEnc := rfl
theorem test_decode_palDec : decode 0b00000000000000000000000000000011#32 = .ok .palDec := rfl
theorem test_decode_lzComp : decode 0b00000000000000000000000000000100#32 = .ok .lzComp := rfl
theorem test_decode_lzDecomp : decode 0b00000000000000000000000000000101#32 = .ok .lzDecomp := rfl
theorem test_decode_secEnc : decode 0b00000000000000000000000000000110#32 = .ok .secEnc := rfl
theorem test_decode_secDec : decode 0b00000000000000000000000000000111#32 = .ok .secDec := rfl

theorem test_decode_reserved : decode 0b00000000000000000000000100000001#32 = .error .reservedBits ∧
    decode 0b10000000000000000000000000000111#32 = .error .reservedBits ∧
    decode 0b00000000000000000000000000001000#32 = .error .reservedOpcode ∧ decode 0#32 = .error .reservedOpcode :=
  ⟨rfl, rfl, rfl, rfl⟩

theorem test_decodeTableWord : decodeTableWord 32 1 = some .bitw ∧ decodeTableWord 32 7 = some .secDec ∧
    decodeTableWord 8 6 = some .secEnc ∧ decodeTableWord 32 0x107 = none ∧ decodeTableWord 32 0 = none := by decide

theorem test_encode : [Instr.bitw, .palEnc, .palDec, .lzComp, .lzDecomp, .secEnc, .secDec].map encode =
    [1#32, 2#32, 3#32, 4#32, 5#32, 6#32, 7#32] := by decide

theorem test_withFetchWord : outcome ((idle (operands 0 0 128 0 0 0) []).withFetchWord 32 1) = some [2, 0, 8, 0, 0, 0] := by decide

/-! ### One step of each command -/

-- Vectors BW-6 and BW-15.
theorem test_bitw_128 : outcome (busy .bitw (operands 0 0 128 0 0 0) []) = some [2, 0, 8, 0, 0, 0] := by decide
theorem test_bitw_max : outcome (busy .bitw (operands 0 0 0xFFFFFFFF 0 0 0) []) = some [2, 0, 32, 0, 0, 0] := by decide

-- The values of 40_bitwidth.md R144.
theorem test_b2r : [0, 1, 127, 128, 4095].map b2r = [0, 1, 7, 8, 12] := by decide

/-- Operands of PAL_ENC: the grid at 0, DST0 at 0x40, DST1 at 0x80. -/
def palEncOps (srcLen n cap1 : Nat) : RwRegs :=
  { operands srcLen 32 n 0 0 0 with dst1Addr := 0x80#32, dst1Cap := BitVec.ofNat 32 cap1 }

-- Vector PAL-1: the palette, the indices and the results; vector PAL-7: a duplicate key.
theorem test_palEnc_PAL1 : outcome (busy .palEnc (palEncOps 52 4 16) (memAt0 recG)) = some [2, 0, 2, 4, 32, 16] ∧
    bytesAfter (busy .palEnc (palEncOps 52 4 16) (memAt0 recG)) 0x40 32 = bytes (recA ++ recB) ∧
    bytesAfter (busy .palEnc (palEncOps 52 4 16) (memAt0 recG)) 0x80 16 =
      bytes [0, 0, 0, 0, 0, 0, 0, 1, 0, 0, 0, 0, 0, 0, 0, 0] := by decide +kernel
theorem test_palEnc_PAL7 : outcome (busy .palEnc (palEncOps 34 1 4) (memAt0 recD)) = some [4, 0x00020701, 0, 0, 0, 0] := by
  decide +kernel

/-- Operands of PAL_DEC: the palette at 0, the index array at 0x40, DST0 at 0x80. -/
def palDecOps (np n idxLen : Nat) : RwRegs :=
  { operands 32 52 np n 0 0 with src1Addr := 0x40#32, src1Len := BitVec.ofNat 32 idxLen, dst0Addr := 0x80#32 }

/-- The palette `[a, b{k=v}]` at 0 and the index array `idx` at 0x40. -/
def palDecMem (idx : List Nat) : Memory := memWriteBytes (memAt0 (recA ++ recB)) 0x40 (bytes idx)

-- Vector PAL-2; vector PAL-10b: an out-of-range index before the end of the array.
theorem test_palDec_PAL2 :
    outcome (busy .palDec (palDecOps 2 4 16) (palDecMem [0, 0, 0, 0, 0, 0, 0, 1, 0, 0, 0, 0, 0, 0, 0, 0])) =
      some [2, 0, 52, 4, 2, 0] ∧
    bytesAfter (busy .palDec (palDecOps 2 4 16) (palDecMem [0, 0, 0, 0, 0, 0, 0, 1, 0, 0, 0, 0, 0, 0, 0, 0])) 0x80 52 =
      bytes recG := by decide +kernel
theorem test_palDec_PAL10b : outcome (busy .palDec (palDecOps 2 2 4) (palDecMem [0, 0, 0, 5])) = some [4, 0x00030301, 0, 0, 0, 0] := by
  decide +kernel

-- Vector LZ-1; vector LZ-E10: one byte too few for the payload.
theorem test_lzComp_LZ1 : outcome (busy .lzComp (operands 3 9 4 2 4 5) (memAt0 [0x12, 0x31, 0x20])) = some [2, 0, 9, 3, 1, 21] ∧
    bytesAfter (busy .lzComp (operands 3 9 4 2 4 5) (memAt0 [0x12, 0x31, 0x20])) 0x40 9 = bytes payload1 := by decide +kernel
theorem test_lzComp_LZE10 :
    outcome (busy .lzComp (operands 3 8 4 2 4 5) (memAt0 [0x12, 0x31, 0x20])) = some [4, 0x00040203, 0, 0, 0, 0] := by decide +kernel

-- Vector LZD-3: a match longer than its offset; vector LZD-5: offset 0.
theorem test_lzDecomp_LZD3 :
    outcome (busy .lzDecomp (operands 8 3 0 0 0 0) (memAt0 [0x00, 0x40, 0x04, 0x00, 0x40, 0x05, 0x3C, 0xD0])) =
      some [2, 0, 6, 3, 4, 4] ∧
    bytesAfter (busy .lzDecomp (operands 8 3 0 0 0 0) (memAt0 [0x00, 0x40, 0x04, 0x00, 0x40, 0x05, 0x3C, 0xD0])) 0x40 3 =
      bytes [0x77, 0x77, 0x77] := by decide +kernel
theorem test_lzDecomp_LZD5 :
    outcome (busy .lzDecomp (operands 7 3 0 0 0 0) (memAt0 [0x00, 0x40, 0x04, 0x00, 0x40, 0x00, 0x82])) =
      some [4, 0x00050501, 0, 0, 0, 0] := by decide +kernel

-- Vector SEC-1; vector SEC-E13: a destination of 51 bytes.
theorem test_secEnc_SEC1 : outcome (busy .secEnc (operands 52 52 4 4 2 0) (memAt0 recG)) = some [2, 0, 52, 2, 2, 8] ∧
    bytesAfter (busy .secEnc (operands 52 52 4 4 2 0) (memAt0 recG)) 0x40 52 = bytes section1 := by decide +kernel
theorem test_secEnc_SECE13 : outcome (busy .secEnc (operands 52 51 4 4 2 0) (memAt0 recG)) = some [4, 0x00060203, 0, 0, 0, 0] := by
  decide +kernel

-- Vector SEC-D1; vector SEC-E2: a negative palette size.
theorem test_secDec_SECD1 : outcome (busy .secDec (operands 52 52 0 0 0 0) (memAt0 section1)) = some [2, 0, 4, 52, 2, 52] ∧
    bytesAfter (busy .secDec (operands 52 52 0 0 0 0) (memAt0 section1)) 0x40 52 = bytes recG := by decide +kernel
theorem test_secDec_SECE2 :
    outcome (busy .secDec (operands 4 52 0 0 0 0) (memAt0 [0xFF, 0xFF, 0xFF, 0xFF])) = some [4, 0x00070201, 0, 0, 0, 0] := by
  decide +kernel

-- An illegal word (vector CMD group): ILLEGAL_COMMAND with its opcode bits recorded (30_encoding.md R93, 60_exceptions.md R267).
theorem test_illegal : outcome (started 0x000001FF#32 RwRegs.zero []) = some [4, 0x00FF0102, 0, 0, 0, 0] := by decide

-- The host: a write of a source byte while BUSY is the fault, a read of a destination byte is a free value, a poll is repeated.
theorem test_hazard : hostMemWrite 1 0#8 (busy .lzComp (operands 3 9 4 2 4 5) []) = .fault (.hostHazard 1) ∧
    hostMemWrite 256 0#8 (idle RwRegs.zero []) = .refused (.hostAddress 256) := ⟨rfl, rfl⟩
theorem test_poll : (hostPoll [] (busy .bitw RwRegs.zero [])).host = [.poll] ∧ (hostPoll [] (idle RwRegs.zero [])).host = [] := by
  decide

/-! ### Witnesses: a state and operands that meet all the hypotheses of an obligation together -/

/-- The machine after LZ_COMP was started on the units of LZ-1. -/
def lz1 : State := busy .lzComp (operands 3 9 4 2 4 5) (memAt0 [0x12, 0x31, 0x20])

/-- The machine after `i` was started on the input of its first vector. -/
def sample : Instr → State
  | .bitw => busy .bitw (operands 0 0 128 0 0 0) []
  | .palEnc => busy .palEnc (palEncOps 52 4 16) (memAt0 recG)
  | .palDec => busy .palDec (palDecOps 2 4 16) (palDecMem [0, 0, 0, 0, 0, 0, 0, 1, 0, 0, 0, 0, 0, 0, 0, 0])
  | .lzComp => lz1
  | .lzDecomp => busy .lzDecomp (operands 9 3 0 0 0 0) (memAt0 payload1)
  | .secEnc => busy .secEnc (operands 52 52 4 4 2 0) (memAt0 recG)
  | .secDec => busy .secDec (operands 52 52 0 0 0 0) (memAt0 section1)

/-- `s` with the host's events `ops` and the schedule `bs` still to come. -/
def upcoming (s : State) (ops : List HostOp) (bs : List Bool) : State := (s.withHost ops).withSchedule bs

-- IllegalWordEndsInIllegalCommand: words at the edges of both ranges, and a machine that runs any word.
theorem witness_illegal : (∀ w ∈ [0x00000101#32, 0x80000007#32, 0x00000000#32, 0x00000008#32, 0x000000FF#32],
    w.extractLsb' 8 24 ≠ 0#24 ∨ w.extractLsb' 0 8 = 0x00#8 ∨ 0x08#8 ≤ w.extractLsb' 0 8) ∧
    busyFlag (idle RwRegs.zero []).status = false ∧
    ∀ w, (started w RwRegs.zero []).CoreTurn ∧ (started w RwRegs.zero []).lcmd = w :=
  ⟨fun w hw => by
    simp only [List.mem_cons, List.not_mem_nil, or_false] at hw
    rcases hw with rfl | rfl | rfl | rfl | rfl <;> decide, by decide, fun _ => ⟨⟨rfl, Or.inl rfl⟩, rfl⟩⟩

-- StepRunsTheDecodedCommand: nothing from the host, the schedule used up, and the core's turn.
theorem witness_coreTurn : lz1.CoreTurn ∧ (upcoming lz1 [.poll] []).CoreTurn ∧ (upcoming lz1 [.poll] [true]).CoreTurn ∧
    decode lz1.lcmd = .ok .lzComp ∧ decode (upcoming lz1 [.poll] []).lcmd = .ok .lzComp ∧
    decode (upcoming lz1 [.poll] [true]).lcmd = .ok .lzComp :=
  ⟨by decide, by decide, by decide, rfl, rfl, rfl⟩

-- StepTakesTheHostEvent: its three clauses.
theorem witness_hostTurn : (idle RwRegs.zero []).phase = .idle ∧ (idle RwRegs.zero []).host = [] ∧
    (upcoming (idle RwRegs.zero []) [.poll] []).phase = .idle ∧ (upcoming (idle RwRegs.zero []) [.poll] []).host = [.poll] ∧
    (upcoming lz1 [.poll] [false]).phase = .busy ∧ (upcoming lz1 [.poll] [false]).host = [.poll] ∧
    (upcoming lz1 [.poll] [false]).schedule = [false] := ⟨rfl, rfl, rfl, rfl, rfl, rfl, rfl⟩

-- CommandStartLatchesOperands; CommandsWriteOnlyTheirOutputs: every command answers a next state.
theorem witness_start : busyFlag (idle RwRegs.zero []).status = false ∧ ∀ i, ∃ t, exec i (sample i) = .next t :=
  ⟨by decide, fun i => by cases i <;> exact ⟨_, rfl⟩⟩

-- CommandsRaiseOnlyTheirCauses: an error, with parameters in range.
theorem witness_raise : (busy .lzComp (operands 3 8 4 2 4 5) (memAt0 [0x12, 0x31, 0x20])).params.Valid ∧
    ∃ t, exec .lzComp (busy .lzComp (operands 3 8 4 2 4 5) (memAt0 [0x12, 0x31, 0x20])) = .next t ∧ t.status = 0x00000004#32 :=
  ⟨by decide, _, rfl, by decide +kernel⟩

-- ChecksComeInOrder: an operand error; a region one byte past MEM_SIZE; regions with one byte in common.
theorem witness_checks :
    checkOperands params .lzComp (operands 3 9 0 2 4 5) = .error .paramRange ∧
    checkOperands params .lzComp (operands 257 9 4 2 4 5) = .ok () ∧
    (∃ g ∈ sourceRegions .lzComp (operands 257 9 4 2 4 5) ++ destRegions .lzComp (operands 257 9 4 2 4 5),
      params.memSize < g.addr + g.len) ∧
    checkOperands params .lzComp (operands 65 192 4 2 4 5) = .ok () ∧
    (∀ g ∈ sourceRegions .lzComp (operands 65 192 4 2 4 5) ++ destRegions .lzComp (operands 65 192 4 2 4 5),
      g.addr + g.len ≤ params.memSize) ∧
    regionsOverlap (sourceRegions .lzComp (operands 65 192 4 2 4 5)) (destRegions .lzComp (operands 65 192 4 2 4 5)) = true :=
  ⟨rfl, rfl, by decide, rfl, by decide, by decide⟩

-- OutputsMustFitTheirRegions: LZ-1 fits 9 bytes exactly and not 8.
theorem witness_fit : ∃ t, exec .lzComp lz1 = .next t ∧ t.status = 0x00000002#32 ∧ (9#32).toNat ≤ lz1.lreg.dst0Cap.toNat ∧
    (0#32).toNat ≤ lz1.lreg.dst1Cap.toNat ∧ (8#32).toNat < (storedSizes .lzComp t).1 ∧
    (storedSizes .lzComp t).1 ≤ (9#32).toNat ∧ (storedSizes .lzComp t).2 ≤ (0#32).toNat :=
  ⟨_, rfl, by decide +kernel⟩

-- OperandErrors and LzCompOperandErrors: a value just outside and just inside each range.
theorem witness_operands : params.maxCells < (operands 0 0 4097 0 0 0).arg0.toNat ∧
    (operands 0 0 4096 4096 1 0).arg0.toNat ≤ params.maxCells ∧ (operands 0 0 4096 4097 0 0).arg1.toNat > params.maxCells ∧
    (operands 0 0 4097 0 0 0).arg0.toNat > params.maxPalette ∧
    4096 < (operands 0 0 4097 4 2 0).arg0.toNat ∧ ¬ (1 ≤ (operands 0 0 0 0 1 0).arg1.toNat) ∧
    ¬ ((operands 0 0 0 1 4096 0).arg2.toNat ≤ 4095) ∧ ¬ ((operands 3 9 4096 2 4 5).arg0.toNat ≤ 4095) ∧
    ¬ (1 ≤ (operands 3 9 4095 0 4 5).arg1.toNat) ∧ ¬ ((operands 3 9 1 4095 17 5).arg2.toNat ≤ 16) ∧
    4096 < (operands 3 9 1 1 16 4097).arg3.toNat := by decide

-- CommandsReadOnlyTheirSources: another memory with the same three source bytes.
theorem witness_sources : ∀ a, (∃ g ∈ sourceRegions .lzComp lz1.lreg, regionHolds g a = true) →
    memRead (memWrite lz1.mem 0x80 0xFF#8) a = memRead lz1.mem a := by
  rintro a ⟨g, hg, h⟩
  simp only [sourceRegions, List.mem_singleton] at hg
  subst hg
  simp only [regionHolds, Bool.and_eq_true, decide_eq_true_eq] at h
  have : (src0 lz1.lreg).addr + (src0 lz1.lreg).len = 3 := by decide
  exact memRead_memWrite_other _ _ (by omega)

-- CommandsKeepNoWorkingState: the same command after another one left other results, and over the same memory and operands.
theorem witness_noWorkingState : let s' : State := { lz1 with seen := [.mem 1 2#8], rw := RwRegs.zero, res0 := 5#32, freeCount := 3 }
    s'.params = lz1.params ∧ s'.lcmd = lz1.lcmd ∧ s'.lreg = lz1.lreg ∧ s'.mem = lz1.mem := ⟨rfl, rfl, rfl, rfl⟩

-- StepKeepsTheInvariant: the step that completes LZ-1, and a host event.
theorem witness_invariant : lz1.Inv ∧ (∃ t, step lz1 = .next t) ∧ (upcoming lz1 [.poll] [false]).Inv ∧
    ∃ t, step (upcoming lz1 [.poll] [false]) = .next t :=
  ⟨by decide, ⟨_, rfl⟩, by decide, ⟨_, rfl⟩⟩

-- BusyEndsWithinTheSchedule: two host events, then the completion.
theorem witness_busyEnds : (upcoming lz1 [.poll, .poll] [false, false]).phase = .busy ∧
    ∃ t, Host.Core.run Sys2Proof.core ((upcoming lz1 [.poll, .poll] [false, false]).schedule.length + 1)
      (upcoming lz1 [.poll, .poll] [false, false]) = .next t := ⟨rfl, _, rfl⟩

-- RegisterAccessRules: an access that is too narrow or unaligned; the edges of the RO, reserved and RW offsets.
theorem witness_registers : (16 ≠ 32 ∨ (0x04#8).toNat % 4 ≠ 0) ∧ (32 ≠ 32 ∨ (0x4E#8).toNat % 4 ≠ 0) ∧
    (0x4C#8).toNat % 4 = 0 ∧ 0x4C#8 ∈ [0x00#8, 0x08#8, 0x0C#8, 0x40#8, 0x44#8, 0x48#8, 0x4C#8] ∧
    (0x50#8).toNat % 4 = 0 ∧ 0x50#8 ≤ 0x50#8 ∧ 0x50#8 ≤ 0xFC#8 ∧ (0xFC#8).toNat % 4 = 0 ∧
    (0x10#8).toNat % 4 = 0 ∧ 0x10#8 ≤ 0x10#8 ∧ 0x10#8 ≤ 0x3C#8 ∧ (0x3C#8).toNat % 4 = 0 ∧ 0x3C#8 ≤ 0x3C#8 := by decide

-- CmdWriteRules, WaitPollsUntilNotBusy: an idle and a busy machine, and a word that decodes.
theorem witness_cmdWrite : busyFlag (idle RwRegs.zero []).status = false ∧ busyFlag lz1.status = true ∧
    decode 0x00000004#32 = .ok .lzComp := ⟨by decide, by decide, rfl⟩

/-- A machine idle after an error, with one event to come. -/
def afterError (op : HostOp) : State := upcoming (lz1.raise .prematureEnd) [op] []

-- NextStartClearsTheError.
theorem witness_afterError : (afterError .reset).phase = .idle ∧ (afterError .reset).status = 0x00000004#32 ∧
    (afterError .reset).host = [.reset] ∧ (afterError (.regWrite 32 0x04#8 1#32)).host = [.regWrite 32 0x04#8 1#32] ∧
    (afterError (.regRead 32 0x0C#8)).host = [.regRead 32 0x0C#8] := ⟨rfl, rfl, rfl, rfl, rfl⟩

-- HostMemoryAccess: the last address and the first one past it.
theorem witness_hostMemory : (idle RwRegs.zero []).params.memSize ≤ 256 ∧ 255 < (idle RwRegs.zero []).params.memSize ∧
    busyFlag (idle RwRegs.zero []).status = false := by decide

-- BusyMemoryHazards: the last source byte and the byte after it, the first destination byte and the byte before it.
theorem witness_hazards : busyFlag lz1.status = true ∧ decode lz1.lcmd = .ok .lzComp ∧
    (∃ g ∈ sourceRegions .lzComp lz1.lreg ++ destRegions .lzComp lz1.lreg, g.addr ≤ 2 ∧ 2 < g.addr + g.len) ∧
    (∀ g ∈ sourceRegions .lzComp lz1.lreg ++ destRegions .lzComp lz1.lreg, ¬ (g.addr ≤ 3 ∧ 3 < g.addr + g.len)) ∧
    (∃ g ∈ destRegions .lzComp lz1.lreg, g.addr ≤ 0x40 ∧ 0x40 < g.addr + g.len) ∧
    (∀ g ∈ destRegions .lzComp lz1.lreg, ¬ (g.addr ≤ 0x3F ∧ 0x3F < g.addr + g.len)) ∧ 0x40 < lz1.params.memSize :=
  ⟨by decide, rfl, by decide, by decide, by decide, by decide, by decide⟩

-- BusyRegisterAccess.
theorem witness_busyRegisters : lz1.Inv ∧ lz1.phase = .busy := by decide

-- BitStreamRules, WordsAreBigEndian, NegativeCountsAreRejected: the edges of the ranges.
theorem witness_bits : 7 < 8 * (bytes [0xA5]).length ∧ (readerOf (bytes [0xA5])).rest.length < 9 ∧
    8 ≤ (readerOf (bytes [0xA5])).rest.length ∧ 65535 < 2 ^ (8 * 2) ∧ 2147483648 ≤ 4294967295 ∧ 4294967295 < 4294967296 ∧
    2147483648 < 4294967296 := by decide

-- UnpackInvertsPack: the greatest unit of the greatest width.
theorem witness_units : 1 ≤ 16 ∧ 16 ≤ 16 ∧ (∀ x ∈ [65535, 0], x < 2 ^ 16) ∧ 1 < [65535, 0].length ∧ 15 < 16 ∧
    (1 ≤ 5 ∧ 5 ≤ 16 ∧ (∀ x ∈ [21], x < 2 ^ 5) ∧ [21].length * 5 ≤ 7 ∧ 7 < 8 * (pack [21] 5).length) := by decide

-- RecordReadsBack, RecordRewritesItsBits, DuplicateKeyIsRejected.
theorem witness_records : blockB.Legal ∧
    (∃ r', readRecord (readerOf (bytes recB)) = .ok (blockB, r')) ∧
    ¬ ((Block.mk [0x64#16] [([0x6B#16], [0x31#16]), ([0x6B#16], [0x32#16])]).props.map Prod.fst).Nodup :=
  ⟨by decide, ⟨_, rfl⟩, by decide⟩

-- BitwGivesTheLeastWidth: 128 needs 8 bits.
theorem witness_bitw : (sample .bitw).lreg.arg0.toNat < 2 ^ 8 ∧ ∀ j, (sample .bitw).lreg.arg0.toNat < 2 ^ j → 8 ≤ j := by
  refine ⟨by decide, fun j hj => ?_⟩
  by_contra hlt
  have : 2 ^ j ≤ 2 ^ 7 := Nat.pow_le_pow_right (by omega) (by omega)
  have h : (sample .bitw).lreg.arg0.toNat = 2 ^ 7 := by decide
  omega

-- BitWidthLaws: the edges of its ranges.
theorem witness_widths : 0 < 1 ∧ 0 ≤ 4294967295 ∧ 4294967295 < 4294967296 ∧ 4095 < 2 ^ 12 ∧ 4095 ≤ 4095 := by decide

-- PaletteListsFirstOccurrences: the palette of G, and a grid as long as the capacity.
theorem witness_palette : paletteEncode 2 [blockA, blockB, blockA, blockA] = .ok ([blockA, blockB], [0, 1, 0, 0]) ∧
    [blockA, blockB].length ≤ 2 := ⟨rfl, by decide⟩

-- PalEncCompletes: PAL-1.
theorem witness_palEnc : RegionsLegal params .palEnc (sample .palEnc).lreg ∧ (sample .palEnc).lreg.arg0.toNat = 4 ∧
    [blockA, blockB, blockA, blockA].length ≤ params.maxCells ∧ (∀ b ∈ [blockA, blockB, blockA, blockA], b.Legal) ∧
    bytesToBits (regionBytes (sample .palEnc).mem (src0 (sample .palEnc).lreg)) =
      recordsBits [blockA, blockB, blockA, blockA] ++ [] ∧
    paletteEncode params.maxPalette [blockA, blockB, blockA, blockA] = .ok ([blockA, blockB], [0, 1, 0, 0]) ∧
    (bitsToBytes (recordsBits [blockA, blockB])).length ≤ (sample .palEnc).lreg.dst0Cap.toNat ∧
    4 * 4 ≤ (sample .palEnc).lreg.dst1Cap.toNat :=
  ⟨by decide +kernel, by decide +kernel, by decide, by decide, by decide +kernel, rfl, by decide +kernel, by decide +kernel⟩

-- PalDecCompletes: PAL-2.
theorem witness_palDec : RegionsLegal params .palDec (sample .palDec).lreg ∧ (sample .palDec).lreg.arg0.toNat = 2 ∧
    (sample .palDec).lreg.arg1.toNat = 4 ∧ 2 ≤ params.maxPalette ∧ 4 ≤ params.maxCells ∧ (∀ b ∈ [blockA, blockB], b.Legal) ∧
    bytesToBits (regionBytes (sample .palDec).mem (src0 (sample .palDec).lreg)) = recordsBits [blockA, blockB] ++ [] ∧
    bytesToBits (regionBytes (sample .palDec).mem (src1 (sample .palDec).lreg)) = unitBits 32 [0, 1, 0, 0] ++ [] ∧
    [0, 1, 0, 0].map (fun k => [blockA, blockB][k]?) = [blockA, blockB, blockA, blockA].map some ∧
    (bitsToBytes (recordsBits [blockA, blockB, blockA, blockA])).length ≤ (sample .palDec).lreg.dst0Cap.toNat := by
  decide +kernel

/-- The machine of vector PAL-8: index 2 of a palette of 2. -/
def pal8 : State := busy .palDec (palDecOps 2 2 8) (palDecMem [0, 0, 0, 0, 0, 0, 0, 2])

/-- The machine of vector PAL-10: an index array that ends inside index 1. -/
def pal10 : State := busy .palDec (palDecOps 2 2 6) (palDecMem [0, 0, 0, 0, 0, 0])

-- PalDecReportsTheFirstBadIndex: both clauses.
theorem witness_badIndex :
    (RegionsLegal pal8.params .palDec pal8.lreg ∧ pal8.lreg.arg0.toNat = 2 ∧ [0].length < pal8.lreg.arg1.toNat ∧
      2 ≤ pal8.params.maxPalette ∧ pal8.lreg.arg1.toNat ≤ pal8.params.maxCells ∧ (∀ b ∈ [blockA, blockB], b.Legal) ∧
      bytesToBits (regionBytes pal8.mem (src0 pal8.lreg)) = recordsBits [blockA, blockB] ++ [] ∧
      bytesToBits (regionBytes pal8.mem (src1 pal8.lreg)) = unitBits 32 [0] ++ (natBits 32 2 ++ []) ∧ (∀ k ∈ [0], k < 2) ∧
      2 ≤ 2 ∧ 2 < 2 ^ 32) ∧
    (RegionsLegal pal10.params .palDec pal10.lreg ∧ pal10.lreg.arg0.toNat = 2 ∧ [0].length < pal10.lreg.arg1.toNat ∧
      pal10.lreg.arg1.toNat ≤ pal10.params.maxCells ∧
      bytesToBits (regionBytes pal10.mem (src0 pal10.lreg)) = recordsBits [blockA, blockB] ++ [] ∧
      bytesToBits (regionBytes pal10.mem (src1 pal10.lreg)) = unitBits 32 [0] ++ List.replicate 16 false ∧
      (List.replicate 16 false).length < 32) := by decide +kernel

-- PaletteRoundTrip: PAL-1, then PAL-2 on what it wrote.
theorem witness_paletteRoundTrip : ∃ t, exec .palEnc (sample .palEnc) = .next t ∧ t.status = 0x00000002#32 ∧
    (sample .palDec).params = (sample .palEnc).params ∧ RegionsLegal (sample .palDec).params .palDec (sample .palDec).lreg ∧
    (sample .palDec).lreg.arg0 = t.res0 ∧ (sample .palDec).lreg.arg1 = t.res1 ∧
    regionBytes (sample .palDec).mem (src0 (sample .palDec).lreg) =
      memBytes t.mem (dst0 (sample .palEnc).lreg).addr t.res2.toNat ∧
    regionBytes (sample .palDec).mem (src1 (sample .palDec).lreg) =
      memBytes t.mem (dst1 (sample .palEnc).lreg).addr t.res3.toNat ∧
    (sample .palEnc).lreg.src0Len.toNat ≤ (sample .palDec).lreg.dst0Cap.toNat := ⟨_, rfl, by decide +kernel⟩

-- LzCompCompletes: LZ-1 with an exact fit, and with one byte too few; LzssRoundTrip on its units.
theorem witness_lzComp : LzParamsLegal 4 2 4 5 ∧ lz1.lreg.arg3.toNat = [1, 2, 3, 1, 2].length ∧
    RegionsLegal lz1.params .lzComp lz1.lreg ∧ (∀ x ∈ [1, 2, 3, 1, 2], x < 2 ^ 4) ∧
    bytesToBits (regionBytes lz1.mem (src0 lz1.lreg)) = unitBits 4 [1, 2, 3, 1, 2] ++ List.replicate 4 false ∧
    (lzCompress 4 2 4 [1, 2, 3, 1, 2]).length ≤ lz1.lreg.dst0Cap.toNat ∧
    (operands 3 8 4 2 4 5).dst0Cap.toNat < (lzCompress 4 2 4 [1, 2, 3, 1, 2]).length := by decide +kernel

-- LzssRoundTrip, TokensLieInTheHistory and PayloadSize at the edges: no unit, and the greatest unit of the greatest width.
theorem witness_roundTrip : LzParamsLegal 4095 4095 16 1 ∧ (∀ x ∈ [65535], x < 2 ^ 16) ∧ LzParamsLegal 1 1 1 0 ∧
    Token.mat 3 2 ∈ compressTokens 4 2 4 [1, 2, 3, 1, 2] := by decide +kernel

-- SearchTakesLongestThenNearest: the match of LZ-1, and no match.
theorem witness_search : searchMatch 4 [0, 1, 2, 3] [1, 2] 2 = some (2, 3) ∧ searchMatch 4 [0, 1, 2, 3] [5, 6] 2 = none := by
  decide

-- LzHeaderRules and TokensAreReadFieldByField: the edges of their ranges.
theorem witness_header : 4095 < 4096 ∧ (bytes [0x00, 0x40, 0x02, 0x00, 0x40]).length < 6 ∧ 15 < 2 ^ 4 ∧ 7 < 2 ^ b2r 4 ∧
    3 < 2 ^ b2r 2 ∧ [true, false, true].length < 4 ∧ [true, false, true, true].length < b2r 4 + b2r 2 := by decide

-- MatchRepeatsTheLastUnits: one past the start, the start, offset 0, length 0.
theorem witness_match : [7, 8].length < 3 ∧ 2 ≤ [7, 8].length ∧ 1 ≤ 2 ∧ 0 ≤ [7, 8].length := by decide

-- DecodedUnitsAndTrailingBits, LzDecompCompletes: the header and the body of LZ-1, with an exact fit and one byte too few.
theorem witness_lzDecomp : ∃ r, RegionsLegal params .lzDecomp (sample .lzDecomp).lreg ∧
    lzReadHeader (regionReader (sample .lzDecomp).mem (src0 (sample .lzDecomp).lreg)) (sample .lzDecomp).lreg.src0Len.toNat =
      .ok (⟨4, 2, 4, 5⟩, r) ∧
    lzDecodeBody Config.copyCount ⟨4, 2, 4, 5⟩ r = .ok [1, 2, 3, 1, 2] ∧
    (pack [1, 2, 3, 1, 2] 4).length ≤ (sample .lzDecomp).lreg.dst0Cap.toNat ∧
    (operands 9 2 0 0 0 0).dst0Cap.toNat < (pack [1, 2, 3, 1, 2] 4).length :=
  ⟨_, by decide +kernel, rfl, rfl, by decide +kernel, by decide +kernel⟩

-- SecEncCompletes: SEC-1.
theorem witness_secEnc : params.Valid ∧ (1 ≤ (sample .secEnc).lreg.arg1.toNat ∧ (sample .secEnc).lreg.arg1.toNat ≤ 4095) ∧
    (1 ≤ (sample .secEnc).lreg.arg2.toNat ∧ (sample .secEnc).lreg.arg2.toNat ≤ 4095) ∧
    RegionsLegal params .secEnc (sample .secEnc).lreg ∧ (sample .secEnc).lreg.arg0.toNat = 4 ∧ 4 ≤ 4096 ∧
    (∀ b ∈ [blockA, blockB, blockA, blockA], b.Legal) ∧
    bytesToBits (regionBytes (sample .secEnc).mem (src0 (sample .secEnc).lreg)) =
      recordsBits [blockA, blockB, blockA, blockA] ++ [] ∧
    12 + (recordsBits [blockA, blockB]).length / 8 + (lzCompress 4 2 (max 1 (b2r 2)) [0, 1, 0, 0]).length ≤
      (sample .secEnc).lreg.dst0Cap.toNat := by decide +kernel

-- SecDecCompletes: SEC-1's section.
theorem witness_secDec : ∃ r, RegionsLegal params .secDec (sample .secDec).lreg ∧
    bytesToBits (regionBytes (sample .secDec).mem (src0 (sample .secDec).lreg)) =
      natBits 32 2 ++ recordsBits [blockA, blockB] ++ natBits 32 4 ++ natBits 32 8 ++
        bytesToBits (bytes [0x00, 0x40, 0x02, 0x00, 0x20, 0x03, 0x06, 0xE0]) ++ [] ∧
    lzReadHeader (readerOf (bytes [0x00, 0x40, 0x02, 0x00, 0x20, 0x03, 0x06, 0xE0])) 8 = .ok (⟨4, 2, 2, 4⟩, r) ∧
    2 = max 1 (b2r 2) ∧ lzDecodeBody Config.copyCount ⟨4, 2, 2, 4⟩ r = .ok [0, 1, 0, 0] ∧
    ([0, 1, 0, 0].take 4).map (fun k => [blockA, blockB][k]?) = [blockA, blockB, blockA, blockA].map some ∧
    (bitsToBytes (recordsBits [blockA, blockB, blockA, blockA])).length ≤ (sample .secDec).lreg.dst0Cap.toNat :=
  ⟨_, by decide +kernel, by decide +kernel, rfl, by decide, rfl, by decide, by decide +kernel⟩

/-- The machine of vector SEC-E1: a cell count of 3 before a payload of 4 units. -/
def secE1 : State := busy .secDec (operands 52 52 0 0 0 0) (memWrite (memAt0 section1) 39 3#8)

-- SecDecRejectsMismatchedHeader, its second clause.
theorem witness_mismatch : ∃ r, RegionsLegal secE1.params .secDec secE1.lreg ∧
    bytesToBits (regionBytes secE1.mem (src0 secE1.lreg)) =
      natBits 32 2 ++ recordsBits [blockA, blockB] ++ natBits 32 3 ++ natBits 32 8 ++
        bytesToBits (bytes [0x00, 0x40, 0x02, 0x00, 0x20, 0x03, 0x06, 0xE0]) ++ [] ∧
    3 ≤ secE1.params.maxCells ∧
    lzReadHeader (readerOf (bytes [0x00, 0x40, 0x02, 0x00, 0x20, 0x03, 0x06, 0xE0])) 8 = .ok (⟨4, 2, 2, 4⟩, r) ∧ 4 ≠ 3 :=
  ⟨_, by decide +kernel, by decide +kernel, by decide, rfl, by decide⟩

/-- A palette of 65536 empty blocks, as in vector SEC-E7b. -/
@[irreducible] def widePalette : List Block := List.replicate 65536 ⟨[], []⟩

/-- A section with that palette, no cell and an empty payload. -/
@[irreducible] def wideSection : List Byte := bitsToBytes (sectionBits widePalette 0 [])

/-- The machine of vector SEC-E7b, with parameters large enough for that section. -/
def secE7b : State :=
  { started (encode .secDec) { RwRegs.zero with src0Len := 524300#32, dst0Addr := 0x90000#32 } (memWriteBytes [] 0 wideSection) with
    params := ⟨1048576, 65536, 65536⟩ }

theorem recordsBits_empty_length (n : Nat) : (recordsBits (List.replicate n ⟨[], []⟩)).length = 64 * n := by
  induction n with
  | zero => rfl
  | succ n ih =>
    rw [List.replicate_succ, recordsBits, List.length_append, ih,
      show (recordBits ⟨[], []⟩).length = 64 by decide, Nat.mul_succ, Nat.add_comm]

-- SecDecRejectsMismatchedHeader, its first clause, at the least palette size it covers.
theorem witness_wide : RegionsLegal secE7b.params .secDec secE7b.lreg ∧
    bytesToBits (regionBytes secE7b.mem (src0 secE7b.lreg)) =
      natBits 32 widePalette.length ++ recordsBits widePalette ++ natBits 32 0 ++ natBits 32 ([] : List Byte).length ++
        bytesToBits [] ++ [] ∧
    widePalette.length ≤ secE7b.params.maxPalette ∧ widePalette.length < 2147483648 ∧ (∀ b ∈ widePalette, b.Legal) ∧
    0 ≤ secE7b.params.maxCells ∧ 65535 < widePalette.length := by
  have hl : widePalette.length = 65536 := by rw [widePalette, List.length_replicate]
  have hb : (sectionBits widePalette 0 []).length = 4194400 := by
    rw [sectionBits]
    simp only [List.length_append, natBits_length, bytesToBits_length, List.length_nil]
    rw [widePalette, recordsBits_empty_length]
  have hs : wideSection.length = 524300 := by rw [wideSection, bitsToBytes_length, hb]
  refine ⟨by decide +kernel, ?_, by rw [hl]; decide, by rw [hl]; decide, ?_, Nat.zero_le _, by rw [hl]; decide⟩
  · have ha : (src0 secE7b.lreg).addr = 0 := by decide +kernel
    have hn : (src0 secE7b.lreg).len = 524300 := by decide +kernel
    have h := memBytes_memWriteBytes [] 0 wideSection
    rw [hs] at h
    rw [regionBytes, ha, hn, show secE7b.mem = memWriteBytes [] 0 wideSection from rfl, h, wideSection, bytesToBits_bitsToBytes,
      alignBits, hb, sectionBits, show (8 - 4194400 % 8) % 8 = 0 by decide, List.replicate_zero]
  · have hn : ∀ n, ∀ b ∈ List.replicate n (⟨[], []⟩ : Block), b.Legal := by
      intro n b hm
      rw [List.eq_of_mem_replicate hm]
      decide
    rw [widePalette]
    exact hn _

-- SectionRoundTrip: SEC-1, then SEC-D1 on what it wrote.
theorem witness_sectionRoundTrip : ∃ t, (sample .secEnc).params.Valid ∧ exec .secEnc (sample .secEnc) = .next t ∧
    t.status = 0x00000002#32 ∧ (sample .secDec).params = (sample .secEnc).params ∧
    RegionsLegal (sample .secDec).params .secDec (sample .secDec).lreg ∧
    regionBytes (sample .secDec).mem (src0 (sample .secDec).lreg) =
      memBytes t.mem (dst0 (sample .secEnc).lreg).addr t.res0.toNat ++ [] ∧
    (sample .secEnc).lreg.src0Len.toNat ≤ (sample .secDec).lreg.dst0Cap.toNat :=
  ⟨_, by decide, rfl, by decide +kernel, by decide +kernel, by decide +kernel, by decide +kernel, by decide +kernel⟩

/-! ### Witnesses of the clauses on errors and on single fields -/

-- RegisterBlockReads: the last result and the first reserved offset.
theorem witness_reads : (0x4C#8).toNat % 4 = 0 ∧ (0x50#8).toNat % 4 = 0 ∧ 0x50#8 ≤ 0x50#8 := by decide

-- BusyMemoryHazards, an illegal word: the last address.
theorem witness_illegalBusy : busyFlag (started 0x000001FF#32 RwRegs.zero []).status = true ∧
    255 < (started 0x000001FF#32 RwRegs.zero []).params.memSize ∧
    ∀ i, decode (started 0x000001FF#32 RwRegs.zero []).lcmd ≠ .ok i :=
  ⟨by decide, by decide, fun i => by cases i <;> decide⟩

-- BusyRegisterAccess: another offset than the one written.
theorem witness_otherOffset : 0x14#8 ≠ offsetOf (.rw .src0Addr) := by decide

-- RecordReadsBack: a record that lacks its last bit.
theorem witness_cutRecord : blockB.Legal ∧ 175 < (recordBits blockB).length := by decide +kernel

-- PaletteListsFirstOccurrences: the second block meets a palette of one entry.
theorem witness_paletteFull : paletteEncode 1 [blockA, blockA, blockB] = .error .capacity ∧
    [blockA, blockA, blockB][2]? = some blockB ∧ paletteEncode 1 ([blockA, blockA, blockB].take 2) = .ok ([blockA], [0, 0]) ∧
    [blockA].length = 1 ∧ ∀ e ∈ [blockA], ¬ SameBlock e blockB :=
  ⟨rfl, rfl, rfl, rfl, fun e he hs => absurd hs.1 (by rw [List.mem_singleton.mp he]; decide)⟩

-- PalEncCompletes: records one byte short, a palette of one entry only, and each destination one byte too small (PAL-1).
theorem witness_palEncErrors :
    (RegionsLegal params .palEnc (palEncOps 51 4 16) ∧ readRecords 4 (regionReader (memAt0 recG) ⟨0, 51⟩) = .error .prematureEnd ∧
      (src0 (palEncOps 51 4 16)) = ⟨0, 51⟩) ∧
    (RegionsLegal ⟨256, 4096, 1⟩ .palEnc (sample .palEnc).lreg ∧
      paletteEncode 1 [blockA, blockB, blockA, blockA] = .error .capacity) ∧
    (RegionsLegal params .palEnc (palEncOps 52 4 15) ∧ (palEncOps 52 4 15).dst1Cap.toNat < 4 * 4) ∧
    (RegionsLegal params .palEnc { palEncOps 52 4 16 with dst0Cap := 31#32 } ∧
      (31#32).toNat < (bitsToBytes (recordsBits [blockA, blockB])).length) := by decide +kernel

-- PalDecCompletes: one record too many, and a destination one byte too small (PAL-2).
theorem witness_palDecErrors :
    (RegionsLegal params .palDec (palDecOps 3 4 16) ∧
      readRecords 3 (regionReader (memAt0 (recA ++ recB)) (src0 (palDecOps 3 4 16))) = .error .prematureEnd) ∧
    (RegionsLegal params .palDec { palDecOps 2 4 16 with dst0Cap := 51#32 } ∧
      (51#32).toNat < (bitsToBytes (recordsBits [blockA, blockB, blockA, blockA])).length) := by decide +kernel

-- LzCompCompletes: 20 bits are asked of 16.
theorem witness_lzCompShort : LzParamsLegal 4 2 4 5 ∧ RegionsLegal params .lzComp (operands 2 9 4 2 4 5) ∧
    8 * (operands 2 9 4 2 4 5).src0Len.toNat < 5 * 4 := by decide

-- TokensLieInTheHistory: a literal, a match, and a match the search finds that costs more than its literals.
theorem witness_tokens : (compressTokens 4 2 4 [1, 2, 3, 1, 2])[0]? = some (.lit 1) ∧
    (compressTokens 4 2 4 [1, 2, 3, 1, 2])[3]? = some (.mat 3 2) ∧ searchMatch 4 [0, 1, 2, 3] [1, 2] 2 = some (2, 3) ∧
    searchMatch 4 [0, 0, 0, 0] [0] 1 = some (1, 1) ∧ ¬ (1 + b2r 4 + b2r 2 ≤ (1 + 4) * 1) ∧
    1 + b2r 4 + b2r 2 ≤ (1 + 2) * 2 := by decide +kernel

-- LzDecompCompletes: a header one byte short, and a match of offset 0.
theorem witness_lzDecompErrors :
    (RegionsLegal params .lzDecomp (operands 5 3 0 0 0 0) ∧
      lzReadHeader (regionReader (memAt0 payload1) (src0 (operands 5 3 0 0 0 0))) 5 = .error .prematureEnd) ∧
    lzDecodeBody Config.copyCount ⟨4, 2, 4, 1⟩ ⟨48, [true, false, false, false, false, true]⟩ = .error .badOffset := by
  decide +kernel

-- SecEncCompletes: records one byte short, and a destination one byte too small (SEC-1).
theorem witness_secEncErrors :
    (RegionsLegal params .secEnc (operands 51 52 4 4 2 0) ∧
      readRecords 4 (regionReader (memAt0 recG) (src0 (operands 51 52 4 4 2 0))) = .error .prematureEnd) ∧
    (RegionsLegal params .secEnc (operands 52 51 4 4 2 0) ∧
      (operands 52 51 4 4 2 0).dst0Cap.toNat <
        12 + (recordsBits [blockA, blockB]).length / 8 + (lzCompress 4 2 (max 1 (b2r 2)) [0, 1, 0, 0]).length) := by
  decide +kernel

/-- SEC_DEC was started on the bytes `b`. -/
def secOn (b : List Nat) : State := busy .secDec (operands b.length 52 0 0 0 0) (memAt0 b)

/-- The bits SEC_DEC reads on the bytes `b`. -/
def secBits (b : List Nat) : List Bool := bytesToBits (regionBytes (secOn b).mem (src0 (secOn b).lreg))

/-- The palette part of section SEC-1. -/
def pal1 : List Nat := [0, 0, 0, 2] ++ recA ++ recB

/-- The bits of `pal1`. -/
def pal1Bits : List Bool := natBits 32 2 ++ recordsBits [blockA, blockB]

/-- A payload of the units 0 and 2. -/
def payIndex2 : List Byte := lzCompress 4 2 2 [0, 2]

-- SecDecCompletes: index 2 of a palette of 2, and a destination one byte too small (SEC-1).
theorem witness_secDecIndex : ∃ r, RegionsLegal params .secDec (secOn (pal1 ++ [0, 0, 0, 2, 0, 0, 0, 7] ++ payIndex2.map BitVec.toNat)).lreg ∧
    secBits (pal1 ++ [0, 0, 0, 2, 0, 0, 0, 7] ++ payIndex2.map BitVec.toNat) =
      pal1Bits ++ natBits 32 2 ++ natBits 32 payIndex2.length ++ bytesToBits payIndex2 ++ [] ∧
    lzReadHeader (readerOf payIndex2) payIndex2.length = .ok (⟨4, 2, 2, 2⟩, r) ∧
    lzDecodeBody Config.copyCount ⟨4, 2, 2, 2⟩ r = .ok [0, 2] ∧ (∃ k ∈ [0, 2].take 2, 2 ≤ k) ∧
    (RegionsLegal params .secDec (operands 52 51 0 0 0 0) ∧
      (operands 52 51 0 0 0 0).dst0Cap.toNat < (bitsToBytes (recordsBits [blockA, blockB, blockA, blockA])).length) :=
  ⟨_, by decide +kernel, by decide +kernel, rfl, by decide +kernel, by decide, by decide +kernel⟩

-- SecDecReportsTheFirstError, the palette size and the palette: 24 bits, 2^31, 4097, and a record that is missing.
theorem witness_secErrorsPalette :
    (∀ b ∈ [[0, 0, 0], [0x80, 0, 0, 0], [0, 0, 0x10, 1], [0, 0, 0, 1]], RegionsLegal params .secDec (secOn b).lreg) ∧
    (secBits [0, 0, 0]).length < 32 ∧ secBits [0x80, 0, 0, 0] = natBits 32 2147483648 ++ [] ∧
    secBits [0, 0, 0x10, 1] = natBits 32 4097 ++ [] ∧ params.maxPalette < 4097 ∧ secBits [0, 0, 0, 1] = natBits 32 1 ++ [] ∧
    readRecords 1 ⟨32, []⟩ = .error .prematureEnd := by decide +kernel

-- SecDecReportsTheFirstError, the cell count: 24 bits, 2^31, 4097.
theorem witness_secErrorsCells :
    (∀ b ∈ [[0, 0, 0], [0x80, 0, 0, 0], [0, 0, 0x10, 1]], RegionsLegal params .secDec (secOn (pal1 ++ b)).lreg) ∧
    (∀ b ∈ [blockA, blockB], b.Legal) ∧ secBits (pal1 ++ [0, 0, 0]) = pal1Bits ++ List.replicate 24 false ∧
    (List.replicate 24 false).length < 32 ∧ secBits (pal1 ++ [0x80, 0, 0, 0]) = pal1Bits ++ (natBits 32 2147483648 ++ []) ∧
    secBits (pal1 ++ [0, 0, 0x10, 1]) = pal1Bits ++ (natBits 32 4097 ++ []) ∧ params.maxCells < 4097 := by decide +kernel

-- SecDecReportsTheFirstError, the payload's length: 24 bits, 2^31, and 1 with no byte left.
theorem witness_secErrorsLength :
    (∀ b ∈ [[0, 0, 0], [0x80, 0, 0, 0], [0, 0, 0, 1]], RegionsLegal params .secDec (secOn (pal1 ++ [0, 0, 0, 4] ++ b)).lreg) ∧
    secBits (pal1 ++ [0, 0, 0, 4] ++ [0, 0, 0]) = pal1Bits ++ (natBits 32 4 ++ List.replicate 24 false) ∧
    secBits (pal1 ++ [0, 0, 0, 4] ++ [0x80, 0, 0, 0]) = pal1Bits ++ (natBits 32 4 ++ (natBits 32 2147483648 ++ [])) ∧
    secBits (pal1 ++ [0, 0, 0, 4] ++ [0, 0, 0, 1]) = pal1Bits ++ (natBits 32 4 ++ (natBits 32 1 ++ [])) ∧
    ([] : List Bool).length < 8 * 1 := by decide +kernel

-- SecDecReportsTheFirstError, the payload: an empty one, and a header of 4 units without a body.
theorem witness_secErrorsPayload : ∃ r,
    (∀ b ∈ [[0, 0, 0, 0], [0, 0, 0, 6, 0x00, 0x40, 0x02, 0x00, 0x20, 0x03]],
      RegionsLegal params .secDec (secOn (pal1 ++ [0, 0, 0, 4] ++ b)).lreg) ∧
    secBits (pal1 ++ [0, 0, 0, 4] ++ [0, 0, 0, 0]) =
      pal1Bits ++ (natBits 32 4 ++ (natBits 32 ([] : List Byte).length ++ bytesToBits [] ++ [])) ∧
    lzReadHeader (readerOf []) ([] : List Byte).length = .error .prematureEnd ∧
    secBits (pal1 ++ [0, 0, 0, 4] ++ [0, 0, 0, 6, 0x00, 0x40, 0x02, 0x00, 0x20, 0x03]) =
      pal1Bits ++ (natBits 32 4 ++ (natBits 32 6 ++ bytesToBits (bytes [0x00, 0x40, 0x02, 0x00, 0x20, 0x03]) ++ [])) ∧
    lzReadHeader (readerOf (bytes [0x00, 0x40, 0x02, 0x00, 0x20, 0x03])) 6 = .ok (⟨4, 2, 2, 4⟩, r) ∧ 2 = max 1 (b2r 2) ∧
    lzDecodeBody Config.copyCount ⟨4, 2, 2, 4⟩ r = .error .prematureEnd :=
  ⟨_, by decide +kernel, by decide +kernel, by decide +kernel, by decide +kernel, rfl, by decide, by decide +kernel⟩

-- SecDecReportsTheFirstError, the index width: vector SEC-E7b's palette.
theorem witness_secErrorsWidth : RegionsLegal secE7b.params .secDec secE7b.lreg ∧
    bytesToBits (regionBytes secE7b.mem (src0 secE7b.lreg)) =
      natBits 32 widePalette.length ++ recordsBits widePalette ++ (natBits 32 0 ++ natBits 32 0) ∧
    widePalette.length < 2147483648 ∧ widePalette.length ≤ secE7b.params.maxPalette ∧ (∀ b ∈ widePalette, b.Legal) ∧
    65535 < widePalette.length := by
  obtain ⟨h1, h2, h3, h4, h5, _, h7⟩ := witness_wide
  exact ⟨h1, by rw [h2, bytesToBits, List.append_nil, List.append_nil, List.length_nil, List.append_assoc], h4, h3, h5, h7⟩

end Sys2Proof.Tests
end

section
/-! SUPPORT. The register block by offset, the decoder, and the result of a command as one function: what the proofs about the state
share. -/

open Sys2Proof Sys2Proof.Machine

namespace Sys2Proof.Machine

/-! ### Registers by offset -/

@[simp] theorem regAt_offsetOf (n : RegName) : regAt (offsetOf n) = some n := by
  cases n with
  | rw r => cases r <;> rfl
  | _ => rfl

/-- Each register stands at one offset only. -/
theorem eq_offsetOf_of_regAt {off : BitVec 8} {n : RegName} (h : regAt off = some n) : off = offsetOf n := by
  have every : ∀ off, (regAt off).all (fun n => off == offsetOf n) = true := by decide
  simpa [h] using every off

/-- The offsets from 0x50 on are reserved (10_state.md R21). -/
theorem regAt_reserved : ∀ off : BitVec 8, 0x50#8 ≤ off → regAt off = none := by decide

/-- The aligned offsets 0x10 to 0x3C are those of the RW registers (10_state.md R21). -/
theorem exists_rwReg_offset (off : BitVec 8) (ha : off.toNat % 4 = 0) (hlo : 0x10#8 ≤ off) (hhi : off ≤ 0x3C#8) :
    ∃ r, off = offsetOf (.rw r) := by
  have every : ∀ off : BitVec 8, off.toNat % 4 = 0 → 0x10#8 ≤ off → off ≤ 0x3C#8 →
      ∃ r ∈ [RwReg.src0Addr, .src0Len, .src1Addr, .src1Len, .dst0Addr, .dst0Cap, .dst1Addr, .dst1Cap, .arg0, .arg1, .arg2, .arg3],
        off = offsetOf (.rw r) := by decide
  obtain ⟨r, -, hr⟩ := every off ha hlo hhi
  exact ⟨r, hr⟩

@[simp] theorem regRead_offsetOf (s : State) (n : RegName) : regRead s (offsetOf n) = readNamed s n := by
  simp [regRead]

@[simp] theorem regWrite_offsetOf (s : State) (n : RegName) (v : Word) :
    regWrite s (offsetOf n) v = writeNamed s n v := by
  simp [regWrite]

@[simp] theorem readNamed_rw (s : State) (r : RwReg) : readNamed s (.rw r) = rwGet s.rw r := rfl

@[simp] theorem writeNamed_rw (s : State) (r : RwReg) (v : Word) :
    writeNamed s (.rw r) v = s.withRw (rwSet s.rw r v) := rfl

@[simp] theorem writeNamed_cmd (s : State) (v : Word) : writeNamed s .cmd v = writeCmd s v := rfl

theorem regRead_reserved (s : State) {off : BitVec 8} (h : 0x50#8 ≤ off) : regRead s off = 0#32 := by
  simp [regRead, regAt_reserved off h]

theorem regWrite_reserved (s : State) {off : BitVec 8} (v : Word) (h : 0x50#8 ≤ off) : regWrite s off v = s := by
  simp [regWrite, regAt_reserved off h]

/-- A write to an RO register has no effect (10_state.md R22). -/
theorem regWrite_readOnly (s : State) {off : BitVec 8} (v : Word)
    (h : off ∈ [0x00#8, 0x08#8, 0x0C#8, 0x40#8, 0x44#8, 0x48#8, 0x4C#8]) : regWrite s off v = s := by
  simp only [List.mem_cons, List.not_mem_nil, or_false] at h
  obtain rfl | rfl | rfl | rfl | rfl | rfl | rfl := h
  · exact regWrite_offsetOf s .id v
  · exact regWrite_offsetOf s .status v
  · exact regWrite_offsetOf s .errinfo v
  · exact regWrite_offsetOf s .res0 v
  · exact regWrite_offsetOf s .res1 v
  · exact regWrite_offsetOf s .res2 v
  · exact regWrite_offsetOf s .res3 v

@[simp] theorem rwGet_rwSet_same (r : RwRegs) (n : RwReg) (v : Word) : rwGet (rwSet r n v) n = v := by
  cases n <;> rfl

theorem rwGet_rwSet_other (r : RwRegs) {n k : RwReg} (v : Word) (h : k ≠ n) : rwGet (rwSet r n v) k = rwGet r k := by
  revert h
  cases n <;> cases k <;> simp [rwGet, rwSet]

/-- After a write of an RW register every other offset reads as before. -/
theorem regRead_withRw_other (s : State) {r : RwReg} (v : Word) {off : BitVec 8} (h : off ≠ offsetOf (.rw r)) :
    regRead (s.withRw (rwSet s.rw r v)) off = regRead s off := by
  rw [regRead, regRead]
  cases hn : regAt off with
  | none => rfl
  | some n =>
    cases n with
    | rw k =>
      have hk : k ≠ r := fun hk => h (hk ▸ eq_offsetOf_of_regAt hn)
      exact rwGet_rwSet_other s.rw v hk
    | _ => rfl

theorem hostRegWrite_aligned (s : State) {off : BitVec 8} (v : Word) (h : off.toNat % 4 = 0) :
    hostRegWrite 32 off v s = .next (regWrite s off v) := by
  simp [hostRegWrite, regAccessWellFormed, h]

theorem hostRegRead_aligned (s : State) {off : BitVec 8} (h : off.toNat % 4 = 0) :
    hostRegRead 32 off s = .next (s.saw (.reg off (regRead s off))) := by
  simp [hostRegRead, regAccessWellFormed, h]

theorem hostRegWrite_cmd_idle (s : State) (c : Word) (h : busyFlag s.status = false) :
    hostRegWrite 32 (offsetOf .cmd) c s = .next (s.start c) := by
  rw [hostRegWrite_aligned s c rfl, regWrite_offsetOf, writeNamed_cmd, writeCmd, if_neg (by simp [h])]

theorem hostRegWrite_cmd_busy (s : State) (c : Word) (h : busyFlag s.status = true) :
    hostRegWrite 32 (offsetOf .cmd) c s = .next s := by
  rw [hostRegWrite_aligned s c rfl, regWrite_offsetOf, writeNamed_cmd, writeCmd, if_pos h]

theorem regAccessWellFormed_eq_false {bits : Nat} {off : BitVec 8} (h : bits ≠ 32 ∨ off.toNat % 4 ≠ 0) :
    regAccessWellFormed bits off = false := by
  rcases h with h | h <;> simp [regAccessWellFormed, h]

/-! ### The decoder -/

theorem decodeOpcode_eq_ok {op : BitVec 8} {i : Instr} (h : decodeOpcode op = .ok i) : op = opcodeOf i := by
  rw [decodeOpcode] at h
  split_ifs at h <;> (cases h; assumption)

theorem decode_eq_ok {w : Word} {i : Instr} (h : decode w = .ok i) : rsvdField w = 0#24 ∧ opcodeField w = opcodeOf i := by
  rw [decode] at h
  split at h
  · exact ⟨‹_›, decodeOpcode_eq_ok h⟩
  · cases h

@[simp] theorem decode_encode (i : Instr) : decode (encode i) = .ok i := by
  cases i <;> rfl

/-! ### Commands and completions -/

/-- What the command function of `i` gives (30_encoding.md R96). -/
def commandOutput (i : Instr) (p : Params) (r : RwRegs) (m : Memory) : Except Cause Output :=
  match i with
  | .bitw => cmdBitw p r
  | .palEnc => cmdPalEnc p r m
  | .palDec => cmdPalDec p r m
  | .lzComp => cmdLzComp p r m
  | .lzDecomp => cmdLzDecomp p r m
  | .secEnc => cmdSecEnc p r m
  | .secDec => cmdSecDec p r m

/-- The meaning of every command is the completion on its command function's result; nothing else of the state enters. -/
theorem exec_eq_complete (i : Instr) (s : State) :
    exec i s = .next (s.complete (commandOutput i s.params s.lreg s.mem)) := by
  cases i <;> rfl

/-- The results of a successful command report the sizes of its outputs, up to the width of a result register. -/
theorem storedSizes_succeed {i : Instr} {p : Params} {r : RwRegs} {m : Memory} {o : Output}
    (h : commandOutput i p r m = .ok o) (s : State) :
    storedSizes i (s.succeed o) = (o.out0.length % 2 ^ 32, o.out1.length % 2 ^ 32) := by
  cases i with
  | bitw =>
    obtain ⟨_, -, h⟩ := bind_eq_ok.mp h
    cases h; rfl
  | palEnc =>
    obtain ⟨_, -, h⟩ := bind_eq_ok.mp h
    obtain ⟨⟨g, _⟩, hg, h⟩ := bind_eq_ok.mp h
    obtain ⟨⟨pal, idx⟩, hidx, h⟩ := bind_eq_ok.mp h
    obtain ⟨_, -, h⟩ := bind_eq_ok.mp h
    obtain ⟨_, -, h⟩ := bind_eq_ok.mp h
    cases h
    have hlen : (pack idx 32).length = 4 * r.arg0.toNat := by
      rw [pack_length, palLoop_length hidx, readRecords_length hg]; omega
    simp [storedSizes, hlen]
  | palDec =>
    obtain ⟨_, -, h⟩ := bind_eq_ok.mp h
    obtain ⟨⟨pal, _⟩, -, h⟩ := bind_eq_ok.mp h
    obtain ⟨out, -, h⟩ := bind_eq_ok.mp h
    obtain ⟨_, -, h⟩ := bind_eq_ok.mp h
    cases h; rfl
  | lzComp =>
    obtain ⟨_, -, h⟩ := bind_eq_ok.mp h
    obtain ⟨u, -, h⟩ := bind_eq_ok.mp h
    obtain ⟨_, -, h⟩ := bind_eq_ok.mp h
    cases h; rfl
  | lzDecomp =>
    obtain ⟨_, -, h⟩ := bind_eq_ok.mp h
    obtain ⟨⟨hd, rd⟩, -, h⟩ := bind_eq_ok.mp h
    obtain ⟨u, -, h⟩ := bind_eq_ok.mp h
    obtain ⟨_, -, h⟩ := bind_eq_ok.mp h
    cases h; rfl
  | secEnc =>
    obtain ⟨_, -, h⟩ := bind_eq_ok.mp h
    obtain ⟨⟨g, _⟩, -, h⟩ := bind_eq_ok.mp h
    obtain ⟨⟨pal, idx⟩, -, h⟩ := bind_eq_ok.mp h
    obtain ⟨_, -, h⟩ := bind_eq_ok.mp h
    cases h; rfl
  | secDec =>
    obtain ⟨_, -, h⟩ := bind_eq_ok.mp h
    obtain ⟨⟨np, n, out, consumed⟩, -, h⟩ := bind_eq_ok.mp h
    obtain ⟨_, -, h⟩ := bind_eq_ok.mp h
    cases h; rfl

theorem storedSizes_raise (i : Instr) (s : State) (c : Cause) : storedSizes i (s.raise c) = (0, 0) := by
  cases i <;> rfl

theorem Output.Fits.length_le {i : Instr} {p : Params} {r : RwRegs} {o : Output} (h : o.Fits i p r) :
    o.out0.length ≤ r.dst0Cap.toNat ∧ o.out1.length ≤ r.dst1Cap.toNat := by
  obtain ⟨-, h0, h1⟩ := h
  refine ⟨?_, ?_⟩
  · rcases h0 with h0 | ⟨-, h0⟩
    · simp [h0]
    · exact h0
  · rcases h1 with h1 | ⟨-, h1⟩
    · simp [h1]
    · exact h1

theorem commandOutput_fits {i : Instr} {p : Params} {r : RwRegs} {m : Memory} {o : Output}
    (h : commandOutput i p r m = .ok o) : o.Fits i p r := by
  cases i with
  | bitw => exact cmdBitw_fits h
  | palEnc => exact cmdPalEnc_fits h
  | palDec => exact cmdPalDec_fits h
  | lzComp => exact cmdLzComp_fits h
  | lzDecomp => exact cmdLzDecomp_fits h
  | secEnc => exact cmdSecEnc_fits h
  | secDec => exact cmdSecDec_fits h

/-- What a command stores, in one lemma: an error stores nothing, and a success stores two outputs that fit their destinations and
whose sizes its results report exactly. -/
theorem exec_next_stored {i : Instr} {s t : State} (h : exec i s = .next t) :
    (∃ o : Output, t = s.succeed o ∧ storedSizes i t = (o.out0.length, o.out1.length) ∧
      o.out0.length ≤ s.lreg.dst0Cap.toNat ∧ o.out1.length ≤ s.lreg.dst1Cap.toNat) ∨
    ∃ c, t = s.raise c ∧ storedSizes i t = (0, 0) := by
  rw [exec_eq_complete] at h
  obtain rfl := Host.Outcome.next.inj h
  cases ho : commandOutput i s.params s.lreg s.mem with
  | error c => exact .inr ⟨c, rfl, storedSizes_raise i s c⟩
  | ok o =>
    obtain ⟨h0, h1⟩ := (commandOutput_fits ho).length_le
    have sizes := storedSizes_succeed ho s
    rw [Nat.mod_eq_of_lt (Nat.lt_of_le_of_lt h0 s.lreg.dst0Cap.isLt),
      Nat.mod_eq_of_lt (Nat.lt_of_le_of_lt h1 s.lreg.dst1Cap.isLt)] at sizes
    exact .inl ⟨o, rfl, sizes, h0, h1⟩

/-- What the completion step can do: one of the commands succeeds with outputs that fit, or an error is taken. -/
theorem completion_next {s t : State} (h : completion s = .next t) :
    (∃ i o, t = s.succeed o ∧ Output.Fits i s.params s.lreg o) ∨ ∃ c, t = s.raise c := by
  obtain ⟨i, -, hi⟩ | hc := completion_eq s
  · obtain ⟨o, ho, hf⟩ | hc := exec_next_fits s (hi.symm.trans h)
    · exact .inl ⟨i, o, ho, hf⟩
    · exact .inr hc
  · exact .inr ⟨_, (Host.Outcome.next.inj (hc.symm.trans h)).symm⟩

theorem completion_next_phase {s t : State} (h : completion s = .next t) : t.phase = .idle := by
  obtain ⟨i, o, rfl, -⟩ | ⟨c, rfl⟩ := completion_next h <;> rfl

/-- States alike in what a command may use complete alike. -/
theorem complete_congr {s s' : State} (res : Except Cause Output) (hc : s'.lcmd = s.lcmd) (hl : s'.lreg = s.lreg)
    (hm : s'.mem = s.mem) :
    (s'.complete res).status = (s.complete res).status ∧ (s'.complete res).errinfo = (s.complete res).errinfo ∧
    (s'.complete res).mem = (s.complete res).mem ∧ (s'.complete res).res0 = (s.complete res).res0 ∧
    (s'.complete res).res1 = (s.complete res).res1 ∧ (s'.complete res).res2 = (s.complete res).res2 ∧
    (s'.complete res).res3 = (s.complete res).res3 := by
  cases res with
  | ok o => simp [hl, hm]
  | error c => simp [hc, hm]

theorem complete_withRw (s : State) (r : RwRegs) (res : Except Cause Output) :
    (s.withRw r).complete res = (s.complete res).withRw r := by
  cases res <;> rfl

/-! ### Host events -/

theorem regWrite_schedule (s : State) (off : BitVec 8) (v : Word) : (regWrite s off v).schedule = s.schedule := by
  obtain h | ⟨r, -, h⟩ | ⟨-, -, h⟩ := regWrite_cases s off v <;> rw [h] <;> rfl

/-- No host event moves the schedule. -/
theorem hostStep_next_schedule {op : HostOp} {ops : List HostOp} {s t : State} (h : hostStep op ops s = .next t) :
    t.schedule = s.schedule := by
  obtain ⟨off, v, rfl⟩ | ⟨ops', x, rfl⟩ | ⟨a, b, -, rfl⟩ | ⟨a, rfl⟩ | rfl := hostStep_next h
  · exact regWrite_schedule _ off v
  all_goals rfl

/-! ### The step at the core's turn -/

/-- At the core's turn the step is the completion (log 3). -/
theorem step_of_coreTurn {s : State} (h : s.CoreTurn) : step s = completion s.atCoreTurn := by
  obtain ⟨pa, ph, lc, lr, rw, st, er, r0, r1, r2, r3, m, ho, sc, se, fc⟩ := s
  obtain ⟨hp, hturn⟩ := h
  subst hp
  cases ho with
  | nil => rfl
  | cons op ops =>
    cases sc with
    | nil => rfl
    | cons b bs =>
      obtain rfl : b = true := by simpa using hturn
      rfl

@[simp] theorem atCoreTurn_lcmd (s : State) : s.atCoreTurn.lcmd = s.lcmd := by
  rw [State.atCoreTurn]; split <;> rfl

/-- While busy each step ends in IDLE or takes one turn from the schedule. -/
theorem step_busy_next {s u : State} (hbusy : s.phase = .busy) (h : step s = .next u) :
    u.phase = .idle ∨ ∃ b, s.schedule = b :: u.schedule := by
  obtain ⟨hidle, -⟩ | ⟨op, ops, hidle, -⟩ | ⟨op, ops, bs, -, -, hsched, hs⟩ | ⟨bs, -, hs⟩ := step_cases s
  · simp [hbusy] at hidle
  · simp [hbusy] at hidle
  · exact .inr ⟨false, hsched.trans (congrArg _ (hostStep_next_schedule (hs.symm.trans h)).symm)⟩
  · exact .inl (completion_next_phase (hs.symm.trans h))

theorem core_run_one {s u : State} (h : step s = .next u) : core.run 1 s = .next u :=
  core_run_next 0 s u h

/-- A run that does not stop is a first step and the run from there. -/
theorem core_run_succ_eq_next {n : Nat} {s t : core.State} (h : core.run (n + 1) s = .next t) :
    ∃ u, core.step s = .next u ∧ core.run n u = .next t := by
  rw [Host.Core.run] at h
  split at h
  · exact ⟨_, ‹_›, h⟩
  · cases h
  · cases h

/-- A busy machine whose schedule is shorter than its run is idle somewhere in the run. -/
theorem exists_idle_of_run {n : Nat} {s t : State} (hbusy : s.phase = .busy) (hlen : s.schedule.length < n)
    (hrun : core.run n s = .next t) : ∃ k u, k ≤ n ∧ core.run k s = .next u ∧ State.phase u = .idle := by
  induction n generalizing s with
  | zero => omega
  | succ n ih =>
    obtain ⟨v, hv, hrest⟩ := core_run_succ_eq_next hrun
    cases hphase : v.phase with
    | idle => exact ⟨1, v, by omega, core_run_one hv, hphase⟩
    | busy =>
      obtain hidle | ⟨b, hsched⟩ := step_busy_next hbusy hv
      · simp [hphase] at hidle
      · obtain ⟨k, u, hk, hku, hu⟩ := ih hphase (by simp [hsched] at hlen; omega) hrest
        exact ⟨k + 1, u, by omega, (core_run_next k s v hv).trans hku, hu⟩

theorem completion_of_decode {s : State} {i : Instr} (h : decode s.lcmd = .ok i) : completion s = exec i s := by
  rw [completion, h]

/-! ### The invariant -/

theorem inv_start {s : State} (h : s.Inv) (c : Word) : (s.start c).Inv := by
  obtain ⟨hparams, hmem, -⟩ := h
  exact ⟨hparams, hmem, .inr (.inl rfl), by simp, by simp [statusBusy, statusErr], by simp, fun _ => ⟨rfl, rfl, rfl, rfl⟩⟩

theorem inv_raise {s : State} (h : s.Inv) (c : Cause) : (s.raise c).Inv := by
  obtain ⟨hparams, hmem, -⟩ := h
  exact ⟨hparams, hmem, .inr (.inr (.inr rfl)), by simp [statusErr, statusBusy],
    ⟨fun _ => rfl, fun _ => errinfoWord_ne c s.lcmd⟩, errinfoWord_high c s.lcmd, fun _ => ⟨rfl, rfl, rfl, rfl⟩⟩

theorem inv_afterReset {s : State} (h : s.Inv) : s.afterReset.Inv := by
  obtain ⟨hparams, hmem, -⟩ := h
  exact ⟨hparams, hmem, .inl rfl, by simp [statusIdle, statusBusy], by simp [statusIdle, statusErr], by simp,
    fun _ => ⟨rfl, rfl, rfl, rfl⟩⟩

theorem inv_storeByte {s : State} (h : s.Inv) {a : Nat} (b : Byte) (ha : a < s.params.memSize) : (s.storeByte a b).Inv := by
  obtain ⟨hparams, hmem, hrest⟩ := h
  exact ⟨hparams, memWrite_wf b hmem ha, hrest⟩

/-- An output that fits a destination of a command whose checks passed keeps the memory's form. -/
theorem memWriteBytes_output_wf {i : Instr} {p : Params} {r : RwRegs} {m : Memory} {d : Region} {out : List Byte}
    (hm : Memory.wf p.memSize m = true) (hcheck : checkCommand p i r = .ok ())
    (hfit : out = [] ∨ (d ∈ destRegions i r ∧ out.length ≤ d.len)) :
    Memory.wf p.memSize (memWriteBytes m d.addr out) = true := by
  obtain rfl | ⟨hd, hlen⟩ := hfit
  · exact hm
  · obtain ⟨-, hbounds, -⟩ := checkCommand_eq_ok.mp hcheck
    have hd : d.addr + d.len ≤ p.memSize := of_decide_eq_true (hbounds d (List.mem_append_right _ hd))
    exact memWriteBytes_wf hm (by omega)

theorem inv_succeed {i : Instr} {s : State} (h : s.Inv) {o : Output} (hf : o.Fits i s.params s.lreg) : (s.succeed o).Inv := by
  obtain ⟨hparams, hmem, -⟩ := h
  obtain ⟨hcheck, hout0, hout1⟩ := hf
  have hmem' : Memory.wf s.params.memSize (s.succeed o).mem = true :=
    memWriteBytes_output_wf (memWriteBytes_output_wf hmem hcheck hout0) hcheck hout1
  exact ⟨hparams, hmem', .inr (.inr (.inl rfl)), by simp [statusDone, statusBusy], by simp [statusDone, statusErr], by simp,
    fun hdone => absurd rfl hdone⟩

theorem inv_completion {s t : State} (h : s.Inv) (ht : completion s = .next t) : t.Inv := by
  obtain ⟨i, o, rfl, hf⟩ | ⟨c, rfl⟩ := completion_next ht
  · exact inv_succeed h hf
  · exact inv_raise h c

theorem inv_regWrite {s : State} (h : s.Inv) (off : BitVec 8) (v : Word) : (regWrite s off v).Inv := by
  obtain hw | ⟨r, -, hw⟩ | ⟨-, -, hw⟩ := regWrite_cases s off v <;> rw [hw]
  · exact h
  · exact h
  · exact inv_start h v

/-- A host event keeps the invariant: the host's own fields are not in it, and neither are the RW registers. -/
theorem inv_hostStep {op : HostOp} {ops : List HostOp} {s t : State} (h : s.Inv) (ht : hostStep op ops s = .next t) : t.Inv := by
  have hHost : (s.withHost ops).Inv := h
  obtain ⟨off, v, rfl⟩ | ⟨ops', x, rfl⟩ | ⟨a, b, ha, rfl⟩ | ⟨a, rfl⟩ | rfl := hostStep_next ht
  · exact inv_regWrite hHost off v
  · exact h
  · exact inv_storeByte hHost b ha
  · exact h
  · exact inv_afterReset hHost

end Sys2Proof.Machine
end

section
/-! PROOFS. The statements about the state, the registers and the step (10_state.md). -/

open Sys2Proof Sys2Proof.Machine

namespace Sys2Proof.Proofs

/-- Settles O18: the four things a step can do each keep the invariant. -/
theorem stepKeepsTheInvariant : Obligations.StepKeepsTheInvariant := by
  intro s t hinv hstep
  obtain ⟨-, -, h⟩ | ⟨op, ops, -, -, h⟩ | ⟨op, ops, bs, -, -, -, h⟩ | ⟨bs, -, h⟩ := step_cases s <;> rw [h] at hstep
  · exact Host.Outcome.next.inj hstep ▸ hinv
  · exact inv_hostStep hinv hstep
  · exact inv_hostStep (s := s.withSchedule bs) hinv hstep
  · exact inv_completion (s := s.withSchedule bs) hinv hstep

/-- Settles O7: a command reads the latched operands only, so the RW registers pass through its completion. -/
theorem commandStartLatchesOperands : Obligations.CommandStartLatchesOperands := by
  refine ⟨fun s c ops hidle => ?_, fun i s t r v h => ⟨?_, ?_⟩⟩
  · exact hostRegWrite_cmd_idle (s.withHost ops) c hidle
  · rw [exec_eq_complete] at h ⊢
    obtain rfl := Host.Outcome.next.inj h
    simp [complete_withRw]
  · simp

/-- Settles O12: a completion stores the two outputs, of the sizes the results report, and touches no other byte. -/
theorem commandsWriteOnlyTheirOutputs : Obligations.CommandsWriteOnlyTheirOutputs := by
  intro i s t h
  refine ⟨?_, ?_⟩
  · obtain ⟨res, rfl⟩ := exec_next h
    simp
  · obtain ⟨o, rfl, hsizes, h0, h1⟩ | ⟨c, rfl, hsizes⟩ := exec_next_stored h <;> rw [hsizes]
    · refine ⟨⟨h0, h1⟩, fun a ha0 ha1 => ?_⟩
      rw [succeed_mem, memRead_memWriteBytes_outside _ _ _ a ha1, memRead_memWriteBytes_outside _ _ _ a ha0]
    · exact ⟨⟨Nat.zero_le _, Nat.zero_le _⟩, fun _ _ _ => rfl⟩

/-- Settles O16: both completions are on the same result of the command function. -/
theorem commandsKeepNoWorkingState : Obligations.CommandsKeepNoWorkingState := by
  intro i s s' hp hc hl hm
  refine ⟨_, _, exec_eq_complete i s, exec_eq_complete i s', ?_⟩
  rw [hp, hl, hm]
  exact complete_congr _ hc hl hm

/-- Settles O21, by induction on the run: each busy step ends in IDLE or takes one turn from the schedule. -/
theorem busyEndsWithinTheSchedule : Obligations.BusyEndsWithinTheSchedule := by
  intro s t hbusy hrun
  exact exists_idle_of_run hbusy (Nat.lt_succ_self _) hrun

/-- Settles O23: each clause is the rule of its range of offsets. -/
theorem registerAccessRules : Obligations.RegisterAccessRules := by
  refine ⟨fun s bits off v h => ?_, fun s off v ha h => ?_, fun s off ha h => ?_, fun s off v ha hlo hhi => ?_⟩
  · simp [hostRegWrite, hostRegRead, regAccessWellFormed_eq_false h]
  · rw [hostRegWrite_aligned s v ha]
    obtain h | h := h
    · rw [regWrite_readOnly s v h]
    · rw [regWrite_reserved s v h]
  · have hzero : regRead s off = 0#32 := by
      obtain rfl | h := h
      · exact regRead_offsetOf s .cmd
      · exact regRead_reserved s h
    rw [hostRegRead_aligned s ha, hzero, State.saw]
  · obtain ⟨r, rfl⟩ := exists_rwReg_offset off ha hlo hhi
    rw [hostRegWrite_aligned s v ha, regWrite_offsetOf, writeNamed_rw]
    exact ⟨_, rfl, rfl, by simp, fun off' hoff' => regRead_withRw_other s v hoff'⟩

/-- Settles O4: at the core's turn the step is the completion, which decodes the latched word. -/
theorem stepRunsTheDecodedCommand : Obligations.StepRunsTheDecodedCommand := by
  intro s i hturn hdec
  rw [step_of_coreTurn hturn]
  exact completion_of_decode (by rwa [atCoreTurn_lcmd])

/-- Settles O6: the placed state is at the core's turn with an empty schedule. -/
theorem fetchWordRunsTheCommand : Obligations.FetchWordRunsTheCommand := by
  intro s i
  have hlcmd : (s.withFetchWord 32 (encode i).toNat).lcmd = encode i := by
    simp [State.withFetchWord, Nat.mod_eq_of_lt (encode i).isLt]
  have hturn : (s.withFetchWord 32 (encode i).toNat).CoreTurn := ⟨rfl, .inr (.inl rfl)⟩
  have hat : (s.withFetchWord 32 (encode i).toNat).atCoreTurn = s.withFetchWord 32 (encode i).toNat := by
    rw [State.atCoreTurn]; split <;> rfl
  refine ⟨?_, rfl, rfl⟩
  rw [step_of_coreTurn hturn, hat]
  exact completion_of_decode (by rw [hlcmd, decode_encode])

/-- Settles O22: each offset of the table is the offset of its register. -/
theorem registerBlockReads : Obligations.RegisterBlockReads := by
  intro s
  exact ⟨fun off h => hostRegRead_aligned s h,
    regRead_offsetOf s .id, regRead_offsetOf s .cmd, regRead_offsetOf s .status, regRead_offsetOf s .errinfo,
    regRead_offsetOf s (.rw .src0Addr), regRead_offsetOf s (.rw .src0Len), regRead_offsetOf s (.rw .src1Addr),
    regRead_offsetOf s (.rw .src1Len), regRead_offsetOf s (.rw .dst0Addr), regRead_offsetOf s (.rw .dst0Cap),
    regRead_offsetOf s (.rw .dst1Addr), regRead_offsetOf s (.rw .dst1Cap), regRead_offsetOf s (.rw .arg0),
    regRead_offsetOf s (.rw .arg1), regRead_offsetOf s (.rw .arg2), regRead_offsetOf s (.rw .arg3),
    regRead_offsetOf s .res0, regRead_offsetOf s .res1, regRead_offsetOf s .res2, regRead_offsetOf s .res3,
    fun _ _ h => regRead_reserved s h⟩

/-- Settles O24: what `ID` reads as takes nothing from the state. -/
theorem idIsHardwired : Obligations.IdIsHardwired := by
  intro s off v
  have hid : ∀ u : State, regRead u 0x00#8 = 0x51534601#32 := fun u => regRead_offsetOf u .id
  refine ⟨hid s, hid _, hid _, ?_, ?_⟩ <;> rw [hid] <;> decide

/-- Settles O25: the two cases of a CMD write, and the fields the decoder asks for. -/
theorem cmdWriteRules : Obligations.CmdWriteRules := by
  intro s v
  exact ⟨hostRegWrite_cmd_idle s v, hostRegWrite_cmd_busy s v, regRead_offsetOf s .cmd, fun i hdec => decode_eq_ok hdec⟩

end Sys2Proof.Proofs
end

section
/-! SUPPORT. The rules of the buffer memory and of the bit streams that the statements of 20_memory.md share: what two regions have in
common, what a command reads, where each bit of a stream stands, when a count is refused, and the host's events. -/

open Sys2Proof Sys2Proof.Machine

namespace Sys2Proof.Machine

/-! ### Regions -/

@[simp] theorem regionHolds_eq_true {r : Region} {a : Nat} : regionHolds r a = true ↔ r.addr ≤ a ∧ a < r.addr + r.len := by
  simp [regionHolds]

/-- Two regions overlap exactly when they share a byte, and then they share the greater of their two first addresses. -/
theorem overlap_eq_true {d e : Region} : overlap d e = true ↔ ∃ a, regionHolds d a = true ∧ regionHolds e a = true := by
  simp only [overlap, regionHolds_eq_true, Bool.and_eq_true, decide_eq_true_eq]
  constructor
  · rintro ⟨⟨⟨hd, he⟩, hde⟩, hed⟩
    exact ⟨max d.addr e.addr, by omega, by omega⟩
  · rintro ⟨a, hd, he⟩
    omega

/-- No two regions of a list overlap exactly when its regions are pairwise apart. -/
theorem anyOverlap_eq_false {rs : List Region} : anyOverlap rs = false ↔ rs.Pairwise (fun d e => overlap d e = false) := by
  induction rs with
  | nil => simp [anyOverlap]
  | cons r rs ih => simp [anyOverlap, ih]

/-- Some two regions of a list overlap exactly when two different places of it hold overlapping regions. -/
theorem anyOverlap_eq_true {rs : List Region} :
    anyOverlap rs = true ↔ ∃ (j k : Nat) (d e : Region), j < k ∧ rs[j]? = some d ∧ rs[k]? = some e ∧ overlap d e = true := by
  rw [← Bool.not_eq_false, anyOverlap_eq_false, List.pairwise_iff_getElem]
  constructor
  · intro h
    push Not at h
    obtain ⟨j, k, hj, hk, hjk, hov⟩ := h
    exact ⟨j, k, rs[j], rs[k], hjk, List.getElem?_eq_getElem hj, List.getElem?_eq_getElem hk, by simpa using hov⟩
  · rintro ⟨j, k, d, e, hjk, hd, he, hov⟩ h
    obtain ⟨hj, rfl⟩ := List.getElem?_eq_some_iff.mp hd
    obtain ⟨hk, rfl⟩ := List.getElem?_eq_some_iff.mp he
    simp [h j k hj hk hjk] at hov

/-! ### What a command reads -/

/-- Memories that agree on the bytes of a region give the same byte string for it. -/
theorem regionBytes_congr {m m' : Memory} {g : Region} (h : ∀ a, regionHolds g a = true → memRead m a = memRead m' a) :
    regionBytes m g = regionBytes m' g :=
  memBytes_congr fun a hlo hhi => h a (regionHolds_eq_true.mpr ⟨hlo, hhi⟩)

/-- A command function reads memory only as the byte strings of its source regions (20_memory.md R71). -/
theorem commandOutput_congr {i : Instr} {r : RwRegs} {m m' : Memory} (p : Params)
    (h : ∀ g ∈ sourceRegions i r, regionBytes m g = regionBytes m' g) : commandOutput i p r m = commandOutput i p r m' := by
  cases i with
  | bitw => rfl
  | palEnc => simp only [commandOutput, cmdPalEnc, regionReader, h (src0 r) (.head _)]
  | palDec => simp only [commandOutput, cmdPalDec, regionReader, h (src0 r) (.head _), h (src1 r) (.tail _ (.head _))]
  | lzComp => simp only [commandOutput, cmdLzComp, h (src0 r) (.head _)]
  | lzDecomp => simp only [commandOutput, cmdLzDecomp, regionReader, h (src0 r) (.head _)]
  | secEnc => simp only [commandOutput, cmdSecEnc, regionReader, h (src0 r) (.head _)]
  | secDec => simp only [commandOutput, cmdSecDec, h (src0 r) (.head _)]

/-- Memory enters a completion only as what the outputs are stored over. -/
theorem complete_withMem (s : State) (m : Memory) (res : Except Cause Output) :
    State.complete { s with mem := m } res = { s.complete res with mem := (State.complete { s with mem := m } res).mem } := by
  cases res <;> rfl

/-- A byte that a stored string covers is the string's own, whatever the memory held. -/
theorem memRead_memWriteBytes_covered (m m' : Memory) {a x : Nat} {bs : List Byte} (h : a ≤ x ∧ x < a + bs.length) :
    memRead (memWriteBytes m' a bs) x = memRead (memWriteBytes m a bs) x := by
  simp only [memRead_memWriteBytes_storedByte, storedByte, if_pos h]

/-- The same two strings stored over two memories: each byte is the same in both, or untouched in both. -/
theorem memWriteBytes_same_or_untouched (m m' : Memory) (a0 a1 : Nat) (out0 out1 : List Byte) (x : Nat) :
    memRead (memWriteBytes (memWriteBytes m' a0 out0) a1 out1) x = memRead (memWriteBytes (memWriteBytes m a0 out0) a1 out1) x ∨
    (memRead (memWriteBytes (memWriteBytes m a0 out0) a1 out1) x = memRead m x ∧
      memRead (memWriteBytes (memWriteBytes m' a0 out0) a1 out1) x = memRead m' x) := by
  by_cases h1 : a1 ≤ x ∧ x < a1 + out1.length
  · exact .inl (memRead_memWriteBytes_covered _ _ h1)
  · simp only [memRead_memWriteBytes_outside _ a1 out1 x h1]
    by_cases h0 : a0 ≤ x ∧ x < a0 + out0.length
    · exact .inl (memRead_memWriteBytes_covered m m' h0)
    · exact .inr ⟨memRead_memWriteBytes_outside m a0 out0 x h0, memRead_memWriteBytes_outside m' a0 out0 x h0⟩

/-- The same result completed over two memories: each byte is the same in both, or untouched in both. -/
theorem complete_mem_same_or_untouched (s : State) (m : Memory) (res : Except Cause Output) (x : Nat) :
    memRead (State.complete { s with mem := m } res).mem x = memRead (s.complete res).mem x ∨
    (memRead (s.complete res).mem x = memRead s.mem x ∧ memRead (State.complete { s with mem := m } res).mem x = memRead m x) := by
  cases res with
  | ok o => exact memWriteBytes_same_or_untouched s.mem m s.lreg.dst0Addr.toNat s.lreg.dst1Addr.toNat o.out0 o.out1 x
  | error c => exact .inr ⟨rfl, rfl⟩

/-! ### Where each bit of a stream stands -/

/-- Bit `k` of a byte in stream order is its bit `7 − k` (20_memory.md R64). -/
theorem byteBits_getElem? (b : Byte) {k : Nat} (h : k < 8) : (byteBits b)[k]? = some (b.getLsbD (7 - k)) := by
  interval_cases k <;> rfl

/-- Bit `p` of a byte sequence is bit `7 − p mod 8` of byte `p div 8` (20_memory.md R64). -/
theorem bytesToBits_getElem? (bytes : List Byte) {p : Nat} (h : p < 8 * bytes.length) :
    (bytesToBits bytes)[p]? = some ((bytes.getD (p / 8) 0#8).getLsbD (7 - p % 8)) := by
  induction bytes generalizing p with
  | nil => simp at h
  | cons b bytes ih =>
    rw [bytesToBits]
    by_cases hp : p < 8
    · rw [List.getElem?_append_left hp, byteBits_getElem? b hp, Nat.div_eq_of_lt hp, Nat.mod_eq_of_lt hp]
      rfl
    · obtain ⟨q, rfl⟩ : ∃ q, p = q + 8 := ⟨p - 8, by omega⟩
      have hq : q < 8 * bytes.length := by simp only [List.length_cons] at h; omega
      rw [List.getElem?_append_right (by simp), byteBits_length, Nat.add_sub_cancel, ih hq,
        Nat.add_div_right q (by omega), Nat.add_mod_right]
      rfl

/-- Bit `k` of a field of `m` bits is bit `m − 1 − k` of its value (20_memory.md R66). -/
theorem natBits_getElem? {m : Nat} (v : Nat) {k : Nat} (h : k < m) : (natBits m v)[k]? = some (v.testBit (m - 1 - k)) := by
  induction m generalizing k with
  | zero => omega
  | succ m ih =>
    cases k with
    | zero => rfl
    | succ k =>
      rw [natBits, List.getElem?_cons_succ, ih (by omega)]
      congr 2
      omega

/-- With `m` bits left `get` answers a value of `m` bits, which stands at the front of the stream, and moves past them
(20_memory.md R65). -/
theorem getBits_of_le {r : BitReader} {m : Nat} (h : m ≤ r.rest.length) :
    ∃ v, getBits r m = .ok (v, ⟨r.pos + m, r.rest.drop m⟩) ∧ v < 2 ^ m ∧ r.rest = natBits m v ++ r.rest.drop m := by
  cases hg : getBits r m with
  | error c => exact absurd (getBits_eq_error.mp hg).1 (by omega)
  | ok q =>
    obtain ⟨v, pos, rest⟩ := q
    obtain ⟨hv, hrest, hpos⟩ := getBits_eq_ok hg
    have hdrop : r.rest.drop m = rest := by
      rw [hrest]
      exact List.drop_left' (natBits_length m v)
    obtain rfl : pos = r.pos + m := hpos
    rw [hdrop]
    exact ⟨v, rfl, hv, hrest⟩

/-! ### Negative counts -/

/-- A 32-bit count from `2^31` on is negative as a signed integer (20_memory.md R68). -/
theorem getCount_negative (pos : Nat) {v : Nat} (rest : List Bool) (hneg : 2147483648 ≤ v) (hv : v < 4294967296) :
    getCount ⟨pos, natBits 32 v ++ rest⟩ = .error .negativeCount := by
  rw [getCount, getBits_natBits pos 32 v rest hv, bind_ok]
  exact if_neg (by omega)

/-- A string whose length cannot be read fails as the length does (30_encoding.md R112). -/
theorem readString_of_getCount_error {r : BitReader} {c : Cause} (h : getCount r = .error c) : readString r = .error c := by
  rw [readString, h, bind_error]

/-- A record whose property count cannot be read fails as the count does (30_encoding.md R112). -/
theorem readRecord_of_getCount_error {r r' : BitReader} {name : List CodeUnit} {c : Cause} (hname : readString r = .ok (name, r'))
    (h : getCount r' = .error c) : readRecord r = .error c := by
  rw [readRecord, hname, bind_ok]
  dsimp only
  rw [h, bind_error]

/-! ### The step at the host's turn -/

theorem step_of_idle_nil {s : State} (hidle : s.phase = .idle) (hhost : s.host = []) : step s = .next s := by
  simp only [step, hidle, hhost]

theorem step_of_idle_cons {s : State} {op : HostOp} {ops : List HostOp} (hidle : s.phase = .idle) (hhost : s.host = op :: ops) :
    step s = hostStep op ops s := by
  simp only [step, hidle, hhost]

/-- While busy the host's turn is taken from the schedule (log 3). -/
theorem step_of_host_turn {s : State} {op : HostOp} {ops : List HostOp} {bs : List Bool} (hbusy : s.phase = .busy)
    (hhost : s.host = op :: ops) (hturn : s.schedule = false :: bs) : step s = hostStep op ops (s.withSchedule bs) := by
  simp only [step, hbusy, hhost, hturn]

/-! ### Host accesses to memory -/

theorem inRunningDest_of_not_busy {s : State} (h : busyFlag s.status = false) (a : Nat) : inRunningDest s a = false := by
  simp [inRunningDest, running, h]

theorem inRunningRegion_of_not_busy {s : State} (h : busyFlag s.status = false) (a : Nat) : inRunningRegion s a = false := by
  simp [inRunningRegion, running, h]

/-- While no command runs a read below `MEM_SIZE` returns the stored byte. -/
theorem hostMemRead_of_not_busy {s : State} {a : Nat} (ha : a < s.params.memSize) (h : busyFlag s.status = false) :
    hostMemRead a s = .next (s.saw (.mem a (memRead s.mem a))) := by
  simp [hostMemRead, memAccessWellFormed, ha, inRunningDest_of_not_busy h]

/-- While no command runs a write below `MEM_SIZE` stores its byte. -/
theorem hostMemWrite_of_not_busy {s : State} {a : Nat} (b : Byte) (ha : a < s.params.memSize) (h : busyFlag s.status = false) :
    hostMemWrite a b s = .next (s.storeByte a b) := by
  simp [hostMemWrite, memAccessWellFormed, ha, inRunningRegion_of_not_busy h]

end Sys2Proof.Machine
end

section
/-! PROOFS. The statements about the buffer memory and the bit streams (20_memory.md). -/

open Sys2Proof Sys2Proof.Machine

namespace Sys2Proof.Proofs

/-- Settles O11: each of the checks asks for an overlap, and an overlap is a common byte. -/
theorem overlapIsACommonByte : Obligations.OverlapIsACommonByte := by
  intro srcs dsts
  have hsrc : srcs.any (fun r => dsts.any (overlap r)) = true ↔
      ∃ a, (∃ r ∈ srcs, regionHolds r a = true) ∧ ∃ d ∈ dsts, regionHolds d a = true := by
    simp only [List.any_eq_true, overlap_eq_true]
    constructor
    · rintro ⟨r, hr, d, hd, a, hra, hda⟩
      exact ⟨a, ⟨r, hr, hra⟩, d, hd, hda⟩
    · rintro ⟨a, ⟨r, hr, hra⟩, d, hd, hda⟩
      exact ⟨r, hr, d, hd, a, hra, hda⟩
  have hdst : anyOverlap dsts = true ↔ ∃ (j k : Nat) (d e : Region) (a : Nat), j < k ∧ dsts[j]? = some d ∧ dsts[k]? = some e ∧
      regionHolds d a = true ∧ regionHolds e a = true := by
    simp only [anyOverlap_eq_true, overlap_eq_true, exists_and_left]
  rw [regionsOverlap, Bool.or_eq_true, hsrc, hdst]

/-- Settles O15: both completions are on the same result, since the command function reads its source regions only. -/
theorem commandsReadOnlyTheirSources : Obligations.CommandsReadOnlyTheirSources := by
  intro i s m hagree
  have hout : commandOutput i s.params s.lreg m = commandOutput i s.params s.lreg s.mem :=
    commandOutput_congr s.params fun g hg => regionBytes_congr fun a ha => hagree a ⟨g, hg, ha⟩
  refine ⟨_, _, exec_eq_complete i s, exec_eq_complete i { s with mem := m }, ?_⟩
  dsimp only
  rw [hout]
  exact ⟨complete_withMem s m _, complete_mem_same_or_untouched s m _⟩

/-- Settles O31: each clause is the rule of its operation on streams. -/
theorem bitStreamRules : Obligations.BitStreamRules := by
  refine ⟨fun bytes p hp => bytesToBits_getElem? bytes hp, fun r m h => getBits_eq_error.mpr ⟨h, rfl⟩, fun r m h => ?_,
    fun m v k => ⟨natBits_length m v, natBits_getElem? v⟩, fun bits => ⟨bytesToBits_bitsToBytes bits, bitsToBytes_length bits⟩⟩
  obtain ⟨v, hget, hv, hrest⟩ := getBits_of_le h
  refine ⟨v, hget, hv, fun k hk => ?_⟩
  rw [hrest, List.getElem?_append_left (by simpa using hk), natBits_getElem? v hk]

/-- Settles O33: the count is refused where it is read, as a string's length or after a name that reads back. -/
theorem negativeCountsAreRejected : Obligations.NegativeCountsAreRejected := by
  intro v pos rest hneg hv
  have hcount : ∀ pos, getCount ⟨pos, natBits 32 v ++ rest⟩ = .error .negativeCount := fun pos =>
    getCount_negative pos rest hneg hv
  exact ⟨hcount pos, readString_of_getCount_error (hcount pos), fun name hname =>
    readRecord_of_getCount_error (readString_stringBits pos name _ hname) (hcount _)⟩

/-- Settles O5: the rows of the step's table that do not complete. -/
theorem stepTakesTheHostEvent : Obligations.StepTakesTheHostEvent := by
  intro s
  exact ⟨step_of_idle_nil, fun _ _ => step_of_idle_cons, fun _ _ _ => step_of_host_turn⟩

/-- Settles O27: the boundary at MEM_SIZE, and below it the stored byte. -/
theorem hostMemoryAccess : Obligations.HostMemoryAccess := by
  intro s a b
  refine ⟨fun hout => ?_, fun hin hidle => ⟨hostMemRead_of_not_busy hin hidle, ?_⟩⟩
  · have hbad : memAccessWellFormed s.params a = false := decide_eq_false (by omega)
    simp [hostMemWrite, hostMemRead, hbad]
  · exact ⟨_, hostMemWrite_of_not_busy b hin hidle, rfl, memRead_memWrite_same s.mem a b,
      fun x hx => memRead_memWrite_other s.mem b hx⟩

end Sys2Proof.Proofs
end

section
/-! SUPPORT. What the statements of 30_encoding.md share: the command words, the checks before a command reads a byte, big-endian words,
packed units, block records and their readers on a longer stream, and the fields of a token. -/

open Sys2Proof Sys2Proof.Machine

namespace Sys2Proof.Machine

/-! ### Command words -/

/-- A word decodes to a command exactly when it is that command's encoding (30_encoding.md R90, R91). -/
theorem decode_eq_ok_iff {w : Word} {i : Instr} : decode w = .ok i ↔ w = encode i := by
  constructor
  · intro h
    obtain ⟨hrsvd, hop⟩ := decode_eq_ok h
    rw [word_fields w, hrsvd, hop, encode]
  · rintro rfl
    exact decode_encode i

/-- The opcodes of the table are 0x01 to 0x07 (30_encoding.md R91). -/
theorem exists_opcodeOf_iff (op : BitVec 8) : (∃ i, op = opcodeOf i) ↔ ¬ (op = 0x00#8 ∨ 0x08#8 ≤ op) := by
  constructor
  · rintro ⟨i, rfl⟩
    cases i <;> decide
  · intro h
    have every : ∀ op : BitVec 8, ¬ (op = 0x00#8 ∨ 0x08#8 ≤ op) →
        ∃ i ∈ [Instr.bitw, .palEnc, .palDec, .lzComp, .lzDecomp, .secEnc, .secDec], op = opcodeOf i := by decide
    obtain ⟨i, -, hi⟩ := every op h
    exact ⟨i, hi⟩

/-- The legal command words are those with zero reserved bits and an opcode of the table (30_encoding.md R93). -/
theorem exists_decode_eq_ok_iff (w : Word) :
    (∃ i, decode w = .ok i) ↔ ¬ (rsvdField w ≠ 0#24 ∨ opcodeField w = 0x00#8 ∨ 0x08#8 ≤ opcodeField w) := by
  rw [not_or, not_not, ← exists_opcodeOf_iff]
  constructor
  · rintro ⟨i, hi⟩
    obtain ⟨hrsvd, hop⟩ := decode_eq_ok hi
    exact ⟨hrsvd, i, hop⟩
  · rintro ⟨hrsvd, i, hop⟩
    refine ⟨i, decode_eq_ok_iff.mpr ?_⟩
    rw [word_fields w, hrsvd, hop, encode]

/-- The completion of a word that is no command is ILLEGAL_COMMAND (30_encoding.md R93). -/
theorem completion_of_illegal {s : State} (h : ¬ ∃ i, decode s.lcmd = .ok i) :
    completion s = .next (s.raise .illegalCommand) := by
  obtain ⟨i, hi, -⟩ | hc := completion_eq s
  · exact absurd ⟨i, hi⟩ h
  · exact hc

/-! ### The checks before a command reads a byte -/

/-- A failing check is the result of the command, whatever memory holds (30_encoding.md R96). -/
theorem commandOutput_of_checkCommand_error {i : Instr} {p : Params} {r : RwRegs} {c : Cause} (m : Memory)
    (h : checkCommand p i r = .error c) : commandOutput i p r m = .error c := by
  cases i with
  | bitw => rw [commandOutput, cmdBitw, h, bind_error]
  | palEnc => rw [commandOutput, cmdPalEnc, h, bind_error]
  | palDec => rw [commandOutput, cmdPalDec, h, bind_error]
  | lzComp => rw [commandOutput, cmdLzComp, h, bind_error]
  | lzDecomp => rw [commandOutput, cmdLzDecomp, h, bind_error]
  | secEnc => rw [commandOutput, cmdSecEnc, h, bind_error]
  | secDec => rw [commandOutput, cmdSecDec, h, bind_error]

theorem exec_of_checkCommand_error {i : Instr} {s : State} {c : Cause} (h : checkCommand s.params i s.lreg = .error c) :
    exec i s = .next (s.raise c) := by
  rw [exec_eq_complete, commandOutput_of_checkCommand_error s.mem h, complete_error]

theorem checkCommand_of_operands_error {p : Params} {i : Instr} {r : RwRegs} {c : Cause}
    (h : checkOperands p i r = .error c) : checkCommand p i r = .error c := by
  rw [checkCommand, h, bind_error]

theorem checkCommand_of_bounds_error {p : Params} {i : Instr} {r : RwRegs} (hops : checkOperands p i r = .ok ())
    (h : ∃ g ∈ sourceRegions i r ++ destRegions i r, p.memSize < g.addr + g.len) :
    checkCommand p i r = .error .badAddress := by
  have hbounds : checkBounds p (sourceRegions i r ++ destRegions i r) = .error .badAddress := by
    obtain ⟨g, hg, hlt⟩ := h
    exact checkBounds_eq_error.mpr ⟨rfl, g, hg, decide_eq_false (by omega)⟩
  rw [checkCommand, hops, bind_ok, hbounds, bind_error]

theorem checkCommand_of_overlap {p : Params} {i : Instr} {r : RwRegs} (hops : checkOperands p i r = .ok ())
    (hbounds : ∀ g ∈ sourceRegions i r ++ destRegions i r, g.addr + g.len ≤ p.memSize)
    (h : regionsOverlap (sourceRegions i r) (destRegions i r) = true) : checkCommand p i r = .error .regionOverlap := by
  have hbounds : checkBounds p (sourceRegions i r ++ destRegions i r) = .ok () :=
    checkBounds_eq_ok.mpr fun g hg => decide_eq_true (hbounds g hg)
  rw [checkCommand, hops, bind_ok, hbounds, bind_ok, checkOverlap, if_pos h]

/-! ### Big-endian words -/

theorem bytesValue_lt (bs : List Byte) : bytesValue bs < 2 ^ (8 * bs.length) := by
  induction bs with
  | nil => simp [bytesValue]
  | cons b bs ih =>
    calc b.toNat * 2 ^ (8 * bs.length) + bytesValue bs
        < (b.toNat + 1) * 2 ^ (8 * bs.length) := by rw [Nat.succ_mul b.toNat]; omega
      _ ≤ 2 ^ 8 * 2 ^ (8 * bs.length) := Nat.mul_le_mul_right _ b.isLt
      _ = 2 ^ (8 * (bs.length + 1)) := by rw [← Nat.pow_add]; congr 1; omega

/-- A field of `k + m` bits is a field of `k` bits followed by one of `m` bits. -/
theorem natBits_add (k m x : Nat) {y : Nat} (hy : y < 2 ^ m) : natBits (k + m) (x * 2 ^ m + y) = natBits k x ++ natBits m y := by
  refine List.ext_getElem? fun j => ?_
  by_cases hj : j < k
  · rw [List.getElem?_append_left (by simpa using hj), natBits_getElem? _ (by omega), natBits_getElem? _ hj, Nat.mul_comm x,
      Nat.testBit_two_pow_mul_add x hy, if_neg (by omega)]
    congr 2; omega
  · rw [List.getElem?_append_right (by simpa using hj), natBits_length]
    by_cases hjm : j - k < m
    · rw [natBits_getElem? _ (by omega), natBits_getElem? _ hjm, Nat.mul_comm x, Nat.testBit_two_pow_mul_add x hy,
        if_pos (by omega)]
      congr 2; omega
    · rw [List.getElem?_eq_none (by simp; omega), List.getElem?_eq_none (by simp; omega)]

/-- The stream of a byte string is the field of its big-endian value (20_memory.md R63, R64). -/
theorem bytesToBits_eq_natBits (bs : List Byte) : bytesToBits bs = natBits (8 * bs.length) (bytesValue bs) := by
  induction bs with
  | nil => rfl
  | cons b bs ih =>
    have hbyte : byteBits b = natBits 8 b.toNat := by simpa using byteBits_ofNat b.toNat
    rw [bytesToBits, hbyte, ih, ← natBits_add 8 _ b.toNat (bytesValue_lt bs), List.length_cons, bytesValue,
      Nat.mul_add_one, Nat.add_comm (8 * bs.length)]

theorem memBytes_add (m : Memory) (a n k : Nat) : memBytes m a (n + k) = memBytes m a n ++ memBytes m (a + n) k := by
  induction n generalizing a with
  | zero => simp [memBytes]
  | succ n ih => rw [Nat.succ_add, memBytes, memBytes, ih, List.cons_append, Nat.add_assoc a 1 n, Nat.add_comm 1 n]

/-- The stream over `n` words of memory is their fields of 32 bits (30_encoding.md R114). -/
theorem bytesToBits_memBytes_words (m : Memory) (a n : Nat) :
    bytesToBits (memBytes m a (4 * n)) = unitBits 32 ((List.range n).map fun k => memReadBE m (a + 4 * k) 4) := by
  induction n with
  | zero => rfl
  | succ n ih =>
    rw [Nat.mul_succ, memBytes_add, bytesToBits_append, ih, bytesToBits_eq_natBits (memBytes m (a + 4 * n) 4), memBytes_length,
      List.range_succ, List.map_append, unitBits_append, List.map_singleton, unitBits, unitBits, List.append_nil, memReadBE]

theorem memReadBE_lt (m : Memory) (a n : Nat) : memReadBE m a n < 2 ^ (8 * n) := by
  simpa [memReadBE] using bytesValue_lt (memBytes m a n)

/-- A big-endian read is the sum of its bytes by their weights (20_memory.md R63). -/
theorem memReadBE_eq_sum (m : Memory) (a n : Nat) :
    memReadBE m a n = ((List.range n).map fun k => (memRead m (a + k)).toNat * 2 ^ (8 * (n - 1 - k))).sum := by
  induction n generalizing a with
  | zero => rfl
  | succ n ih =>
    have htail : ∀ k, memRead m (a + 1 + k) = memRead m (a + (k + 1)) ∧ n - 1 - k = n + 1 - 1 - (k + 1) := fun k =>
      ⟨by rw [Nat.add_assoc, Nat.add_comm 1], by omega⟩
    rw [memReadBE, memBytes, bytesValue, memBytes_length, ← memReadBE, ih, List.range_succ_eq_map]
    simp [htail, Function.comp_def]

theorem bytesValue_bytesOf (n v : Nat) : bytesValue (bytesOf n v) = v % 2 ^ (8 * n) := by
  induction n with
  | zero => simp [bytesOf, bytesValue, Nat.mod_one]
  | succ n ih =>
    rw [bytesOf, bytesValue, bytesOf_length, ih, Nat.mul_succ, Nat.pow_add, Nat.mod_mul, BitVec.toNat_ofNat]
    ring

theorem bytesOf_getElem? {n : Nat} (v : Nat) {k : Nat} (h : k < n) :
    (bytesOf n v)[k]? = some (BitVec.ofNat 8 (v / 2 ^ (8 * (n - 1 - k)))) := by
  induction n generalizing k with
  | zero => omega
  | succ n ih =>
    cases k with
    | zero => rfl
    | succ k =>
      rw [bytesOf, List.getElem?_cons_succ, ih (by omega)]
      congr 5; omega

/-- What a big-endian write stores reads back (20_memory.md R63). -/
theorem memReadBE_memWriteBE (m : Memory) (a n v : Nat) (h : v < 2 ^ (8 * n)) : memReadBE (memWriteBE m a n v) a n = v := by
  have hbytes := memBytes_memWriteBytes m a (bytesOf n v)
  rw [bytesOf_length] at hbytes
  rw [memReadBE, memWriteBE, hbytes, bytesValue_bytesOf, Nat.mod_eq_of_lt h]

theorem memRead_memWriteBE_inside (m : Memory) (a v : Nat) {n k : Nat} (h : k < n) :
    memRead (memWriteBE m a n v) (a + k) = BitVec.ofNat 8 (v / 2 ^ (8 * (n - 1 - k))) := by
  have hk : k < (bytesOf n v).length := by rwa [bytesOf_length]
  rw [memWriteBE, memRead_memWriteBytes_inside m a _ k hk]
  exact Option.some.inj ((List.getElem?_eq_getElem hk).symm.trans (bytesOf_getElem? v h))

theorem memRead_memWriteBE_outside (m : Memory) (a n v : Nat) {x : Nat} (h : ¬ (a ≤ x ∧ x < a + n)) :
    memRead (memWriteBE m a n v) x = memRead m x :=
  memRead_memWriteBytes_outside m a _ x (by rwa [bytesOf_length])

/-! ### Packed units -/

/-- Bit `j` of unit `k` stands at bit `k·W + j` (30_encoding.md R118). -/
theorem unitBits_getElem? {w : Nat} {u : List Nat} {k j : Nat} (hk : k < u.length) (hj : j < w) :
    (unitBits w u)[k * w + j]? = some ((u.getD k 0).testBit (w - 1 - j)) := by
  induction u generalizing k with
  | nil => simp at hk
  | cons x u ih =>
    cases k with
    | zero => rw [Nat.zero_mul, Nat.zero_add, unitBits, List.getElem?_append_left (by simpa using hj), natBits_getElem? x hj]; rfl
    | succ k =>
      rw [Nat.succ_mul, Nat.add_right_comm, unitBits, List.getElem?_append_right (by simp), natBits_length, Nat.add_sub_cancel,
        ih (Nat.lt_of_succ_lt_succ hk)]
      rfl

theorem bytesToBits_pack (u : List Nat) (w : Nat) : bytesToBits (pack u w) = alignBits (unitBits w u) :=
  bytesToBits_bitsToBytes _

/-- After the last unit the packed bytes hold 0 bits (30_encoding.md R118). -/
theorem bytesToBits_pack_padding {u : List Nat} {w p : Nat} (hlo : u.length * w ≤ p) (hhi : p < 8 * (pack u w).length) :
    (bytesToBits (pack u w))[p]? = some false := by
  have hlen : (unitBits w u).length = u.length * w := unitBits_length w u
  have hsize := congrArg List.length (bytesToBits_pack u w)
  rw [bytesToBits_length] at hsize
  rw [hsize, alignBits, List.length_append] at hhi
  rw [bytesToBits_pack, alignBits, List.getElem?_append_right (by omega),
    List.getElem?_eq_getElem (by omega), List.getElem_replicate]

/-- Packed units read back, whatever follows them (30_encoding.md R118). -/
theorem unpack_pack (u : List Nat) (w : Nat) (extra : List Byte) (h : ∀ x ∈ u, x < 2 ^ w) :
    unpack (pack u w ++ extra) w u.length = .ok u := by
  rw [unpack, readerOf, bytesToBits_append, bytesToBits_pack, alignBits, List.append_assoc, getMany_unitBits w 0 u _ h, bind_ok]

/-! ### Block records -/

/-- A record that was written reads back as its block, or is DUPLICATE_KEY when a key repeats (30_encoding.md R112, R113). -/
theorem readRecord_recordBits {b : Block} (pos : Nat) (rest : List Bool) (hname : b.name.length < 2147483648)
    (hcount : b.props.length < 2147483648)
    (hprops : ∀ kv ∈ b.props, kv.1.length < 2147483648 ∧ kv.2.length < 2147483648) :
    readRecord ⟨pos, recordBits b ++ rest⟩ =
      if (b.props.map Prod.fst).Nodup then .ok (b, ⟨pos + (recordBits b).length, rest⟩) else .error .duplicateKey := by
  rw [recordBits, List.append_assoc, List.append_assoc, readRecord, readString_stringBits pos b.name _ hname, bind_ok]
  dsimp only
  rw [getCount_natBits _ _ _ hcount, bind_ok]
  dsimp only
  rw [readProps_bits b.props [] _ rest hprops List.nodup_nil, List.nil_append]
  split
  · simp only [bind_ok, List.length_append, natBits_length, Nat.add_assoc]
  · rfl

/-- Reading a record: the bits it was read from are the record of what was read, a legal block (30_encoding.md R113). -/
theorem readRecord_eq_ok {r r' : BitReader} {b : Block} (h : readRecord r = .ok (b, r')) :
    r.rest = recordBits b ++ r'.rest ∧ r'.pos = r.pos + (recordBits b).length ∧ b.Legal := by
  rw [readRecord] at h
  obtain ⟨⟨name, r1⟩, hname, h⟩ := bind_eq_ok.mp h
  obtain ⟨⟨n, r2⟩, hcount, h⟩ := bind_eq_ok.mp h
  obtain ⟨⟨props, r3⟩, hprops, h⟩ := bind_eq_ok.mp h
  cases h
  obtain ⟨hnameLt, hnameBits, hnamePos⟩ := readString_eq_ok hname
  obtain ⟨hcountLt, hcountBits, hcountPos⟩ := getCount_eq_ok hcount
  obtain ⟨q, rfl, rfl, hpropsBits, hpropsPos, hpropsLt, hnodup⟩ := readProps_eq_ok hprops
  refine ⟨?_, ?_, hnodup List.nodup_nil, hnameLt, hcountLt, hpropsLt⟩
  · simp [recordBits, hnameBits, hcountBits, hpropsBits]
  · simp only [recordBits, List.length_append, natBits_length]
    omega

theorem unitBits_eq_flatMap (w : Nat) (u : List Nat) : unitBits w u = u.flatMap (natBits w) := by
  induction u with
  | nil => rfl
  | cons x u ih => rw [unitBits, ih, List.flatMap_cons]

/-- A sized string is its length in 32 bits and its code units in 16 bits each (30_encoding.md R110). -/
theorem stringBits_eq_flatMap (u : List CodeUnit) :
    stringBits u = natBits 32 u.length ++ u.flatMap fun c => natBits 16 c.toNat := by
  rw [stringBits, unitBits_eq_flatMap, List.flatMap_map]

theorem propsBits_eq_flatMap (ps : List (List CodeUnit × List CodeUnit)) :
    propsBits ps = ps.flatMap fun kv => stringBits kv.1 ++ stringBits kv.2 := by
  induction ps with
  | nil => rfl
  | cons kv ps ih => rw [propsBits, ih, List.flatMap_cons]

/-! ### Readers on a longer stream -/

/-- The reader with `extra` after its last bit. -/
def BitReader.extend (r : BitReader) (extra : List Bool) : BitReader := ⟨r.pos, r.rest ++ extra⟩

/-- A reader that looks at its stream from the front only: with more bits after the last one it answers as before, save where the
stream had ended too early. -/
structure ReadsFromFront {α : Type} (f : BitReader → Except Cause (α × BitReader)) : Prop where
  ok : ∀ {r r' : BitReader} {a : α} (extra : List Bool), f r = .ok (a, r') → f (r.extend extra) = .ok (a, r'.extend extra)
  error : ∀ {r : BitReader} {c : Cause} (extra : List Bool), f r = .error c → c ≠ .prematureEnd → f (r.extend extra) = .error c

namespace ReadsFromFront

variable {α β : Type}

/-- Answering without reading. -/
theorem pure (a : α) : ReadsFromFront fun r => .ok (a, r) where
  ok := by rintro r r' a' extra h; cases h; rfl
  error := by rintro r c extra h; cases h

theorem fail (c : Cause) : ReadsFromFront fun _ => (.error c : Except Cause (α × BitReader)) where
  ok := by rintro r r' a extra h; cases h
  error := by rintro r c' extra h -; exact h

/-- One reading after another. -/
theorem bind {f : BitReader → Except Cause (α × BitReader)} {g : α → BitReader → Except Cause (β × BitReader)}
    (hf : ReadsFromFront f) (hg : ∀ a, ReadsFromFront (g a)) : ReadsFromFront fun r => f r >>= fun x => g x.1 x.2 where
  ok := by
    intro r r' b extra h
    obtain ⟨⟨a, r1⟩, ha, hb⟩ := bind_eq_ok.mp h
    exact bind_eq_ok.mpr ⟨_, hf.ok extra ha, (hg a).ok extra hb⟩
  error := by
    intro r c extra h hc
    obtain h | ⟨⟨a, r1⟩, ha, hb⟩ := bind_eq_error.mp h
    · exact bind_eq_error.mpr (.inl (hf.error extra h hc))
    · exact bind_eq_error.mpr (.inr ⟨_, hf.ok extra ha, (hg a).error extra hb hc⟩)

/-- A test on what was read so far. -/
theorem ite {p : Prop} [Decidable p] {f g : BitReader → Except Cause (α × BitReader)} (hf : ReadsFromFront f)
    (hg : ReadsFromFront g) : ReadsFromFront fun r => if p then f r else g r := by
  by_cases h : p
  · simpa only [if_pos h] using hf
  · simpa only [if_neg h] using hg

/-- A reading that would have succeeded with the missing bits, and would have used one of them, ends in PREMATURE_END. -/
theorem prematureEnd_of_cut {f : BitReader → Except Cause (α × BitReader)} (hf : ReadsFromFront f) {r r' : BitReader} {a : α}
    {missing : List Bool} (h : f (r.extend missing) = .ok (a, r')) (hused : r'.rest.length < missing.length) :
    f r = .error .prematureEnd := by
  cases hr : f r with
  | ok x =>
    obtain ⟨a', r1⟩ := x
    cases (hf.ok missing hr).symm.trans h
    simp [BitReader.extend] at hused
  | error c =>
    by_cases hc : c = .prematureEnd
    · rw [hc]
    · cases (hf.error missing hr hc).symm.trans h

end ReadsFromFront

theorem getBits_readsFromFront (m : Nat) : ReadsFromFront fun r => getBits r m where
  ok := by
    intro r r' v extra h
    obtain ⟨hv, hrest, hpos⟩ := getBits_eq_ok h
    rw [BitReader.extend, BitReader.extend, hrest, List.append_assoc, getBits_natBits _ _ _ _ hv, hpos]
  error := by
    intro r c extra h hc
    exact absurd (getBits_error_mem h) hc

theorem getCount_readsFromFront : ReadsFromFront getCount :=
  (getBits_readsFromFront 32).bind fun v => .ite (p := v < 2147483648) (.pure v) (.fail .negativeCount)

theorem readUnits_readsFromFront (n : Nat) : ReadsFromFront (readUnits n) := by
  induction n with
  | zero => exact .pure []
  | succ n ih => exact (getBits_readsFromFront 16).bind fun v => ih.bind fun vs => .pure (BitVec.ofNat 16 v :: vs)

theorem readString_readsFromFront : ReadsFromFront readString :=
  getCount_readsFromFront.bind readUnits_readsFromFront

theorem readProps_readsFromFront (n : Nat) (props : List (List CodeUnit × List CodeUnit)) :
    ReadsFromFront (readProps n props) := by
  induction n generalizing props with
  | zero => exact .pure props
  | succ n ih =>
    exact readString_readsFromFront.bind fun key => readString_readsFromFront.bind fun val =>
      .ite (p := props.any (fun kv => kv.1 == key) = true) (.fail .duplicateKey) (ih (props ++ [(key, val)]))

theorem readRecord_readsFromFront : ReadsFromFront readRecord :=
  readString_readsFromFront.bind fun name => getCount_readsFromFront.bind fun n =>
    (readProps_readsFromFront n []).bind fun props => .pure (Block.mk name props)

/-- A legal block's record cut short is PREMATURE_END (20_memory.md R65, 30_encoding.md R112). -/
theorem readRecord_cut {b : Block} (hb : b.Legal) (pos : Nat) {k : Nat} (hk : k < (recordBits b).length) :
    readRecord ⟨pos, (recordBits b).take k⟩ = .error .prematureEnd := by
  obtain ⟨hnodup, hname, hcount, hprops⟩ := hb
  have hfull := readRecord_recordBits pos [] hname hcount hprops
  rw [if_pos hnodup, List.append_nil, ← List.take_append_drop k (recordBits b)] at hfull
  refine readRecord_readsFromFront.prematureEnd_of_cut (missing := (recordBits b).drop k) hfull ?_
  rw [List.length_drop]
  exact Nat.sub_pos_of_lt hk

/-! ### Tokens -/

theorem getBits_one_cons (pos : Nat) (f : Bool) (bits : List Bool) :
    getBits ⟨pos, f :: bits⟩ 1 = .ok (f.toNat, ⟨pos + 1, bits⟩) := by
  simp [getBits, takeBits]

/-- After flag 0 a token is a unit of `W` bits (30_encoding.md R117, 42_lzss.md R204). -/
theorem decodeToken_literal (cc : CopyCount) (h : LzHeader) (pos : Nat) (bits : List Bool) (out : List Nat) :
    decodeToken cc h ⟨pos, false :: bits⟩ out = (getBits ⟨pos + 1, bits⟩ h.width >>= fun x => .ok (out ++ [x.1], x.2)) := by
  rw [decodeToken, getBits_one_cons, bind_ok]
  rfl

/-- After flag 1 a token is an offset and a length, and expands the match (30_encoding.md R117, 42_lzss.md R204). -/
theorem decodeToken_match (cc : CopyCount) (h : LzHeader) (pos : Nat) (bits : List Bool) (out : List Nat) :
    decodeToken cc h ⟨pos, true :: bits⟩ out = (getBits ⟨pos + 1, bits⟩ (b2r h.search) >>= fun x =>
      getBits x.2 (b2r h.lookahead) >>= fun y => expandMatch cc x.1 y.1 out >>= fun out' => .ok (out', y.2)) := by
  rw [decodeToken, getBits_one_cons, bind_ok]
  rfl

theorem decodeToken_nil (cc : CopyCount) (h : LzHeader) (pos : Nat) (out : List Nat) :
    decodeToken cc h ⟨pos, []⟩ out = .error .prematureEnd :=
  rfl

theorem decodeToken_literal_cut (cc : CopyCount) (h : LzHeader) (pos : Nat) {bits : List Bool} (out : List Nat)
    (hcut : bits.length < h.width) : decodeToken cc h ⟨pos, false :: bits⟩ out = .error .prematureEnd := by
  rw [decodeToken_literal, getBits_eq_error.mpr ⟨hcut, rfl⟩, bind_error]

/-- A body that ends inside the two fields of a match: at the offset, or after it at the length. -/
theorem decodeToken_match_cut (cc : CopyCount) (h : LzHeader) (pos : Nat) {bits : List Bool} (out : List Nat)
    (hcut : bits.length < b2r h.search + b2r h.lookahead) :
    decodeToken cc h ⟨pos, true :: bits⟩ out = .error .prematureEnd := by
  rw [decodeToken_match]
  by_cases hoff : bits.length < b2r h.search
  · rw [getBits_eq_error.mpr ⟨hoff, rfl⟩, bind_error]
  · obtain ⟨off, hget, -, -⟩ := getBits_of_le (r := ⟨pos + 1, bits⟩) (m := b2r h.search) (by simpa using hoff)
    have hlen : (bits.drop (b2r h.search)).length < b2r h.lookahead := by rw [List.length_drop]; omega
    rw [hget, bind_ok, getBits_eq_error.mpr ⟨hlen, rfl⟩, bind_error]

theorem decodeToken_literal_bits (cc : CopyCount) (h : LzHeader) (pos : Nat) {v : Nat} (rest : List Bool) (out : List Nat)
    (hv : v < 2 ^ h.width) :
    decodeToken cc h ⟨pos, false :: natBits h.width v ++ rest⟩ out = .ok (out ++ [v], ⟨pos + (1 + h.width), rest⟩) := by
  rw [List.cons_append, decodeToken_literal, getBits_natBits _ _ _ _ hv, bind_ok, Nat.add_assoc]

theorem decodeToken_match_bits (cc : CopyCount) (h : LzHeader) (pos : Nat) {off len : Nat} (rest : List Bool) (out : List Nat)
    (hoff : off < 2 ^ b2r h.search) (hlen : len < 2 ^ b2r h.lookahead) :
    decodeToken cc h ⟨pos, true :: (natBits (b2r h.search) off ++ natBits (b2r h.lookahead) len) ++ rest⟩ out =
      (expandMatch cc off len out >>= fun out' => .ok (out', ⟨pos + (1 + b2r h.search + b2r h.lookahead), rest⟩)) := by
  rw [List.cons_append, List.append_assoc, decodeToken_match, getBits_natBits _ _ _ _ hoff, bind_ok,
    getBits_natBits _ _ _ _ hlen, bind_ok, Nat.add_assoc, Nat.add_assoc, Nat.add_assoc]

/-! ### `wait` -/

/-- A round of `wait` that finds BUSY is repeated (30_encoding.md R121; log 8). -/
theorem hostPoll_busy {s : State} (ops : List HostOp) (h : busyFlag s.status = true) :
    hostPoll ops s = (s.withHost (.poll :: ops)).saw (.reg (offsetOf .status) s.status) := by
  rw [hostPoll, if_pos h]

theorem hostPoll_not_busy {s : State} (ops : List HostOp) (h : busyFlag s.status = false) :
    hostPoll ops s = (s.withHost ops).saw (.reg (offsetOf .status) s.status) := by
  rw [hostPoll, if_neg (by simp [h])]

end Sys2Proof.Machine
end

section
/-! PROOFS. The statements about command words, packed units, records and tokens (30_encoding.md). -/

open Sys2Proof Sys2Proof.Machine

namespace Sys2Proof.Proofs

/-- Settles O2: the two fields make up the word, and the decoder asks for the encoder's. -/
theorem decodeInvertsEncode : Obligations.DecodeInvertsEncode := by
  intro w i
  exact decode_eq_ok_iff

/-- Settles O3: an illegal word is latched like any other, and no command is found for it at its completion. -/
theorem illegalWordEndsInIllegalCommand : Obligations.IllegalWordEndsInIllegalCommand := by
  refine ⟨exists_decode_eq_ok_iff, fun w hw => ⟨fun s => hostRegWrite_cmd_idle s w, fun s hturn hlcmd => ?_⟩⟩
  have hlatched : s.atCoreTurn.lcmd = w := (atCoreTurn_lcmd s).trans hlcmd
  have hillegal : ¬ ∃ i, decode s.atCoreTurn.lcmd = .ok i := by
    rw [hlatched, exists_decode_eq_ok_iff]
    exact not_not.mpr hw
  rw [step_of_coreTurn hturn, completion_of_illegal hillegal, ← hlatched]
  rfl

/-- Settles O10: the first check of a command that fails is its result. -/
theorem checksComeInOrder : Obligations.ChecksComeInOrder := by
  intro i s
  exact ⟨fun c h => exec_of_checkCommand_error (checkCommand_of_operands_error h),
    fun hops h => exec_of_checkCommand_error (checkCommand_of_bounds_error hops h),
    fun hops hbounds h => exec_of_checkCommand_error (checkCommand_of_overlap hops hbounds h)⟩

/-- Settles O32: the stream over a region is the fields of its words. -/
theorem wordsAreBigEndian : Obligations.WordsAreBigEndian := by
  refine ⟨fun m a n => ?_, memReadBE_eq_sum, fun m a n v hv =>
    ⟨memReadBE_memWriteBE m a n v hv, fun k => memRead_memWriteBE_inside m a v, fun x => memRead_memWriteBE_outside m a n v⟩⟩
  have hwords := getMany_unitBits 32 0 ((List.range n).map fun k => memReadBE m (a + 4 * k) 4) [] fun x hx => by
    obtain ⟨k, -, rfl⟩ := List.mem_map.mp hx
    exact memReadBE_lt m (a + 4 * k) 4
  rw [List.length_map, List.length_range, List.append_nil, ← bytesToBits_memBytes_words] at hwords
  exact ⟨_, hwords⟩

/-- Settles O34: the packed bytes are the units' fields and the padding. -/
theorem unpackInvertsPack : Obligations.UnpackInvertsPack := by
  intro u w _ _ hu
  refine ⟨fun k j hk hj => ?_, fun p => bytesToBits_pack_padding, pack_length u w, fun extra => unpack_pack u w extra hu⟩
  have hbit := unitBits_getElem? hk hj
  obtain ⟨hin, -⟩ := List.getElem?_eq_some_iff.mp hbit
  rw [bytesToBits_pack, alignBits, List.getElem?_append_left hin, hbit]

/-- Settles O35: what was written reads back, and a reader that looks from the front only cannot finish a record cut short. -/
theorem recordReadsBack : Obligations.RecordReadsBack := by
  intro b pos hb
  refine ⟨fun rest => ?_, fun k => readRecord_cut hb pos⟩
  obtain ⟨hnodup, hname, hcount, hprops⟩ := hb
  rw [readRecord_recordBits pos rest hname hcount hprops, if_pos hnodup]

/-- Settles O36: a record is made of sized strings, and reading inverts writing field by field. -/
theorem recordRewritesItsBits : Obligations.RecordRewritesItsBits := by
  refine ⟨fun b => ?_, fun r r' b => readRecord_eq_ok⟩
  simp only [recordBits, propsBits_eq_flatMap, stringBits_eq_flatMap, List.append_assoc]

/-- Settles O37: the property loop meets the second of two equal keys. -/
theorem duplicateKeyIsRejected : Obligations.DuplicateKeyIsRejected := by
  intro b pos rest hdup hname hcount hprops
  rw [readRecord_recordBits pos rest hname hcount hprops, if_neg hdup]

/-- Settles O51: each clause is the reading of its fields. -/
theorem tokensAreReadFieldByField : Obligations.TokensAreReadFieldByField := by
  intro h pos out rest
  refine ⟨fun v hv => decodeToken_literal_bits _ h pos rest out hv, fun off len hoff hlen => ?_, decodeToken_nil _ h pos out,
    decodeToken_literal_cut _ h pos out, decodeToken_match_cut _ h pos out⟩
  rw [decodeToken_match_bits _ h pos rest out hoff hlen]
  cases expandMatch Config.copyCount off len out <;> rfl

/-- Settles O1: seven encodings, and the edges of the reserved opcodes and of the reserved bits. -/
theorem tableWordsDecode : Obligations.TableWordsDecode :=
  ⟨decode_encode .bitw, decode_encode .palEnc, decode_encode .palDec, decode_encode .lzComp, decode_encode .lzDecomp,
    decode_encode .secEnc, decode_encode .secDec, rfl, rfl, rfl, rfl⟩

/-- Settles O30: one round of `wait` in each of the two cases of bit 0. -/
theorem waitPollsUntilNotBusy : Obligations.WaitPollsUntilNotBusy := by
  intro s ops
  exact ⟨fun h => congrArg _ (hostPoll_busy ops h), fun h => congrArg _ (hostPoll_not_busy ops h)⟩

end Sys2Proof.Proofs
end

section
/-! SUPPORT. What `b2r` is least for, and the two results of `BITW` (40_bitwidth.md). -/

open Sys2Proof Sys2Proof.Machine

namespace Sys2Proof.Machine

/-! ### Bit widths -/

@[simp] theorem b2r_zero : b2r 0 = 0 := rfl

theorem b2r_of_pos {n : Nat} (h : 0 < n) : b2r n = Nat.log2 n + 1 := if_neg h.ne'

/-- `b2r n` is the least `k` with `n < 2 ^ k` (40_bitwidth.md R140): the one fact its laws follow from. -/
theorem b2r_le_iff {n k : Nat} : b2r n ≤ k ↔ n < 2 ^ k := by
  obtain rfl | h := n.eq_zero_or_pos
  · simp
  · rw [b2r_of_pos h, Nat.add_one_le_iff, Nat.log2_lt h.ne']

theorem lt_two_pow_b2r (n : Nat) : n < 2 ^ b2r n := b2r_le_iff.mp le_rfl

theorem two_pow_le_iff_lt_b2r {n k : Nat} : 2 ^ k ≤ n ↔ k < b2r n := by
  rw [← not_lt, ← b2r_le_iff, not_le]

theorem b2r_pos {n : Nat} (h : 0 < n) : 0 < b2r n := two_pow_le_iff_lt_b2r.mp h

theorem two_pow_b2r_sub_one_le {n : Nat} (h : 0 < n) : 2 ^ (b2r n - 1) ≤ n :=
  two_pow_le_iff_lt_b2r.mpr (Nat.sub_one_lt (b2r_pos h).ne')

theorem b2r_mono {m n : Nat} (h : m ≤ n) : b2r m ≤ b2r n :=
  b2r_le_iff.mpr (h.trans_lt (lt_two_pow_b2r n))

/-- The recursion of 40_bitwidth.md R140: halving `n` takes one bit away, so both sides are at most the same numbers. -/
theorem b2r_half {n : Nat} (h : 0 < n) : b2r n = 1 + b2r (n / 2) := by
  refine eq_of_forall_ge_iff fun k => ?_
  cases k with
  | zero => have := b2r_pos h; omega
  | succ k => rw [Nat.add_comm 1, Nat.add_le_add_iff_right, b2r_le_iff, b2r_le_iff, Nat.pow_succ,
      Nat.div_lt_iff_lt_mul Nat.two_pos]

theorem b2r_eq_of_least {n k : Nat} (hk : n < 2 ^ k) (hleast : ∀ j, n < 2 ^ j → k ≤ j) : b2r n = k :=
  le_antisymm (b2r_le_iff.mpr hk) (hleast _ (lt_two_pow_b2r n))

/-- The clamp to 1 does not matter to an upper bound of at least 1 (43_section.md R231). -/
theorem indexWidth_le_iff {n k : Nat} (hk : 1 ≤ k) : indexWidth n ≤ k ↔ n < 2 ^ k := by
  rw [indexWidth, max_le_iff, b2r_le_iff, and_iff_right hk]

/-! ### BITW -/

/-- BITW uses no operand that can be out of range and no region, so no check of it fails (40_bitwidth.md R141). -/
theorem checkCommand_bitw (p : Params) (r : RwRegs) : checkCommand p .bitw r = .ok () := rfl

theorem cmdBitw_eq_ok (p : Params) (r : RwRegs) :
    cmdBitw p r = .ok { out0 := [], out1 := [], res0 := b2r r.arg0.toNat, res1 := 0, res2 := 0, res3 := 0 } := by
  rw [cmdBitw, checkCommand_bitw, bind_ok]

end Sys2Proof.Machine
end

section
/-! PROOFS. The statements about bit widths (40_bitwidth.md). -/

open Sys2Proof Sys2Proof.Machine

namespace Sys2Proof.Proofs

/-- Settles O38: no check of BITW fails, its result is the bit width, and it has no output bytes to store. -/
theorem bitwGivesTheLeastWidth : Obligations.BitwGivesTheLeastWidth := by
  intro s k hk hleast
  rw [exec_bitw, cmdBitw_eq_ok, complete_ok, b2r_eq_of_least hk hleast]
  rfl

/-- Settles O39: each law is the least-width property at one bound, the recursion at every bound. -/
theorem bitWidthLaws : Obligations.BitWidthLaws := by
  refine ⟨b2r_zero, fun n => b2r_half, fun n h => ?_, fun m n => b2r_mono, lt_two_pow_b2r, fun n => two_pow_b2r_sub_one_le,
    fun n k => b2r_le_iff.mpr, fun n h => b2r_le_iff.mpr h, fun n h => b2r_le_iff.mpr (Nat.lt_succ_of_le h), fun n => ?_⟩
  · rw [b2r_of_pos h, Nat.log2_eq_log_two]
  · rw [indexWidth_le_iff (by decide)]
    exact Nat.lt_succ_iff (n := 65535)

end Sys2Proof.Proofs
end

section
/-! SUPPORT. Block records one after another, and what the palette loop gives cell after cell (41_palette.md). -/

open Sys2Proof Sys2Proof.Machine

namespace Sys2Proof.Machine

/-! ### Blocks as values -/

@[refl] theorem SameBlock.refl (a : Block) : SameBlock a a := ⟨rfl, fun _ => Iff.rfl⟩

@[symm] theorem SameBlock.symm {a b : Block} (h : SameBlock a b) : SameBlock b a := ⟨h.1.symm, fun kv => (h.2 kv).symm⟩

/-- Blocks of one value list the same properties, each once, so their records are equally long. -/
theorem SameBlock.recordBits_length_eq {a b : Block} (h : SameBlock a b) (ha : a.Legal) (hb : b.Legal) :
    (recordBits a).length = (recordBits b).length := by
  obtain ⟨hname, hprops⟩ := h
  have hperm : a.props.Perm b.props := (List.perm_ext_iff_of_nodup ha.1.of_map hb.1.of_map).mpr hprops
  have hbits : (propsBits a.props).length = (propsBits b.props).length := by
    rw [propsBits_eq_flatMap, propsBits_eq_flatMap]
    exact (hperm.flatMap_right _).length_eq
  simp only [recordBits, List.length_append, hname, natBits_length, hbits]

theorem SameGrid.recordsBits_length_eq {g g' : List Block} (h : SameGrid g g') (hg : ∀ b ∈ g, b.Legal) (hg' : ∀ b ∈ g', b.Legal) :
    (recordsBits g).length = (recordsBits g').length := by
  induction h with
  | nil => rfl
  | cons hab _ ih =>
    rw [List.forall_mem_cons] at hg hg'
    rw [recordsBits, recordsBits, List.length_append, List.length_append, hab.recordBits_length_eq hg.1 hg'.1, ih hg.2 hg'.2]

/-! ### Consecutive block records -/

/-- Records that were written read back, whatever follows them (30_encoding.md R119). -/
theorem readRecords_recordsBits {g : List Block} (hg : ∀ b ∈ g, b.Legal) (pos : Nat) (rest : List Bool) :
    readRecords g.length ⟨pos, recordsBits g ++ rest⟩ = .ok (g, ⟨pos + (recordsBits g).length, rest⟩) := by
  induction g generalizing pos with
  | nil => rfl
  | cons b g ih =>
    rw [List.forall_mem_cons] at hg
    obtain ⟨⟨hnodup, hname, hcount, hprops⟩, hg⟩ := hg
    rw [List.length_cons, readRecords, recordsBits, List.append_assoc, readRecord_recordBits pos _ hname hcount hprops,
      if_pos hnodup, bind_ok]
    dsimp only
    rw [ih hg, bind_ok, List.length_append, Nat.add_assoc]

/-- Reading records: the bits they were read from are the records of what was read, a grid of legal blocks. -/
theorem readRecords_eq_ok {n : Nat} {r r' : BitReader} {g : List Block} (h : readRecords n r = .ok (g, r')) :
    r.rest = recordsBits g ++ r'.rest ∧ ∀ b ∈ g, b.Legal := by
  induction n generalizing r g with
  | zero => cases h; simp [recordsBits]
  | succ n ih =>
    rw [readRecords] at h
    obtain ⟨⟨b, r1⟩, hb, h⟩ := bind_eq_ok.mp h
    obtain ⟨⟨bs, r2⟩, hbs, h⟩ := bind_eq_ok.mp h
    cases h
    obtain ⟨hbits, -, hlegal⟩ := readRecord_eq_ok hb
    obtain ⟨hrest, hall⟩ := ih hbs
    exact ⟨by rw [hbits, hrest, recordsBits, List.append_assoc], List.forall_mem_cons.mpr ⟨hlegal, hall⟩⟩

/-- Legal grids of one length with the same records are the same: reading the records gives back both. -/
theorem eq_of_recordsBits_eq {g g' : List Block} (hg : ∀ b ∈ g, b.Legal) (hg' : ∀ b ∈ g', b.Legal) (hlen : g.length = g'.length)
    (h : recordsBits g = recordsBits g') : g = g' := by
  have hread := readRecords_recordsBits hg 0 []
  rw [hlen, h, readRecords_recordsBits hg' 0 []] at hread
  cases hread
  rfl

theorem dvd_stringBits_length (u : List CodeUnit) : 8 ∣ (stringBits u).length := by
  rw [stringBits_length]; omega

theorem dvd_propsBits_length (ps : List (List CodeUnit × List CodeUnit)) : 8 ∣ (propsBits ps).length := by
  induction ps with
  | nil => simp [propsBits]
  | cons kv ps ih =>
    rw [propsBits, List.length_append, List.length_append]
    exact dvd_add (dvd_add (dvd_stringBits_length _) (dvd_stringBits_length _)) ih

/-- Records take whole bytes (30_encoding.md R113). -/
theorem dvd_recordsBits_length (g : List Block) : 8 ∣ (recordsBits g).length := by
  induction g with
  | nil => simp [recordsBits]
  | cons b g ih =>
    have hname := dvd_stringBits_length b.name
    have hprops := dvd_propsBits_length b.props
    simp only [recordsBits, recordBits, List.length_append, natBits_length]
    omega

/-- Whole bytes need no padding (20_memory.md R67). -/
theorem bytesToBits_bitsToBytes_of_dvd {bits : List Bool} (h : 8 ∣ bits.length) : bytesToBits (bitsToBytes bits) = bits := by
  obtain ⟨k, hk⟩ := h
  rw [bytesToBits_bitsToBytes, alignBits, hk]
  simp

theorem bytesToBits_records (g : List Block) : bytesToBits (bitsToBytes (recordsBits g)) = recordsBits g :=
  bytesToBits_bitsToBytes_of_dvd (dvd_recordsBits_length g)

/-- An index array takes whole bytes (30_encoding.md R114). -/
theorem bytesToBits_pack_words (idx : List Nat) : bytesToBits (pack idx 32) = unitBits 32 idx :=
  bytesToBits_bitsToBytes_of_dvd (by rw [unitBits_length]; omega)

/-! ### The palette loop -/

/-- What one cell can do to the palette (41_palette.md R153): name an entry equal to it, become a new entry, or find the palette
full. -/
theorem palLoop_singleton (limit : Nat) (pal : List Block) (b : Block) :
    (∃ k e, pal[k]? = some e ∧ SameBlock e b ∧ palLoop limit pal [b] = .ok (pal, [k])) ∨
    ((∀ e ∈ pal, ¬ SameBlock e b) ∧ pal.length ≠ limit ∧ palLoop limit pal [b] = .ok (pal ++ [b], [pal.length])) ∨
    ((∀ e ∈ pal, ¬ SameBlock e b) ∧ pal.length = limit ∧ palLoop limit pal [b] = .error .capacity) := by
  cases hfind : palFind pal b with
  | some k =>
    obtain ⟨e, he, hsame⟩ := palFind_eq_some hfind
    exact .inl ⟨k, e, he, hsame, by simp [palLoop, hfind]⟩
  | none =>
    have hnew := palFind_eq_none.mp hfind
    by_cases hfull : pal.length = limit
    · exact .inr (.inr ⟨hnew, hfull, by simp [palLoop, hfind, hfull]⟩)
    · exact .inr (.inl ⟨hnew, hfull, by simp [palLoop, hfind, hfull]⟩)

/-- The loop over two parts of a grid: the second starts from the palette the first leaves. -/
theorem palLoop_append (limit : Nat) (pal g h : List Block) :
    palLoop limit pal (g ++ h) =
      palLoop limit pal g >>= fun x => palLoop limit x.1 h >>= fun y => .ok (y.1, x.2 ++ y.2) := by
  induction g generalizing pal with
  | nil => simp only [List.nil_append, palLoop, bind_ok]; exact (bind_pure _).symm
  | cons b g ih =>
    rw [List.cons_append, palLoop, palLoop]
    split
    · rw [ih, bind_assoc, bind_assoc]
      simp only [bind_assoc, bind_ok, List.cons_append]
    · split
      · rfl
      · rw [ih]
        simp only [bind_assoc, bind_ok, List.cons_append]

/-- An element of a list with one element appended: an element of the list, or the appended one. -/
theorem getElem?_concat_eq_some {α : Type} {l : List α} {a x : α} {c : Nat} :
    (l ++ [a])[c]? = some x ↔ l[c]? = some x ∨ c = l.length ∧ x = a := by
  rcases Nat.lt_trichotomy c l.length with h | h | h
  · rw [List.getElem?_append_left h]
    simp [h.ne]
  · simp [h, eq_comm]
  · rw [List.getElem?_eq_none (by simp; omega), List.getElem?_eq_none h.le]
    simp [h.ne']

/-- `pal` is the palette of the grid `g`, of at most `limit` entries, and `idx` the cells' indices (41_palette.md R152, R153, R156,
R158). -/
structure IsPalette (limit : Nat) (g pal : List Block) (idx : List Nat) : Prop where
  idx_length : idx.length = g.length
  distinct : pal.Pairwise fun a b => ¬ SameBlock a b
  names : ∀ (c : Nat) (b : Block), g[c]? = some b → ∃ (k : Nat) (e : Block), idx[c]? = some k ∧ pal[k]? = some e ∧ SameBlock e b
  first : ∀ (k : Nat) (e : Block), pal[k]? = some e → ∃ c : Nat, g[c]? = some e ∧ idx[c]? = some k ∧
    ∀ c' k' : Nat, c' < c → idx[c']? = some k' → k' < k
  length_le_cells : pal.length ≤ g.length
  length_le_limit : pal.length ≤ limit

namespace IsPalette

variable {limit : Nat} {g pal : List Block} {idx : List Nat}

theorem empty (limit : Nat) : IsPalette limit [] [] [] where
  idx_length := rfl
  distinct := .nil
  names := by simp
  first := by simp
  length_le_cells := Nat.le_refl 0
  length_le_limit := Nat.zero_le limit

/-- Every index is below the palette size (41_palette.md R158). -/
theorem idx_lt (h : IsPalette limit g pal idx) {c k : Nat} (hk : idx[c]? = some k) : k < pal.length := by
  obtain ⟨hc, -⟩ := List.getElem?_eq_some_iff.mp hk
  obtain ⟨k', e, hk', he, -⟩ := h.names c _ (List.getElem?_eq_getElem (h.idx_length ▸ hc))
  cases hk.symm.trans hk'
  exact (List.getElem?_eq_some_iff.mp he).1

/-- A cell equal to an entry gets that entry's index. -/
theorem concat_known (h : IsPalette limit g pal idx) {b e : Block} {k : Nat} (hk : pal[k]? = some e) (hsame : SameBlock e b) :
    IsPalette limit (g ++ [b]) pal (idx ++ [k]) where
  idx_length := by simp [h.idx_length]
  distinct := h.distinct
  names := by
    intro c b' hc
    obtain hc | ⟨rfl, rfl⟩ := getElem?_concat_eq_some.mp hc
    · obtain ⟨k', e', hk', he'⟩ := h.names c b' hc
      exact ⟨k', e', getElem?_concat_eq_some.mpr (.inl hk'), he'⟩
    · exact ⟨k, e, getElem?_concat_eq_some.mpr (.inr ⟨h.idx_length.symm, rfl⟩), hk, hsame⟩
  first := by
    intro k' e' he'
    obtain ⟨c, hc, hidx, hbefore⟩ := h.first k' e' he'
    refine ⟨c, getElem?_concat_eq_some.mpr (.inl hc), getElem?_concat_eq_some.mpr (.inl hidx), fun c' k'' hlt hk'' => ?_⟩
    obtain ⟨hclt, -⟩ := List.getElem?_eq_some_iff.mp hidx
    obtain hk'' | ⟨rfl, -⟩ := getElem?_concat_eq_some.mp hk''
    · exact hbefore c' k'' hlt hk''
    · omega
  length_le_cells := h.length_le_cells.trans (by simp)
  length_le_limit := h.length_le_limit

/-- A cell equal to no entry becomes the next entry. -/
theorem concat_new (h : IsPalette limit g pal idx) {b : Block} (hnew : ∀ e ∈ pal, ¬ SameBlock e b) (hroom : pal.length ≠ limit) :
    IsPalette limit (g ++ [b]) (pal ++ [b]) (idx ++ [pal.length]) where
  idx_length := by simp [h.idx_length]
  distinct := List.pairwise_append.mpr ⟨h.distinct, List.pairwise_singleton _ _, by simpa using hnew⟩
  names := by
    intro c b' hc
    obtain hc | ⟨rfl, rfl⟩ := getElem?_concat_eq_some.mp hc
    · obtain ⟨k, e, hk, he, hsame⟩ := h.names c b' hc
      exact ⟨k, e, getElem?_concat_eq_some.mpr (.inl hk), getElem?_concat_eq_some.mpr (.inl he), hsame⟩
    · exact ⟨pal.length, b', getElem?_concat_eq_some.mpr (.inr ⟨h.idx_length.symm, rfl⟩),
        getElem?_concat_eq_some.mpr (.inr ⟨rfl, rfl⟩), .refl b'⟩
  first := by
    intro k e he
    obtain he | ⟨rfl, rfl⟩ := getElem?_concat_eq_some.mp he
    · obtain ⟨c, hc, hidx, hbefore⟩ := h.first k e he
      refine ⟨c, getElem?_concat_eq_some.mpr (.inl hc), getElem?_concat_eq_some.mpr (.inl hidx), fun c' k' hlt hk' => ?_⟩
      obtain ⟨hclt, -⟩ := List.getElem?_eq_some_iff.mp hidx
      obtain hk' | ⟨rfl, -⟩ := getElem?_concat_eq_some.mp hk'
      · exact hbefore c' k' hlt hk'
      · omega
    · refine ⟨g.length, getElem?_concat_eq_some.mpr (.inr ⟨rfl, rfl⟩),
        getElem?_concat_eq_some.mpr (.inr ⟨h.idx_length.symm, rfl⟩), fun c' k' hlt hk' => ?_⟩
      obtain hk' | ⟨rfl, -⟩ := getElem?_concat_eq_some.mp hk'
      · exact h.idx_lt hk'
      · have := h.idx_length
        omega
  length_le_cells := by simpa using h.length_le_cells
  length_le_limit := by
    have := h.length_le_limit
    rw [List.length_append, List.length_singleton]
    omega

theorem length_eq_zero_iff (h : IsPalette limit g pal idx) : pal.length = 0 ↔ g.length = 0 := by
  have hle := h.length_le_cells
  refine ⟨fun hpal => ?_, fun hg => by omega⟩
  by_contra hg
  obtain ⟨k, e, -, he, -⟩ := h.names 0 _ (List.getElem?_eq_getElem (Nat.pos_of_ne_zero hg))
  obtain ⟨hk, -⟩ := List.getElem?_eq_some_iff.mp he
  omega

/-- Every entry is a cell (41_palette.md R156). -/
theorem mem_grid (h : IsPalette limit g pal idx) {e : Block} (he : e ∈ pal) : e ∈ g := by
  obtain ⟨k, hk⟩ := List.mem_iff_getElem?.mp he
  obtain ⟨c, hc, -⟩ := h.first k e hk
  exact List.mem_of_getElem? hc

/-- Entries of one value are one entry. -/
theorem eq_of_sameBlock (h : IsPalette limit g pal idx) {a b : Block} (ha : a ∈ pal) (hb : b ∈ pal) (hab : SameBlock a b) :
    a = b := by
  by_contra hne
  have : Std.Symm fun a b : Block => ¬ SameBlock a b := ⟨fun _ _ hn hs => hn hs.symm⟩
  exact h.distinct.forall ha hb hne hab

end IsPalette

/-- What the encoder answers is the palette of the grid and its indices, cell after cell. -/
theorem paletteEncode_isPalette {limit : Nat} {g pal : List Block} {idx : List Nat} (h : paletteEncode limit g = .ok (pal, idx)) :
    IsPalette limit g pal idx := by
  induction g using List.reverseRecOn generalizing pal idx with
  | nil => cases h; exact .empty limit
  | append_singleton g b ih =>
    rw [paletteEncode, palLoop_append] at h
    obtain ⟨⟨pal0, idx0⟩, hg, h⟩ := bind_eq_ok.mp h
    obtain ⟨⟨pal1, idx1⟩, hb, h⟩ := bind_eq_ok.mp h
    cases h
    have hpal := ih hg
    obtain ⟨k, e, hk, hsame, hstep⟩ | ⟨hnew, hroom, hstep⟩ | ⟨-, -, hstep⟩ := palLoop_singleton limit pal0 b
    all_goals cases hstep.symm.trans hb
    · exact hpal.concat_known hk hsame
    · exact hpal.concat_new hnew hroom

/-- `b` is cell `n` of the grid, equal to no cell before it, and the palette of those cells is full (60_exceptions.md R264). -/
def OverflowsAt (limit : Nat) (g : List Block) (n : Nat) (b : Block) (pal : List Block) (idx : List Nat) : Prop :=
  g[n]? = some b ∧ paletteEncode limit (g.take n) = .ok (pal, idx) ∧ pal.length = limit ∧ ∀ e ∈ pal, ¬ SameBlock e b

theorem paletteEncode_of_overflowsAt {limit n : Nat} {g pal : List Block} {b : Block} {idx : List Nat}
    (h : OverflowsAt limit g n b pal idx) : paletteEncode limit g = .error .capacity := by
  obtain ⟨hb, hbefore, hfull, hnew⟩ := h
  obtain ⟨hn, rfl⟩ := List.getElem?_eq_some_iff.mp hb
  have hcell : palLoop limit pal [g[n]] = .error .capacity := by
    obtain ⟨k, e, hk, hsame, -⟩ | ⟨-, hroom, -⟩ | ⟨-, -, hstep⟩ := palLoop_singleton limit pal g[n]
    · exact absurd hsame (hnew e (List.mem_of_getElem? hk))
    · exact absurd hfull hroom
    · exact hstep
  rw [paletteEncode] at hbefore ⊢
  rw [← List.take_append_drop (n + 1) g, List.take_succ_eq_append_getElem hn, palLoop_append, palLoop_append, hbefore, bind_ok,
    hcell, bind_error, bind_error]

theorem exists_overflowsAt {limit : Nat} {g : List Block} {c : Cause} (h : paletteEncode limit g = .error c) :
    c = .capacity ∧ ∃ n b pal idx, OverflowsAt limit g n b pal idx := by
  induction g using List.reverseRecOn with
  | nil => cases h
  | append_singleton g b ih =>
    rw [paletteEncode, palLoop_append] at h
    obtain h | ⟨⟨pal, idx⟩, hg, h⟩ := bind_eq_error.mp h
    · obtain ⟨hc, n, b', pal, idx, hcell, hbefore, hfull⟩ := ih h
      obtain ⟨hn, -⟩ := List.getElem?_eq_some_iff.mp hcell
      exact ⟨hc, n, b', pal, idx, getElem?_concat_eq_some.mpr (.inl hcell), by rwa [List.take_append_of_le_length hn.le], hfull⟩
    · obtain hb | ⟨_, -, hb⟩ := bind_eq_error.mp h
      · obtain ⟨k, e, -, -, hstep⟩ | ⟨-, -, hstep⟩ | ⟨hnew, hfull, hstep⟩ := palLoop_singleton limit pal b
        all_goals cases hstep.symm.trans hb
        exact ⟨rfl, g.length, b, pal, idx, getElem?_concat_eq_some.mpr (.inr ⟨rfl, rfl⟩), by rwa [List.take_left], hfull, hnew⟩
      · cases hb

/-- A grid no longer than the capacity cannot overflow its palette (60_exceptions.md R264). -/
theorem exists_paletteEncode_eq_ok {limit : Nat} {g : List Block} (h : g.length ≤ limit) :
    ∃ pal idx, paletteEncode limit g = .ok (pal, idx) := by
  cases hg : paletteEncode limit g with
  | ok x => exact ⟨x.1, x.2, rfl⟩
  | error c =>
    obtain ⟨-, n, b, pal, idx, hcell, hbefore, hfull, -⟩ := exists_overflowsAt hg
    obtain ⟨hn, -⟩ := List.getElem?_eq_some_iff.mp hcell
    have hle := (paletteEncode_isPalette hbefore).length_le_cells
    rw [List.length_take] at hle
    omega

end Sys2Proof.Machine
end

section
/-! SUPPORT. The cells an index array names, what the completions of `PAL_ENC` and `PAL_DEC` are in each case, and what `PAL_ENC` leaves
for `PAL_DEC` (41_palette.md). -/

open Sys2Proof Sys2Proof.Machine

namespace Sys2Proof.Machine

/-! ### The cells an index array names -/

/-- `cells` are the palette entries the indices `idx` name, in order (41_palette.md R154). -/
def NamedCells (pal : List Block) (idx : List Nat) (cells : List Block) : Prop :=
  List.Forall₂ (fun k b => pal[k]? = some b) idx cells

theorem namedCells_iff {pal cells : List Block} {idx : List Nat} :
    NamedCells pal idx cells ↔ idx.map (fun k => pal[k]?) = cells.map some := by
  rw [← List.forall₂_eq_eq_eq, List.forall₂_map_left_iff, List.forall₂_map_right_iff, NamedCells]

theorem exists_namedCells {pal : List Block} {idx : List Nat} (h : ∀ k ∈ idx, k < pal.length) : ∃ cells, NamedCells pal idx cells := by
  induction idx with
  | nil => exact ⟨[], .nil⟩
  | cons k idx ih =>
    rw [List.forall_mem_cons] at h
    obtain ⟨cells, hcells⟩ := ih h.2
    exact ⟨pal[k] :: cells, .cons (List.getElem?_eq_getElem h.1) hcells⟩

theorem NamedCells.mem_palette {pal cells : List Block} {idx : List Nat} (h : NamedCells pal idx cells) :
    ∀ b ∈ cells, b ∈ pal := by
  induction h with
  | nil => simp
  | cons hk _ ih => exact List.forall_mem_cons.mpr ⟨List.mem_of_getElem? hk, ih⟩

/-- The index loop over words that name entries: it takes those entries and goes on after them (41_palette.md R165). -/
theorem readIndexed_unitBits {pal cells : List Block} {idx : List Nat} (h : NamedCells pal idx cells) (hpal : pal.length ≤ 2 ^ 32)
    (n pos : Nat) (rest : List Bool) :
    readIndexed pal (idx.length + n) ⟨pos, unitBits 32 idx ++ rest⟩ =
      readIndexed pal n ⟨pos + idx.length * 32, rest⟩ >>= fun out => .ok (cells ++ out) := by
  induction h generalizing pos with
  | nil => simp only [unitBits, List.length_nil, Nat.zero_add, Nat.zero_mul, Nat.add_zero, List.nil_append]; exact (bind_pure _).symm
  | @cons k b idx cells hk _ ih =>
    obtain ⟨hlt, -⟩ := List.getElem?_eq_some_iff.mp hk
    rw [List.length_cons, Nat.add_right_comm, readIndexed, unitBits, List.append_assoc, getBits_natBits _ _ _ _ (hlt.trans_le hpal),
      bind_ok]
    dsimp only
    rw [hk]
    dsimp only
    rw [ih, bind_assoc, Nat.add_assoc, Nat.add_comm 32, ← Nat.succ_mul]
    rfl

/-- The error of the next index word after words that name entries is the error of the loop. -/
theorem readIndexed_error_after {pal cells : List Block} {idx : List Nat} (h : NamedCells pal idx cells)
    (hpal : pal.length ≤ 2 ^ 32) {n : Nat} (hn : idx.length < n) {rest : List Bool} {c : Cause}
    (hnext : ∀ k pos, readIndexed pal (k + 1) ⟨pos, rest⟩ = .error c) (pos : Nat) :
    readIndexed pal n ⟨pos, unitBits 32 idx ++ rest⟩ = .error c := by
  obtain ⟨k, rfl⟩ := Nat.exists_eq_add_of_lt hn
  rw [Nat.add_assoc, readIndexed_unitBits h hpal, hnext, bind_error]

theorem readIndexed_out_of_range {pal : List Block} {bad : Nat} (hbad : pal.length ≤ bad) (hword : bad < 2 ^ 32) (n pos : Nat)
    (rest : List Bool) : readIndexed pal (n + 1) ⟨pos, natBits 32 bad ++ rest⟩ = .error .indexRange := by
  rw [readIndexed, getBits_natBits _ _ _ _ hword, bind_ok]
  dsimp only
  rw [List.getElem?_eq_none hbad]

theorem readIndexed_short (pal : List Block) {rest : List Bool} (hshort : rest.length < 32) (n pos : Nat) :
    readIndexed pal (n + 1) ⟨pos, rest⟩ = .error .prematureEnd := by
  rw [readIndexed, getBits_eq_error.mpr ⟨hshort, rfl⟩, bind_error]

namespace IsPalette

variable {limit : Nat} {g pal : List Block} {idx : List Nat}

/-- The indices of a grid name its cells, each as a value (41_palette.md R153). -/
theorem exists_sameGrid (h : IsPalette limit g pal idx) : ∃ cells, NamedCells pal idx cells ∧ SameGrid g cells := by
  have hlt : ∀ k ∈ idx, k < pal.length := fun k hk => by
    obtain ⟨c, hc⟩ := List.mem_iff_getElem?.mp hk
    exact h.idx_lt hc
  obtain ⟨cells, hcells⟩ := exists_namedCells hlt
  refine ⟨cells, hcells, List.forall₂_iff_get.mpr ⟨h.idx_length.symm.trans hcells.length_eq, fun c hcell hcell' => ?_⟩⟩
  obtain ⟨k, e, hk, he, hsame⟩ := h.names c _ (List.getElem?_eq_getElem hcell)
  obtain ⟨hc, rfl⟩ := List.getElem?_eq_some_iff.mp hk
  have hnamed : pal[idx[c]]? = some cells[c] := hcells.get hc hcell'
  obtain rfl := Option.some.inj (he.symm.trans hnamed)
  exact hsame.symm

/-- The named cells are the grid itself exactly when it lists equal cells alike: a cell that is no entry itself is equal to an entry
with another order of properties (41_palette.md R156, R167). -/
theorem namedCells_eq_iff (h : IsPalette limit g pal idx) {cells : List Block} (hcells : NamedCells pal idx cells)
    (hsame : SameGrid g cells) : cells = g ↔ ∀ a ∈ g, ∀ b ∈ g, SameBlock a b → a = b := by
  constructor
  · rintro rfl a ha b hb hab
    exact h.eq_of_sameBlock (hcells.mem_palette a ha) (hcells.mem_palette b hb) hab
  · intro halike
    have hmem : ∀ b ∈ cells, b ∈ g := fun b hb => h.mem_grid (hcells.mem_palette b hb)
    refine List.ext_getElem hsame.length_eq.symm fun c hc hc' => ?_
    have hcell : SameBlock g[c] cells[c] := hsame.get hc' hc
    exact (halike _ (List.getElem_mem hc') _ (hmem _ (List.getElem_mem hc)) hcell).symm

end IsPalette

/-! ### Regions and completions -/

/-- Legal destinations of PAL_ENC share no byte (20_memory.md R62). -/
theorem palEnc_dests_apart {p : Params} {r : RwRegs} (h : RegionsLegal p .palEnc r) (a : Nat) :
    ¬ (regionHolds (dst0 r) a = true ∧ regionHolds (dst1 r) a = true) := by
  intro hboth
  have hdests : anyOverlap [dst0 r, dst1 r] = false := (Bool.or_eq_false_iff.mp h.2).2
  have hnone := List.pairwise_pair.mp (anyOverlap_eq_false.mp hdests)
  rw [overlap_eq_true.mpr ⟨a, hboth⟩] at hnone
  cases hnone

theorem readRecords_region {m : Memory} {d : Region} {n : Nat} {g : List Block} {rest : List Bool} (hn : n = g.length)
    (hg : ∀ b ∈ g, b.Legal) (hbits : bytesToBits (regionBytes m d) = recordsBits g ++ rest) :
    readRecords n (regionReader m d) = .ok (g, ⟨0 + (recordsBits g).length, rest⟩) := by
  rw [hn, regionReader, readerOf, hbits, readRecords_recordsBits hg]

theorem readIndexed_region {m : Memory} {d : Region} {n : Nat} {pal cells : List Block} {idx : List Nat} {rest : List Bool}
    (hn : n = idx.length) (h : NamedCells pal idx cells) (hpal : pal.length ≤ 2 ^ 32)
    (hbits : bytesToBits (regionBytes m d) = unitBits 32 idx ++ rest) : readIndexed pal n (regionReader m d) = .ok cells := by
  rw [hn, regionReader, readerOf, hbits, ← Nat.add_zero idx.length, readIndexed_unitBits h hpal, readIndexed, bind_ok,
    List.append_nil]

/-- A command that ends in DONE stored the outputs of its command function. -/
theorem exec_done {i : Instr} {s t : State} (h : exec i s = .next t) (hdone : t.status = statusDone) :
    ∃ o, commandOutput i s.params s.lreg s.mem = .ok o ∧ t = s.succeed o := by
  rw [exec_eq_complete] at h
  obtain rfl := Host.Outcome.next.inj h
  cases ho : commandOutput i s.params s.lreg s.mem with
  | ok o => exact ⟨o, rfl, rfl⟩
  | error c =>
    rw [ho, complete_error, raise_status] at hdone
    exact absurd hdone (by decide)

theorem memBytes_eq_of_storedByte {m m' : Memory} {a : Nat} {out : List Byte}
    (h : ∀ x, a ≤ x → x < a + out.length → memRead m' x = storedByte m a out x) : memBytes m' a out.length = out := by
  rw [memBytes_congr fun x hlo hhi => (h x hlo hhi).trans (memRead_memWriteBytes_storedByte m a out x).symm,
    memBytes_memWriteBytes]

namespace Completed

variable {s t : State} {out0 out1 : List Byte} {r0 r1 r2 r3 : Nat}

theorem status_eq (h : Completed s t out0 out1 r0 r1 r2 r3) : t.status = 0x00000002#32 :=
  congrArg State.status h.1

/-- The first output stands at DST0. -/
theorem memBytes_dst0 (h : Completed s t out0 out1 r0 r1 r2 r3) : memBytes t.mem (dst0 s.lreg).addr out0.length = out0 := by
  obtain ⟨-, -, hmem⟩ := h
  exact memBytes_eq_of_storedByte fun x hlo hhi => by rw [hmem, if_pos ⟨hlo, hhi⟩]

/-- The second output stands at DST1 when no byte of it is one of the first's. -/
theorem memBytes_dst1 (h : Completed s t out0 out1 r0 r1 r2 r3)
    (hd : ∀ a, ¬ (((dst0 s.lreg).addr ≤ a ∧ a < (dst0 s.lreg).addr + out0.length) ∧
      ((dst1 s.lreg).addr ≤ a ∧ a < (dst1 s.lreg).addr + out1.length))) :
    memBytes t.mem (dst1 s.lreg).addr out1.length = out1 := by
  obtain ⟨-, -, hmem⟩ := h
  exact memBytes_eq_of_storedByte fun x hlo hhi => by rw [hmem, if_neg fun hin => hd x ⟨hin, hlo, hhi⟩]

end Completed

/-! ### PAL_ENC -/

theorem checkCommand_palEnc {p : Params} {r : RwRegs} :
    checkCommand p .palEnc r = .ok () ↔ r.arg0.toNat ≤ p.maxCells ∧ RegionsLegal p .palEnc r :=
  checkCommand_eq_ok.trans (and_congr_left' checkLimit_eq_ok)

/-- The index array of the cells that were read takes 4 bytes a cell (30_encoding.md R114). -/
theorem indexArray_length {n limit : Nat} {r rd : BitReader} {g pal : List Block} {idx : List Nat}
    (hread : readRecords n r = .ok (g, rd)) (hpal : paletteEncode limit g = .ok (pal, idx)) : (pack idx 32).length = 4 * n := by
  rw [pack_length, palLoop_length hpal, readRecords_length hread]; omega

/-- The outputs and results of PAL_ENC for the palette `pal` and the indices `idx` of `n` cells (41_palette.md R155). -/
def palEncOutput (n : Nat) (pal : List Block) (idx : List Nat) : Output where
  out0 := bitsToBytes (recordsBits pal)
  out1 := pack idx 32
  res0 := pal.length
  res1 := n
  res2 := (bitsToBytes (recordsBits pal)).length
  res3 := 4 * n

/-- PAL_ENC whose checks pass (41_palette.md R155): the records, the palette, the room for its outputs. -/
theorem cmdPalEnc_of_check {p : Params} {r : RwRegs} (hcheck : checkCommand p .palEnc r = .ok ()) (m : Memory) :
    cmdPalEnc p r m =
      readRecords r.arg0.toNat (regionReader m (src0 r)) >>= fun x =>
      paletteEncode p.maxPalette x.1 >>= fun y =>
      checkCapacity (dst0 r) (bitsToBytes (recordsBits y.1)).length >>= fun _ =>
      checkCapacity (dst1 r) (4 * r.arg0.toNat) >>= fun _ => .ok (palEncOutput r.arg0.toNat y.1 y.2) := by
  rw [cmdPalEnc, hcheck, bind_ok]
  rfl

section
variable {s : State} (hcheck : checkCommand s.params .palEnc s.lreg = .ok ())
include hcheck

theorem exec_palEnc_record_error {c : Cause}
    (hread : readRecords s.lreg.arg0.toNat (regionReader s.mem (src0 s.lreg)) = .error c) :
    exec .palEnc s = .next (s.raise c) := by
  rw [exec_palEnc, cmdPalEnc_of_check hcheck, hread, bind_error, complete_error]

variable {g : List Block} {rd : BitReader}
  (hread : readRecords s.lreg.arg0.toNat (regionReader s.mem (src0 s.lreg)) = .ok (g, rd))
include hread

theorem exec_palEnc_palette_error {c : Cause} (hpal : paletteEncode s.params.maxPalette g = .error c) :
    exec .palEnc s = .next (s.raise c) := by
  rw [exec_palEnc, cmdPalEnc_of_check hcheck, hread, bind_ok, hpal, bind_error, complete_error]

variable {pal : List Block} {idx : List Nat} (hpal : paletteEncode s.params.maxPalette g = .ok (pal, idx))
include hpal

theorem exec_palEnc_overflow (hlong : s.lreg.dst0Cap.toNat < (bitsToBytes (recordsBits pal)).length ∨
    s.lreg.dst1Cap.toNat < 4 * s.lreg.arg0.toNat) : exec .palEnc s = .next (s.raise .dstOverflow) := by
  rw [exec_palEnc, cmdPalEnc_of_check hcheck, hread, bind_ok, hpal, bind_ok]
  by_cases h0 : (bitsToBytes (recordsBits pal)).length ≤ s.lreg.dst0Cap.toNat
  · have h1 : checkCapacity (dst1 s.lreg) (4 * s.lreg.arg0.toNat) = .error .dstOverflow :=
      checkCapacity_eq_error.mpr ⟨hlong.resolve_left h0.not_gt, rfl⟩
    rw [checkCapacity_eq_ok.mpr h0, bind_ok, h1, bind_error, complete_error]
  · rw [checkCapacity_eq_error.mpr ⟨Nat.lt_of_not_le h0, rfl⟩, bind_error, complete_error]

/-- The outputs of PAL_ENC share no byte when they fit their destinations. -/
theorem palEnc_outputs_apart (h0 : (bitsToBytes (recordsBits pal)).length ≤ s.lreg.dst0Cap.toNat)
    (h1 : 4 * s.lreg.arg0.toNat ≤ s.lreg.dst1Cap.toNat) (a : Nat) :
    ¬ (((dst0 s.lreg).addr ≤ a ∧ a < (dst0 s.lreg).addr + (bitsToBytes (recordsBits pal)).length) ∧
      ((dst1 s.lreg).addr ≤ a ∧ a < (dst1 s.lreg).addr + (pack idx 32).length)) := by
  have hapart := palEnc_dests_apart (checkCommand_palEnc.mp hcheck).2 a
  rw [regionHolds_eq_true, regionHolds_eq_true] at hapart
  rw [indexArray_length hread hpal]
  simp only [dst0, dst1] at hapart ⊢
  omega

theorem exec_palEnc_completed (h0 : (bitsToBytes (recordsBits pal)).length ≤ s.lreg.dst0Cap.toNat)
    (h1 : 4 * s.lreg.arg0.toNat ≤ s.lreg.dst1Cap.toNat) : ∃ t, exec .palEnc s = .next t ∧
      Completed s t (bitsToBytes (recordsBits pal)) (pack idx 32) pal.length s.lreg.arg0.toNat
        (bitsToBytes (recordsBits pal)).length (4 * s.lreg.arg0.toNat) := by
  have hexec : exec .palEnc s = .next (s.succeed (palEncOutput s.lreg.arg0.toNat pal idx)) := by
    rw [exec_palEnc, cmdPalEnc_of_check hcheck, hread, bind_ok, hpal, bind_ok, checkCapacity_eq_ok.mpr h0, bind_ok,
      checkCapacity_eq_ok.mpr h1, bind_ok, complete_ok]
  have hcells : pal.length ≤ s.lreg.arg0.toNat := readRecords_length hread ▸ (paletteEncode_isPalette hpal).length_le_cells
  exact ⟨_, hexec, succeed_completed s (palEncOutput s.lreg.arg0.toNat pal idx) (hcells.trans_lt s.lreg.arg0.isLt)
    s.lreg.arg0.isLt (h0.trans_lt s.lreg.dst0Cap.isLt) (h1.trans_lt s.lreg.dst1Cap.isLt)
    (palEnc_outputs_apart hcheck hread hpal h0 h1)⟩

end

/-- What PAL_ENC leaves when it ends in DONE (41_palette.md R155): the palette and the indices of the grid it read. -/
theorem exec_palEnc_done {s t : State} (h : exec .palEnc s = .next t) (hdone : t.status = statusDone) :
    ∃ (g pal : List Block) (idx : List Nat) (rd : BitReader), s.lreg.arg0.toNat ≤ s.params.maxCells ∧
      readRecords s.lreg.arg0.toNat (regionReader s.mem (src0 s.lreg)) = .ok (g, rd) ∧
      paletteEncode s.params.maxPalette g = .ok (pal, idx) ∧ t.res0.toNat = pal.length ∧ t.res1.toNat = g.length ∧
      memBytes t.mem (dst0 s.lreg).addr t.res2.toNat = bitsToBytes (recordsBits pal) ∧
      memBytes t.mem (dst1 s.lreg).addr t.res3.toNat = pack idx 32 := by
  obtain ⟨o, ho, rfl⟩ := exec_done h hdone
  obtain ⟨_, hcheck, hrest⟩ := bind_eq_ok.mp ho
  obtain ⟨⟨g, rd⟩, hread, hrest⟩ := bind_eq_ok.mp hrest
  obtain ⟨⟨pal, idx⟩, hpal, hrest⟩ := bind_eq_ok.mp hrest
  obtain ⟨_, h0, hrest⟩ := bind_eq_ok.mp hrest
  obtain ⟨_, h1, -⟩ := bind_eq_ok.mp hrest
  have h0 := checkCapacity_eq_ok.mp h0
  have h1 := checkCapacity_eq_ok.mp h1
  obtain ⟨t, hexec, hcompleted⟩ := exec_palEnc_completed hcheck hread hpal h0 h1
  cases h.symm.trans hexec
  have hmem0 := hcompleted.memBytes_dst0
  have hmem1 := hcompleted.memBytes_dst1 (palEnc_outputs_apart hcheck hread hpal h0 h1)
  obtain ⟨-, ⟨hres0, hres1, hres2, hres3⟩, -⟩ := hcompleted
  exact ⟨g, pal, idx, rd, (checkCommand_palEnc.mp hcheck).1, hread, hpal, hres0, hres1.trans (readRecords_length hread).symm,
    by rw [hres2, hmem0], by rw [hres3, ← indexArray_length hread hpal, hmem1]⟩

/-! ### PAL_DEC -/

theorem checkCommand_palDec {p : Params} {r : RwRegs} (hp : r.arg0.toNat ≤ p.maxPalette) (hn : r.arg1.toNat ≤ p.maxCells)
    (hregions : RegionsLegal p .palDec r) : checkCommand p .palDec r = .ok () :=
  checkCommand_eq_ok.mpr ⟨bind_eq_ok.mpr ⟨(), checkLimit_eq_ok.mpr hp, checkLimit_eq_ok.mpr hn⟩, hregions⟩

/-- The output and results of PAL_DEC for the cells `cells`, `n` of them, named in a palette of `np` entries (41_palette.md R165). -/
def palDecOutput (np n : Nat) (cells : List Block) : Output where
  out0 := bitsToBytes (recordsBits cells)
  out1 := []
  res0 := (bitsToBytes (recordsBits cells)).length
  res1 := n
  res2 := np
  res3 := 0

/-- PAL_DEC whose checks pass (41_palette.md R165): the palette records, the cells, the room for its output. -/
theorem cmdPalDec_of_check {p : Params} {r : RwRegs} (hcheck : checkCommand p .palDec r = .ok ()) (m : Memory) :
    cmdPalDec p r m =
      readRecords r.arg0.toNat (regionReader m (src0 r)) >>= fun x =>
      readIndexed x.1 r.arg1.toNat (regionReader m (src1 r)) >>= fun cells =>
      checkCapacity (dst0 r) (bitsToBytes (recordsBits cells)).length >>= fun _ =>
      .ok (palDecOutput r.arg0.toNat r.arg1.toNat cells) := by
  rw [cmdPalDec, hcheck, bind_ok]
  rfl

section
variable {s : State} (hcheck : checkCommand s.params .palDec s.lreg = .ok ())
include hcheck

theorem exec_palDec_record_error {c : Cause}
    (hread : readRecords s.lreg.arg0.toNat (regionReader s.mem (src0 s.lreg)) = .error c) :
    exec .palDec s = .next (s.raise c) := by
  rw [exec_palDec, cmdPalDec_of_check hcheck, hread, bind_error, complete_error]

variable {pal : List Block} {rd : BitReader}
  (hread : readRecords s.lreg.arg0.toNat (regionReader s.mem (src0 s.lreg)) = .ok (pal, rd))
include hread

theorem exec_palDec_index_error {c : Cause}
    (hidx : readIndexed pal s.lreg.arg1.toNat (regionReader s.mem (src1 s.lreg)) = .error c) :
    exec .palDec s = .next (s.raise c) := by
  rw [exec_palDec, cmdPalDec_of_check hcheck, hread, bind_ok, hidx, bind_error, complete_error]

variable {cells : List Block} (hidx : readIndexed pal s.lreg.arg1.toNat (regionReader s.mem (src1 s.lreg)) = .ok cells)
include hidx

theorem exec_palDec_overflow (hlong : s.lreg.dst0Cap.toNat < (bitsToBytes (recordsBits cells)).length) :
    exec .palDec s = .next (s.raise .dstOverflow) := by
  rw [exec_palDec, cmdPalDec_of_check hcheck, hread, bind_ok, hidx, bind_ok, checkCapacity_eq_error.mpr ⟨hlong, rfl⟩, bind_error,
    complete_error]

theorem exec_palDec_completed (hfit : (bitsToBytes (recordsBits cells)).length ≤ s.lreg.dst0Cap.toNat) :
    ∃ t, exec .palDec s = .next t ∧
      Completed s t (bitsToBytes (recordsBits cells)) [] (bitsToBytes (recordsBits cells)).length s.lreg.arg1.toNat
        s.lreg.arg0.toNat 0 := by
  refine ⟨_, ?_, complete_ok_completed s _ _ _ _ _ (hfit.trans_lt s.lreg.dst0Cap.isLt) s.lreg.arg1.isLt s.lreg.arg0.isLt
    (by decide)⟩
  rw [exec_palDec, cmdPalDec_of_check hcheck, hread, bind_ok, hidx, bind_ok, checkCapacity_eq_ok.mpr hfit, bind_ok]
  rfl

end

/-- A grid equal in value to one read from a region fits wherever that region's bytes fit. -/
theorem SameGrid.records_fit {m : Memory} {d : Region} {n : Nat} {g g' : List Block} {rd : BitReader} (h : SameGrid g g')
    (hread : readRecords n (regionReader m d) = .ok (g, rd)) (hg' : ∀ b ∈ g', b.Legal) :
    (bitsToBytes (recordsBits g')).length ≤ d.len := by
  obtain ⟨hbits, hg⟩ := readRecords_eq_ok hread
  have hlen := congrArg List.length hbits
  rw [regionReader, readerOf, bytesToBits_length, regionBytes, memBytes_length, List.length_append,
    h.recordsBits_length_eq hg hg'] at hlen
  rw [bitsToBytes_length]
  omega

end Sys2Proof.Machine
end

section
/-! PROOFS. The statements about the palette, `PAL_ENC` and `PAL_DEC` (41_palette.md). -/

open Sys2Proof Sys2Proof.Machine

namespace Sys2Proof.Proofs

/-- Settles O40: each cell keeps the palette a palette of the cells so far, and the first one that cannot is the overflow. -/
theorem paletteListsFirstOccurrences : Obligations.PaletteListsFirstOccurrences := by
  refine ⟨fun limit g pal idx h => ?_, fun limit g c => ⟨exists_overflowsAt, ?_⟩, fun limit g => exists_paletteEncode_eq_ok⟩
  · have hpal := paletteEncode_isPalette h
    exact ⟨hpal.idx_length, hpal.distinct, hpal.names, hpal.first, hpal.length_le_cells, hpal.length_le_limit,
      hpal.length_eq_zero_iff⟩
  · rintro ⟨rfl, n, b, pal, idx, h⟩
    exact paletteEncode_of_overflowsAt h

/-- Settles O41: the records, the palette and the room for the outputs, the first of them that fails deciding the error. -/
theorem palEncCompletes : Obligations.PalEncCompletes := by
  intro s hregions hn
  have hcheck := checkCommand_palEnc.mpr ⟨hn, hregions⟩
  refine ⟨fun c => exec_palEnc_record_error hcheck, fun g rest hlen hg hbits => ?_⟩
  have hread := readRecords_region hlen hg hbits
  refine ⟨fun c => exec_palEnc_palette_error hcheck hread, fun pal idx hpal => ?_⟩
  rw [← hlen]
  exact ⟨exec_palEnc_completed hcheck hread hpal, exec_palEnc_overflow hcheck hread hpal⟩

/-- Settles O42: the palette records, the cells its index words name, and the room for their records. -/
theorem palDecCompletes : Obligations.PalDecCompletes := by
  intro s hregions hp hn
  have hcheck := checkCommand_palDec hp hn hregions
  refine ⟨fun c => exec_palDec_record_error hcheck, fun pal cells idx rest0 rest1 hlen0 hlen1 hpal hbits0 hbits1 hnamed => ?_⟩
  have hread := readRecords_region hlen0 hpal hbits0
  have hword : pal.length ≤ 2 ^ 32 := hlen0 ▸ s.lreg.arg0.isLt.le
  have hidx := readIndexed_region hlen1 (namedCells_iff.mpr hnamed) hword hbits1
  rw [← hlen0, ← hlen1]
  exact ⟨exec_palDec_completed hcheck hread hidx, exec_palDec_overflow hcheck hread hidx⟩

/-- Settles O43: the loop looks up the good indices and then meets the bad word, or the end. -/
theorem palDecReportsTheFirstBadIndex : Obligations.PalDecReportsTheFirstBadIndex := by
  intro s pal good rest0 rest1 hregions hlen0 hgood hp hn hpal hbits0 hbits1 hnamed
  have hcheck := checkCommand_palDec (hlen0 ▸ hp) hn hregions
  have hread := readRecords_region hlen0 hpal hbits0
  have hword : pal.length ≤ 2 ^ 32 := hlen0 ▸ s.lreg.arg0.isLt.le
  obtain ⟨cells, hcells⟩ := exists_namedCells hnamed
  have hfails : ∀ c, (∀ k pos, readIndexed pal (k + 1) ⟨pos, rest1⟩ = .error c) → exec .palDec s = .next (s.raise c) :=
    fun c hnext => exec_palDec_index_error hcheck hread (by
      rw [regionReader, readerOf, hbits1, readIndexed_error_after hcells hword hgood hnext])
  refine ⟨fun bad rest2 hrest hbad hlt => hfails _ fun k pos => ?_, fun hshort => hfails _ (readIndexed_short pal hshort)⟩
  rw [hrest, readIndexed_out_of_range hbad hlt]

/-- Settles O44: the indices name the grid's cells as values, and the entry a cell names is the cell itself exactly when equal cells
are listed alike. -/
theorem paletteRoundTrip : Obligations.PaletteRoundTrip := by
  intro s t s' henc hdone hparams hregions harg0 harg1 hsrc0 hsrc1 hcap
  obtain ⟨g, pal, idx, rd, hn, hread, henc, hres0, hres1, hmem0, hmem1⟩ := exec_palEnc_done henc hdone
  obtain ⟨hbits, hg⟩ := readRecords_eq_ok hread
  have hglen := readRecords_length hread
  have hpalette := paletteEncode_isPalette henc
  obtain ⟨cells, hcells, hsame⟩ := hpalette.exists_sameGrid
  have hpalLegal : ∀ b ∈ pal, b.Legal := fun b hb => hg b (hpalette.mem_grid hb)
  have hcellsLegal : ∀ b ∈ cells, b.Legal := fun b hb => hpalLegal b (hcells.mem_palette b hb)
  have hnp : s'.lreg.arg0.toNat = pal.length := by rw [harg0, hres0]
  have hnc : s'.lreg.arg1.toNat = idx.length := by rw [harg1, hres1, hpalette.idx_length]
  have hcheck : checkCommand s'.params .palDec s'.lreg = .ok () := by
    refine checkCommand_palDec ?_ ?_ hregions
    · rw [hnp, hparams]; exact hpalette.length_le_limit
    · rw [hnc, hpalette.idx_length, hglen, hparams]; exact hn
  have hreadPal := readRecords_region (m := s'.mem) (d := src0 s'.lreg) (rest := []) hnp hpalLegal
    (by rw [hsrc0, hmem0, bytesToBits_records, List.append_nil])
  have hreadIdx := readIndexed_region (m := s'.mem) (d := src1 s'.lreg) (rest := []) hnc hcells (hnp ▸ s'.lreg.arg0.isLt.le)
    (by rw [hsrc1, hmem1, bytesToBits_pack_words, List.append_nil])
  obtain ⟨t', hdec, hcompleted⟩ :=
    exec_palDec_completed hcheck hreadPal hreadIdx ((hsame.records_fit hread hcellsLegal).trans hcap)
  refine ⟨t', g, cells, rd.rest, hdec, hcompleted.status_eq, hbits, hglen, ?_, hsame, ?_⟩
  · have hmem := hcompleted.memBytes_dst0
    obtain ⟨-, ⟨hsize, -⟩, -⟩ := hcompleted
    rw [hsize, hmem, bytesToBits_records]
  · rw [← hpalette.namedCells_eq_iff hcells hsame]
    exact ⟨eq_of_recordsBits_eq hcellsLegal hg hsame.length_eq.symm, fun h => h ▸ rfl⟩

end Sys2Proof.Proofs
end

section
/-! SUPPORT. The match search, the tokens the compressor emits, their sizes, and what the decoder makes of them (42_lzss.md). -/

open Sys2Proof Sys2Proof.Machine

namespace Sys2Proof.Machine

/-! ### The match search -/

/-- The window found is the greatest index tried at which the lookahead stands (42_lzss.md R188). -/
theorem searchWindow_eq_some {hist la : List Nat} {i n j : Nat} (h : searchWindow hist la i n = some j) :
    (1 ≤ j ∧ j ≤ n) ∧ (hist.drop j).take i = la.take i ∧ ∀ j', j < j' → j' ≤ n → (hist.drop j').take i ≠ la.take i := by
  induction n with
  | zero => cases h
  | succ n ih =>
    rw [searchWindow] at h
    split at h
    · rename_i hmatch
      cases h
      exact ⟨⟨by omega, le_rfl⟩, hmatch, fun j' hlo hhi => absurd hhi (by omega)⟩
    · rename_i hmiss
      obtain ⟨⟨hpos, hle⟩, hmatch, hgreatest⟩ := ih h
      refine ⟨⟨hpos, by omega⟩, hmatch, fun j' hlo hhi => ?_⟩
      obtain rfl | hlt := Nat.eq_or_lt_of_le hhi
      · exact hmiss
      · exact hgreatest j' hlo (Nat.le_of_lt_succ hlt)

theorem searchWindow_eq_none {hist la : List Nat} {i n : Nat} (h : searchWindow hist la i n = none) {j : Nat} (hpos : 1 ≤ j)
    (hle : j ≤ n) : (hist.drop j).take i ≠ la.take i := by
  induction n with
  | zero => omega
  | succ n ih =>
    rw [searchWindow] at h
    split at h
    · cases h
    · rename_i hmiss
      obtain rfl | hlt := Nat.eq_or_lt_of_le hle
      · exact hmiss
      · exact ih h (Nat.le_of_lt_succ hlt)

/-- Length `i` at offset `off` is the match of 42_lzss.md R188 among the lengths up to `n`: no longer one stands anywhere, and none
of its length stands nearer. -/
structure IsBestMatch (search : Nat) (hist la : List Nat) (n i off : Nat) : Prop where
  length_pos : 1 ≤ i
  length_le : i ≤ n
  length_le_offset : i ≤ off
  offset_lt : off < search
  stands : (hist.drop (search - off)).take i = la.take i
  nearest : ∀ off', i ≤ off' → off' < off → (hist.drop (search - off')).take i ≠ la.take i
  longest : ∀ i' off', i < i' → i' ≤ n → i' ≤ off' → off' < search → (hist.drop (search - off')).take i' ≠ la.take i'

/-- The windows of one length are its offsets, the nearest last (42_lzss.md R188). -/
theorem no_offset_of_searchWindow_none {search i : Nat} {hist la : List Nat}
    (h : searchWindow hist la i (search - i) = none) {off : Nat} (hlo : i ≤ off) (hhi : off < search) :
    (hist.drop (search - off)).take i ≠ la.take i :=
  searchWindow_eq_none h (by omega) (by omega)

theorem searchMatch_eq_none {search n : Nat} {hist la : List Nat} (h : searchMatch search hist la n = none) {i off : Nat}
    (hpos : 1 ≤ i) (hle : i ≤ n) (hlo : i ≤ off) (hhi : off < search) : (hist.drop (search - off)).take i ≠ la.take i := by
  induction n with
  | zero => omega
  | succ n ih =>
    rw [searchMatch] at h
    split at h
    · cases h
    · rename_i hwindow
      obtain rfl | hlt := Nat.eq_or_lt_of_le hle
      · exact no_offset_of_searchWindow_none hwindow hlo hhi
      · exact ih h (Nat.le_of_lt_succ hlt)

theorem searchMatch_isBestMatch {search n i off : Nat} {hist la : List Nat}
    (h : searchMatch search hist la n = some (i, off)) : IsBestMatch search hist la n i off := by
  induction n with
  | zero => cases h
  | succ n ih =>
    rw [searchMatch] at h
    split at h
    · rename_i j hwindow
      cases h
      obtain ⟨⟨hpos, hle⟩, hmatch, hgreatest⟩ := searchWindow_eq_some hwindow
      have hj : search - (search - j) = j := by omega
      exact {
        length_pos := by omega
        length_le := le_rfl
        length_le_offset := by omega
        offset_lt := by omega
        stands := by rw [hj]; exact hmatch
        nearest := fun off' hlo hhi => hgreatest _ (by omega) (by omega)
        longest := fun i' off' hlt hle => absurd hle (by omega) }
    · rename_i hwindow
      have hbest := ih h
      refine { hbest with length_le := hbest.length_le.trans n.le_succ, longest := fun i' off' hlt hle hlo hhi => ?_ }
      obtain rfl | hlt' := Nat.eq_or_lt_of_le hle
      · exact no_offset_of_searchWindow_none hwindow hlo hhi
      · exact hbest.longest i' off' hlt (Nat.le_of_lt_succ hlt') hlo hhi

/-! ### The token at a position -/

/-- The history of `S` units, as what is left of padding and consumed units without as many units as were consumed. -/
theorem history_eq_drop (search : Nat) (done : List Nat) :
    history search done = (List.replicate search 0 ++ done).drop done.length := by
  rw [history, lastN, List.length_append, List.length_replicate, Nat.add_sub_cancel_left]

section
variable {search look width : Nat} {done : List Nat} {x : Nat} {xs : List Nat}

theorem nextToken_of_match {i off : Nat} (h : searchMatch search (history search done) ((x :: xs).take look)
      ((x :: xs).take look).length = some (i, off)) :
    nextToken search look width done x xs = if matchCost search look ≤ (1 + width) * i then .mat off i else .lit x := by
  simp only [nextToken, h]

theorem nextToken_of_no_match (h : searchMatch search (history search done) ((x :: xs).take look)
      ((x :: xs).take look).length = none) : nextToken search look width done x xs = .lit x := by
  simp only [nextToken, h]

variable (search look width done x xs)

/-- What the compressor emits at a position: the literal there, or the best match, which costs no more than its literals
(42_lzss.md R189, R191). -/
theorem nextToken_cases : nextToken search look width done x xs = .lit x ∨
    ∃ i off, nextToken search look width done x xs = .mat off i ∧ matchCost search look ≤ (1 + width) * i ∧
      IsBestMatch search (history search done) ((x :: xs).take look) ((x :: xs).take look).length i off := by
  cases h : searchMatch search (history search done) ((x :: xs).take look) ((x :: xs).take look).length with
  | none => exact .inl (nextToken_of_no_match h)
  | some m =>
    obtain ⟨i, off⟩ := m
    rw [nextToken_of_match h]
    split
    · exact .inr ⟨i, off, rfl, ‹_›, searchMatch_isBestMatch h⟩
    · exact .inl rfl

/-- Every token consumes a unit, and no token more than there are (42_lzss.md R196). -/
theorem tokenUnits_nextToken : 1 ≤ tokenUnits (nextToken search look width done x xs) ∧
    tokenUnits (nextToken search look width done x xs) ≤ (x :: xs).length := by
  obtain h | ⟨i, off, h, -, hbest⟩ := nextToken_cases search look width done x xs
  · rw [h, tokenUnits, List.length_cons]; omega
  · rw [h, tokenUnits]
    exact ⟨hbest.length_pos, hbest.length_le.trans (List.length_take_le' _ _)⟩

end

/-! ### The tokens of a run of the compressor -/

/-- `ts` are the tokens the compressor emits for the unread units after it has consumed the first ones: `compressLoop` without its
fuel (42_lzss.md R185). -/
inductive Emits (search look width : Nat) : List Nat → List Nat → List Token → Prop
  | nil (done : List Nat) : Emits search look width done [] []
  | cons {done : List Nat} {x : Nat} {xs : List Nat} {t : Token} {ts : List Token}
      (token : t = nextToken search look width done x xs)
      (rest : Emits search look width (done ++ (x :: xs).take (tokenUnits t)) ((x :: xs).drop (tokenUnits t)) ts) :
      Emits search look width done (x :: xs) (t :: ts)

/-- As much fuel as there are units is enough (42_lzss.md R196). -/
theorem compressLoop_emits (search look width : Nat) {fuel : Nat} {done unread : List Nat} (h : unread.length ≤ fuel) :
    Emits search look width done unread (compressLoop search look width fuel done unread) := by
  induction fuel generalizing done unread with
  | zero =>
    obtain rfl := List.length_eq_zero_iff.mp (Nat.le_zero.mp h)
    exact .nil done
  | succ fuel ih =>
    cases unread with
    | nil => exact .nil done
    | cons x xs =>
      refine .cons rfl (ih ?_)
      have := tokenUnits_nextToken search look width done x xs
      rw [List.length_drop]
      omega

theorem compressTokens_emits (search look width : Nat) (u : List Nat) :
    Emits search look width [] u (compressTokens search look width u) :=
  compressLoop_emits search look width le_rfl

namespace Emits

variable {search look width : Nat} {done unread : List Nat} {ts : List Token}

/-- The tokens consume every unit (42_lzss.md R195). -/
theorem units_sum (h : Emits search look width done unread ts) : (ts.map tokenUnits).sum = unread.length := by
  induction h with
  | nil => rfl
  | @cons done x xs t ts ht _ ih =>
    have := tokenUnits_nextToken search look width done x xs
    rw [List.map_cons, List.sum_cons, ih, List.length_drop, ht]
    omega

/-- Token `k` is the one of the position that the tokens before it lead to (42_lzss.md R185). -/
theorem token_at (h : Emits search look width done unread ts) {k : Nat} {t : Token} (hk : ts[k]? = some t) :
    ∃ x xs, unread.drop ((ts.take k).map tokenUnits).sum = x :: xs ∧
      t = nextToken search look width (done ++ unread.take ((ts.take k).map tokenUnits).sum) x xs := by
  induction h generalizing k with
  | nil => simp at hk
  | @cons done x xs t' ts ht _ ih =>
    cases k with
    | zero =>
      obtain rfl := Option.some.inj hk
      exact ⟨x, xs, rfl, by simpa using ht⟩
    | succ k =>
      obtain ⟨y, ys, hunread, htoken⟩ := ih hk
      rw [List.drop_drop] at hunread
      rw [List.append_assoc, ← List.take_add] at htoken
      exact ⟨y, ys, hunread, htoken⟩

/-- Every match that is emitted lies in the history and costs no more than its literals (42_lzss.md R189, R194). -/
theorem match_bounds (h : Emits search look width done unread ts) {off len : Nat} (hm : Token.mat off len ∈ ts) :
    1 ≤ len ∧ len ≤ look ∧ len ≤ off ∧ off ≤ search - 1 ∧ matchCost search look ≤ (1 + width) * len := by
  obtain ⟨k, hk⟩ := List.mem_iff_getElem?.mp hm
  obtain ⟨x, xs, -, htoken⟩ := h.token_at hk
  obtain hlit | ⟨i, off', hmat, hcost, hbest⟩ := nextToken_cases search look width _ x xs
  · cases htoken.trans hlit
  · cases htoken.trans hmat
    have hlook : len ≤ look := hbest.length_le.trans (List.length_take_le _ _)
    have hlt := hbest.offset_lt
    exact ⟨hbest.length_pos, hlook, hbest.length_le_offset, by omega, hcost⟩

end Emits

/-! ### Sizes -/

theorem matchBits_length (search look width off len : Nat) :
    (tokenBits search look width (.mat off len)).length = matchCost search look := by
  simp only [tokenBits, matchCost, List.length_cons, List.length_append, natBits_length]; omega

theorem literalBits_length (search look width v : Nat) : (tokenBits search look width (.lit v)).length = 1 + width := by
  simp only [tokenBits, List.length_cons, natBits_length]; omega

/-- A body is its literals and its matches, each at its width (42_lzss.md R194). -/
theorem bodyBits_length (search look width : Nat) (ts : List Token) :
    (bodyBits search look width ts).length = countLits ts * (1 + width) + countMats ts * matchCost search look := by
  induction ts with
  | nil => simp [bodyBits, countLits, countMats]
  | cons t ts ih =>
    rw [bodyBits, List.length_append, ih]
    cases t with
    | lit v => rw [literalBits_length, countLits, countMats]; ring
    | mat off len => rw [matchBits_length, countLits, countMats]; ring

/-- Each literal stands for one unit, and the rest of the units for the matches; `isMatch` tells which tokens are matches. -/
theorem countLits_add_matchUnits {isMatch : Token → Bool} (hlit : ∀ v, isMatch (.lit v) = false)
    (hmat : ∀ off len, isMatch (.mat off len) = true) (ts : List Token) :
    countLits ts + ((ts.filter isMatch).map tokenUnits).sum = (ts.map tokenUnits).sum := by
  induction ts with
  | nil => rfl
  | cons t ts ih =>
    cases t with
    | lit v => rw [List.filter_cons_of_neg (by simp [hlit]), countLits, List.map_cons, List.sum_cons, tokenUnits, ← ih]; omega
    | mat off len =>
      rw [List.filter_cons_of_pos (hmat off len), countLits, List.map_cons, List.sum_cons, List.map_cons, List.sum_cons, ← ih]
      omega

/-- Where no match costs more than its literals, no body does (42_lzss.md R194). -/
theorem bodyBits_length_le {search look width : Nat} {ts : List Token}
    (h : ∀ off len, Token.mat off len ∈ ts → matchCost search look ≤ (1 + width) * len) :
    (bodyBits search look width ts).length ≤ (ts.map tokenUnits).sum * (1 + width) := by
  induction ts with
  | nil => simp [bodyBits]
  | cons t ts ih =>
    have hts := ih fun off len hm => h off len (.tail _ hm)
    have ht : (tokenBits search look width t).length ≤ tokenUnits t * (1 + width) := by
      cases t with
      | lit v => rw [literalBits_length, tokenUnits, Nat.one_mul]
      | mat off len => rw [matchBits_length, tokenUnits, Nat.mul_comm]; exact h off len (.head _)
    rw [bodyBits, List.length_append, List.map_cons, List.sum_cons, Nat.add_mul]
    exact Nat.add_le_add ht hts

/-- Every token has its flag bit (30_encoding.md R117). -/
theorem length_le_bodyBits_length (search look width : Nat) (ts : List Token) :
    ts.length ≤ (bodyBits search look width ts).length := by
  induction ts with
  | nil => exact Nat.zero_le _
  | cons t ts ih =>
    have ht : 1 ≤ (tokenBits search look width t).length := by
      cases t with
      | lit v => rw [literalBits_length]; omega
      | mat off len => rw [matchBits_length, matchCost]; omega
    rw [bodyBits, List.length_append, List.length_cons]
    omega

theorem countLits_add_countMats (ts : List Token) : countLits ts + countMats ts = ts.length := by
  induction ts with
  | nil => rfl
  | cons t ts ih =>
    cases t with
    | lit v => rw [countLits, countMats, List.length_cons]; omega
    | mat off len => rw [countLits, countMats, List.length_cons]; omega

section
variable (search look width : Nat) (u : List Nat)

@[simp] theorem headerBits_length (n : Nat) : (headerBits search look width n).length = 48 := by
  simp [headerBits, Config.hdrBits]

theorem lzCompress_length : (lzCompress search look width u).length =
    (48 + (bodyBits search look width (compressTokens search look width u)).length + 7) / 8 := by
  rw [lzCompress, bitsToBytes_length, List.length_append, headerBits_length]

theorem compressTokens_bodyBits_le :
    (bodyBits search look width (compressTokens search look width u)).length ≤ u.length * (1 + width) := by
  have hemits := compressTokens_emits search look width u
  rw [← hemits.units_sum]
  refine bodyBits_length_le fun off len hm => ?_
  obtain ⟨-, -, -, -, hcost⟩ := hemits.match_bounds hm
  exact hcost

end

/-- A payload of exactly 6 bytes is the payload of no units (42_lzss.md R202). -/
theorem lzCompress_length_eq_six_iff {search look width : Nat} {u : List Nat} :
    (lzCompress search look width u).length = 6 ↔ u = [] := by
  have hsum := (compressTokens_emits search look width u).units_sum
  have hbits := length_le_bodyBits_length search look width (compressTokens search look width u)
  rw [lzCompress_length]
  constructor
  · intro h
    rw [List.length_eq_zero_iff.mp (show (compressTokens search look width u).length = 0 by omega)] at hsum
    exact List.length_eq_zero_iff.mp hsum.symm
  · rintro rfl
    have hnone : bodyBits search look width (compressTokens search look width []) = [] := rfl
    rw [hnone, List.length_nil]

/-! ### The header -/

/-- What `lzReadHeader` makes of its four fields (42_lzss.md R201, R202, R203). -/
theorem lzReadHeader_fields {search look width c : Nat} (hsearch : search < 4096) (hlook : look < 4096) (hwidth : width < 4096)
    (hc : c < 4096) (pos nbytes : Nat) (rest : List Bool) :
    lzReadHeader ⟨pos, natBits 12 search ++ natBits 12 look ++ natBits 12 width ++ natBits 12 c ++ rest⟩ nbytes =
      if width < 1 ∨ 16 < width ∨ search = 0 ∨ look = 0 then .error .badLzssHeader
      else if c = 4095 ∧ nbytes = 6 then .ok (⟨search, look, width, 0⟩, ⟨pos + 48, rest⟩)
      else .ok (⟨search, look, width, c + 1⟩, ⟨pos + 48, rest⟩) := by
  simp only [List.append_assoc]
  rw [lzReadHeader, Config.hdrBits, getBits_natBits _ 12 _ _ hsearch, bind_ok]
  dsimp only
  rw [getBits_natBits _ 12 _ _ hlook, bind_ok]
  dsimp only
  rw [getBits_natBits _ 12 _ _ hwidth, bind_ok]
  dsimp only
  rw [getBits_natBits _ 12 _ _ hc, bind_ok]
  rfl

/-- A field read from a stream that ends before the `k` bits after it, where reading on would be PREMATURE_END. -/
theorem bind_getBits_short {β : Type} {r : BitReader} {m k : Nat} {f : Nat × BitReader → Except Cause β}
    (hshort : r.rest.length < m + k) (hf : ∀ v r', r'.rest.length < k → f (v, r') = .error .prematureEnd) :
    getBits r m >>= f = .error .prematureEnd := by
  cases h : getBits r m with
  | error c => rw [getBits_error_mem h, bind_error]
  | ok x =>
    obtain ⟨v, r'⟩ := x
    obtain ⟨-, hrest, -⟩ := getBits_eq_ok h
    rw [hrest, List.length_append, natBits_length] at hshort
    exact hf v r' (by omega)

/-- A payload that ends inside its header (42_lzss.md R201). -/
theorem lzReadHeader_short {r : BitReader} (h : r.rest.length < 48) (nbytes : Nat) :
    lzReadHeader r nbytes = .error .prematureEnd :=
  bind_getBits_short (k := 36) h fun _ _ h => bind_getBits_short (k := 24) h fun _ _ h =>
    bind_getBits_short (k := 12) h fun _ _ h => bind_getBits_short (k := 0) h fun _ _ h => absurd h (Nat.not_lt_zero _)

/-- A header that reads has its fields in their ranges (42_lzss.md R201, R203). -/
theorem lzReadHeader_eq_ok {r r' : BitReader} {nbytes : Nat} {h : LzHeader} (hread : lzReadHeader r nbytes = .ok (h, r')) :
    LzParamsLegal h.search h.lookahead h.width h.count := by
  rw [lzReadHeader] at hread
  obtain ⟨⟨search, r1⟩, h1, hread⟩ := bind_eq_ok.mp hread
  obtain ⟨⟨look, r2⟩, h2, hread⟩ := bind_eq_ok.mp hread
  obtain ⟨⟨width, r3⟩, h3, hread⟩ := bind_eq_ok.mp hread
  obtain ⟨⟨c, r4⟩, h4, hread⟩ := bind_eq_ok.mp hread
  have hsearch := (getBits_eq_ok h1).1
  have hlook := (getBits_eq_ok h2).1
  have hc := (getBits_eq_ok h4).1
  dsimp only at hread
  split at hread
  · cases hread
  · rename_i hlegal
    simp only [Config.hdrBits, Config.wMin, Config.wMax] at hsearch hlook hc hlegal
    split at hread <;> cases hread <;> dsimp only <;> omega

/-! ### Match expansion -/

/-- Unit `k` that a match of offset `off` appends: the last `off` units over and over (42_lzss.md R206). -/
def repeatedUnit (off : Nat) (out : List Nat) (k : Nat) : Nat := out.getD (out.length - off + k % off) 0

/-- The copy loop reads unit `k` from the output, or from what it has appended itself (42_lzss.md R206). -/
theorem getElem?_repeatedUnit {off : Nat} {out : List Nat} (hpos : 1 ≤ off) (hle : off ≤ out.length) (k : Nat) :
    (out ++ (List.range k).map (repeatedUnit off out))[out.length - off + k]? = some (repeatedUnit off out k) := by
  by_cases hk : k < off
  · have hin : out.length - off + k < out.length := by omega
    rw [List.getElem?_append_left hin, repeatedUnit, Nat.mod_eq_of_lt hk, List.getD_eq_getElem _ _ hin,
      List.getElem?_eq_getElem hin]
  · have hindex : out.length - off + k - out.length = k - off := by omega
    have hperiod : repeatedUnit off out (k - off) = repeatedUnit off out k := by
      rw [repeatedUnit, repeatedUnit, ← Nat.mod_eq_sub_mod (Nat.le_of_not_lt hk)]
    rw [List.getElem?_append_right (by omega), hindex, List.getElem?_map, List.getElem?_range (by omega),
      Option.map_some, hperiod]

theorem copyMatch_repeats {off : Nat} {out : List Nat} (hpos : 1 ≤ off) (hle : off ≤ out.length) (k n : Nat) :
    copyMatch (out.length - off + k) n (out ++ (List.range k).map (repeatedUnit off out)) =
      .ok (out ++ (List.range (k + n)).map (repeatedUnit off out)) := by
  induction n generalizing k with
  | zero => rfl
  | succ n ih =>
    have hstep : out ++ (List.range k).map (repeatedUnit off out) ++ [repeatedUnit off out k] =
        out ++ (List.range (k + 1)).map (repeatedUnit off out) := by
      rw [List.append_assoc, List.range_succ, List.map_append, List.map_singleton]
    simp only [copyMatch, getElem?_repeatedUnit hpos hle k]
    rw [hstep, Nat.add_assoc, ih, Nat.add_assoc, Nat.add_comm 1]

theorem expandMatch_repeats {off : Nat} {out : List Nat} (hpos : 1 ≤ off) (hle : off ≤ out.length) (len : Nat) :
    expandMatch Config.copyCount off len out = .ok (out ++ (List.range len).map (repeatedUnit off out)) := by
  have hcopy := copyMatch_repeats hpos hle 0 len
  rw [List.range_zero, List.map_nil, List.append_nil, Nat.add_zero, Nat.zero_add] at hcopy
  rw [expandMatch, if_neg (Nat.not_lt.mpr hle)]
  exact hcopy

/-- A match no longer than its offset copies units that stood in the output before it. -/
theorem expandMatch_of_le {off len : Nat} {out : List Nat} (hpos : 1 ≤ off) (hle : off ≤ out.length) (hlen : len ≤ off) :
    expandMatch Config.copyCount off len out = .ok (out ++ (out.drop (out.length - off)).take len) := by
  have hunits : (List.range len).map (repeatedUnit off out) = (out.drop (out.length - off)).take len := by
    refine List.ext_getElem (by simp; omega) fun k hk _ => ?_
    rw [List.length_map, List.length_range] at hk
    rw [List.getElem_map, List.getElem_range, List.getElem_take, List.getElem_drop, repeatedUnit,
      Nat.mod_eq_of_lt (hk.trans_le hlen), List.getD_eq_getElem]
  rw [expandMatch_repeats hpos hle, hunits]

theorem expandMatch_past_start {off : Nat} {out : List Nat} (h : out.length < off) (len : Nat) :
    expandMatch Config.copyCount off len out = .error .badOffset :=
  if_pos h

theorem expandMatch_length_zero {off : Nat} {out : List Nat} (h : off ≤ out.length) :
    expandMatch Config.copyCount off 0 out = .ok out :=
  if_neg (Nat.not_lt.mpr h)

/-- Offset 0 is the index after the last unit (42_lzss.md R206). -/
theorem expandMatch_offset_zero {len : Nat} (h : 1 ≤ len) (out : List Nat) :
    expandMatch Config.copyCount 0 len out = .error .badOffset := by
  obtain ⟨n, rfl⟩ := Nat.exists_eq_add_of_le' h
  have hnone : out[out.length]? = none := List.getElem?_eq_none le_rfl
  rw [expandMatch, if_neg (Nat.not_lt_zero _), Nat.sub_zero, Config.copyCount, copyUnits, copyMatch]
  simp only [hnone]

/-! ### The decoder's loop -/

theorem decodeLoop_done {h : LzHeader} {out : List Nat} (hfull : h.search + h.count ≤ out.length) (cc : CopyCount) (fuel : Nat)
    (r : BitReader) : decodeLoop cc h fuel r out = .ok out := by
  cases fuel with
  | zero => rw [decodeLoop, if_neg (Nat.not_lt.mpr hfull)]
  | succ fuel => rw [decodeLoop, if_neg (Nat.not_lt.mpr hfull)]

theorem decodeLoop_token {h : LzHeader} {out : List Nat} (hmore : out.length < h.search + h.count) (cc : CopyCount) (fuel : Nat)
    (r : BitReader) : decodeLoop cc h (fuel + 1) r out = decodeToken cc h r out >>= fun x => decodeLoop cc h fuel x.2 x.1 := by
  rw [decodeLoop, if_pos hmore]

/-- What the loop can do when it succeeds: nothing, or a token and then the rest. -/
theorem decodeLoop_eq_ok {cc : CopyCount} {h : LzHeader} {fuel : Nat} {r : BitReader} {out out' : List Nat}
    (hok : decodeLoop cc h fuel r out = .ok out') :
    (h.search + h.count ≤ out.length ∧ out' = out) ∨
    out.length < h.search + h.count ∧ ∃ n mid r', fuel = n + 1 ∧ decodeToken cc h r out = .ok (mid, r') ∧
      decodeLoop cc h n r' mid = .ok out' := by
  by_cases hmore : out.length < h.search + h.count
  · cases fuel with
    | zero => rw [decodeLoop, if_pos hmore] at hok; cases hok
    | succ n =>
      rw [decodeLoop_token hmore] at hok
      obtain ⟨⟨mid, r'⟩, htoken, hrest⟩ := bind_eq_ok.mp hok
      exact .inr ⟨hmore, n, mid, r', rfl, htoken, hrest⟩
  · have hfull := Nat.le_of_not_lt hmore
    rw [decodeLoop_done hfull] at hok
    exact .inl ⟨hfull, (Except.ok.inj hok).symm⟩

/-- A token appends a unit, or as many as its length field says (42_lzss.md R204). -/
theorem decodeToken_eq_ok {h : LzHeader} {r r' : BitReader} {out out' : List Nat}
    (hok : decodeToken Config.copyCount h r out = .ok (out', r')) :
    ∃ v, out' = out ++ v ∧ v.length ≤ max 1 (2 ^ b2r h.lookahead - 1) := by
  rw [decodeToken] at hok
  obtain ⟨⟨f, r1⟩, -, hok⟩ := bind_eq_ok.mp hok
  dsimp only at hok
  split at hok
  · obtain ⟨⟨v, r2⟩, -, hok⟩ := bind_eq_ok.mp hok
    cases hok
    exact ⟨[v], rfl, le_max_left _ _⟩
  · obtain ⟨⟨off, r2⟩, -, hok⟩ := bind_eq_ok.mp hok
    obtain ⟨⟨len, r3⟩, hlen, hok⟩ := bind_eq_ok.mp hok
    obtain ⟨mid, hexpand, hok⟩ := bind_eq_ok.mp hok
    cases hok
    obtain ⟨-, v, hv, hvlen⟩ := expandMatch_eq_ok hexpand
    have hlt := (getBits_eq_ok hlen).1
    exact ⟨v, hv, by omega⟩

/-- The loop ends with the first token that reaches the count (42_lzss.md R207). -/
theorem decodeLoop_length {h : LzHeader} {fuel : Nat} {r : BitReader} {out out' : List Nat}
    (hok : decodeLoop Config.copyCount h fuel r out = .ok out') :
    h.search + h.count ≤ out'.length ∧
    (out'.length < h.search + h.count + max 1 (2 ^ b2r h.lookahead - 1) ∨ out' = out) := by
  induction fuel generalizing r out with
  | zero =>
    obtain ⟨hfull, rfl⟩ | ⟨-, n, mid, r', hfuel, -⟩ := decodeLoop_eq_ok hok
    · exact ⟨hfull, .inr rfl⟩
    · cases hfuel
  | succ fuel ih =>
    obtain ⟨hfull, rfl⟩ | ⟨hmore, n, mid, r', hfuel, htoken, hrest⟩ := decodeLoop_eq_ok hok
    · exact ⟨hfull, .inr rfl⟩
    · cases hfuel
      obtain ⟨hlow, hhigh⟩ := ih hrest
      obtain ⟨v, rfl, hv⟩ := decodeToken_eq_ok htoken
      refine ⟨hlow, .inl (hhigh.elim id ?_)⟩
      rintro rfl
      rw [List.length_append]
      omega

theorem decodeToken_readsFromFront (cc : CopyCount) (h : LzHeader) (out : List Nat) :
    ReadsFromFront fun r => decodeToken cc h r out := by
  have hexpand : ∀ off len, ReadsFromFront fun r => expandMatch cc off len out >>= fun out' => .ok (out', r) := by
    intro off len
    cases expandMatch cc off len out with
    | ok out' => exact .pure out'
    | error c => exact .fail c
  exact (getBits_readsFromFront 1).bind fun f => .ite (p := f = 0)
    ((getBits_readsFromFront h.width).bind fun v => .pure (out ++ [v]))
    ((getBits_readsFromFront (b2r h.search)).bind fun off => (getBits_readsFromFront (b2r h.lookahead)).bind fun len =>
      hexpand off len)

/-- Neither bits after the last token nor more fuel change what was decoded (42_lzss.md R209). -/
theorem decodeLoop_extend {cc : CopyCount} {h : LzHeader} {fuel fuel' : Nat} {r : BitReader} {out out' : List Nat}
    (hfuel : fuel ≤ fuel') (hok : decodeLoop cc h fuel r out = .ok out') (extra : List Bool) :
    decodeLoop cc h fuel' (r.extend extra) out = .ok out' := by
  induction fuel generalizing fuel' r out with
  | zero =>
    obtain ⟨hfull, rfl⟩ | ⟨-, n, mid, r', hn, -⟩ := decodeLoop_eq_ok hok
    · exact decodeLoop_done hfull cc fuel' _
    · cases hn
  | succ fuel ih =>
    obtain ⟨hfull, rfl⟩ | ⟨hmore, n, mid, r', hn, htoken, hrest⟩ := decodeLoop_eq_ok hok
    · exact decodeLoop_done hfull cc fuel' _
    · cases hn
      obtain ⟨m, rfl⟩ := Nat.exists_eq_add_of_le' (show 1 ≤ fuel' by omega)
      rw [decodeLoop_token hmore, (decodeToken_readsFromFront cc h out).ok extra htoken, bind_ok]
      exact ih (by omega) hrest

theorem lzDecodeBody_eq_ok {cc : CopyCount} {h : LzHeader} {r : BitReader} {u : List Nat} :
    lzDecodeBody cc h r = .ok u ↔
      ∃ out, decodeLoop cc h r.rest.length r (List.replicate h.search 0) = .ok out ∧ out.drop h.search = u := by
  rw [lzDecodeBody, bind_eq_ok]
  simp only [Except.ok.injEq]

/-- How many units a body decodes to (42_lzss.md R207, R208). -/
theorem lzDecodeBody_length {h : LzHeader} {r : BitReader} {u : List Nat} (hok : lzDecodeBody Config.copyCount h r = .ok u) :
    h.count ≤ u.length ∧ (h.lookahead < 4096 → u.length < h.count + 4096) := by
  obtain ⟨out, hloop, rfl⟩ := lzDecodeBody_eq_ok.mp hok
  obtain ⟨hlow, hhigh⟩ := decodeLoop_length hloop
  rw [List.length_drop]
  refine ⟨by omega, fun hlook => ?_⟩
  have hfield : 2 ^ b2r h.lookahead ≤ 2 ^ 12 := Nat.pow_le_pow_right Nat.two_pos (b2r_le_iff.mpr hlook)
  obtain hhigh | rfl := hhigh
  · omega
  · rw [List.length_replicate]; omega

theorem lzDecodeBody_extend {cc : CopyCount} {h : LzHeader} {r : BitReader} {u : List Nat} (hok : lzDecodeBody cc h r = .ok u)
    (extra : List Bool) : lzDecodeBody cc h (r.extend extra) = .ok u := by
  obtain ⟨out, hloop, hu⟩ := lzDecodeBody_eq_ok.mp hok
  refine lzDecodeBody_eq_ok.mpr ⟨out, decodeLoop_extend ?_ hloop extra, hu⟩
  rw [BitReader.extend, List.length_append]
  exact Nat.le_add_right _ _

/-! ### The round trip -/

/-- The units a best match stands for, found in the padded output `off` units back (42_lzss.md R187, R188). -/
theorem IsBestMatch.units_back {search look i off : Nat} {done unread : List Nat}
    (h : IsBestMatch search (history search done) (unread.take look) (unread.take look).length i off) :
    ((List.replicate search 0 ++ done).drop ((List.replicate search 0 ++ done).length - off)).take i = unread.take i := by
  have hstands := h.stands
  have hlook : i ≤ look := h.length_le.trans (List.length_take_le _ _)
  have hlt := h.offset_lt
  rw [history_eq_drop, List.drop_drop, List.take_take, Nat.min_eq_left hlook] at hstands
  rw [← hstands, List.length_append, List.length_replicate]
  congr 2
  omega

/-- Decoding the token of a position appends the units it consumed (42_lzss.md R213). -/
theorem decodeToken_nextToken {search look width x : Nat} {done xs : List Nat} {t : Token}
    (ht : t = nextToken search look width done x xs) (hx : x < 2 ^ width) (n pos : Nat) (rest : List Bool) :
    ∃ pos', decodeToken Config.copyCount ⟨search, look, width, n⟩ ⟨pos, tokenBits search look width t ++ rest⟩
        (List.replicate search 0 ++ done) =
      .ok (List.replicate search 0 ++ (done ++ (x :: xs).take (tokenUnits t)), ⟨pos', rest⟩) := by
  obtain htoken | ⟨i, off, htoken, -, hbest⟩ := nextToken_cases search look width done x xs
  · rw [ht, htoken, tokenBits, tokenUnits, ← List.append_assoc]
    exact ⟨_, decodeToken_literal_bits _ ⟨search, look, width, n⟩ pos rest _ hx⟩
  · have hlook : i ≤ look := hbest.length_le.trans (List.length_take_le _ _)
    have hpos : 1 ≤ off := hbest.length_pos.trans hbest.length_le_offset
    have hlt := hbest.offset_lt
    have hback : off ≤ (List.replicate search 0 ++ done).length := by rw [List.length_append, List.length_replicate]; omega
    have hexpand := expandMatch_of_le hpos hback hbest.length_le_offset
    rw [hbest.units_back] at hexpand
    have hdecode := decodeToken_match_bits Config.copyCount ⟨search, look, width, n⟩ pos rest (List.replicate search 0 ++ done)
      (hlt.trans (lt_two_pow_b2r search)) (hlook.trans_lt (lt_two_pow_b2r look))
    rw [hexpand, bind_ok] at hdecode
    rw [ht, htoken, tokenBits, tokenUnits, ← List.append_assoc]
    exact ⟨_, hdecode⟩

/-- The loop decodes the tokens of the unread units to those units (42_lzss.md R213). -/
theorem Emits.decodeLoop_bodyBits {search look width : Nat} {done unread : List Nat} {ts : List Token}
    (h : Emits search look width done unread ts) (hu : ∀ x ∈ unread, x < 2 ^ width) {fuel : Nat} (hfuel : ts.length ≤ fuel)
    (pos : Nat) (rest : List Bool) :
    decodeLoop Config.copyCount ⟨search, look, width, done.length + unread.length⟩ fuel
      ⟨pos, bodyBits search look width ts ++ rest⟩ (List.replicate search 0 ++ done) =
    .ok (List.replicate search 0 ++ (done ++ unread)) := by
  induction h generalizing fuel pos with
  | nil done =>
    rw [List.append_nil]
    refine decodeLoop_done ?_ _ fuel _
    simp
  | @cons done x xs t ts ht hrest ih =>
    obtain ⟨m, rfl⟩ := Nat.exists_eq_add_of_le' (show 1 ≤ fuel from le_trans (Nat.succ_pos _) hfuel)
    have hmore : (List.replicate search 0 ++ done).length < search + (done.length + (x :: xs).length) := by simp
    have hconsumed : done.length + (x :: xs).length =
        (done ++ (x :: xs).take (tokenUnits t)).length + ((x :: xs).drop (tokenUnits t)).length := by
      rw [← List.length_append, ← List.length_append, List.append_assoc, List.take_append_drop]
    obtain ⟨pos', hdecode⟩ := decodeToken_nextToken ht (hu x (.head _)) (done.length + (x :: xs).length) pos
      (bodyBits search look width ts ++ rest)
    rw [bodyBits, List.append_assoc, decodeLoop_token hmore, hdecode, bind_ok, hconsumed]
    dsimp only
    rw [ih (fun y hy => hu y (List.mem_of_mem_drop hy)) (Nat.le_of_succ_le_succ hfuel), List.append_assoc done,
      List.take_append_drop]

/-- The header of a payload reads back, with the count (42_lzss.md R182, R183, R202). -/
theorem lzReadHeader_headerBits {search look width n nbytes : Nat} (hlegal : LzParamsLegal search look width n)
    (hempty : nbytes = 6 ↔ n = 0) (pos : Nat) (rest : List Bool) :
    lzReadHeader ⟨pos, headerBits search look width n ++ rest⟩ nbytes = .ok (⟨search, look, width, n⟩, ⟨pos + 48, rest⟩) := by
  obtain ⟨hsearch, hlook, hwidth, hn⟩ := hlegal
  have hcount : countField n < 4096 := Nat.mod_lt _ (by decide)
  rw [headerBits, Config.hdrBits, lzReadHeader_fields (by omega) (by omega) (by omega) hcount, if_neg (by omega)]
  obtain rfl | hpos := n.eq_zero_or_pos
  · rw [if_pos ⟨rfl, hempty.mpr rfl⟩]
  · have hfield : countField n + 1 = n := by rw [countField]; omega
    rw [if_neg (by omega), hfield]

/-- The stream of a payload: its header, its body, and the padding (42_lzss.md R193). -/
theorem bytesToBits_lzCompress (search look width : Nat) (u : List Nat) :
    ∃ pad, bytesToBits (lzCompress search look width u) = headerBits search look width u.length ++
      (bodyBits search look width (compressTokens search look width u) ++ pad) := by
  rw [lzCompress, bytesToBits_bitsToBytes, alignBits]
  exact ⟨_, List.append_assoc _ _ _⟩

/-- Decoding the body of a payload gives its units, whatever follows it (42_lzss.md R213). -/
theorem lzDecodeBody_compressTokens {search look width : Nat} {u : List Nat} (hu : ∀ x ∈ u, x < 2 ^ width) (pos : Nat)
    (rest : List Bool) :
    lzDecodeBody Config.copyCount ⟨search, look, width, u.length⟩
      ⟨pos, bodyBits search look width (compressTokens search look width u) ++ rest⟩ = .ok u := by
  have hfuel : (compressTokens search look width u).length ≤
      (bodyBits search look width (compressTokens search look width u) ++ rest).length := by
    rw [List.length_append]
    exact (length_le_bodyBits_length search look width _).trans (Nat.le_add_right _ _)
  have hloop := (compressTokens_emits search look width u).decodeLoop_bodyBits hu hfuel pos rest
  rw [List.append_nil, List.length_nil, Nat.zero_add, List.nil_append] at hloop
  exact lzDecodeBody_eq_ok.mpr ⟨_, hloop, List.drop_left' List.length_replicate⟩

/-- Reading back what the compressor wrote (42_lzss.md R213). -/
theorem lzDecode_lzCompress {search look width : Nat} {u : List Nat} (hlegal : LzParamsLegal search look width u.length)
    (hu : ∀ x ∈ u, x < 2 ^ width) :
    ∃ r, lzReadHeader (readerOf (lzCompress search look width u)) (lzCompress search look width u).length =
        .ok (⟨search, look, width, u.length⟩, r) ∧
      lzDecodeBody Config.copyCount ⟨search, look, width, u.length⟩ r = .ok u := by
  obtain ⟨pad, hbits⟩ := bytesToBits_lzCompress search look width u
  have hempty : (lzCompress search look width u).length = 6 ↔ u.length = 0 :=
    lzCompress_length_eq_six_iff.trans List.length_eq_zero_iff.symm
  rw [readerOf, hbits]
  exact ⟨_, lzReadHeader_headerBits hlegal hempty 0 _, lzDecodeBody_compressTokens hu _ pad⟩

/-! ### LZ_COMP -/

theorem checkLzParams_of_legal {search look width n : Nat} (h : LzParamsLegal search look width n) :
    checkLzParams search look width n = .ok () := by
  obtain ⟨hsearch, hlook, hwidth, hn⟩ := h
  have hgood : checkRange .widthRange Config.wMin Config.wMax width = .ok () := checkRange_eq_ok.mpr hwidth
  rw [checkLzParams, checkRange_eq_ok.mpr hsearch, bind_ok, checkRange_eq_ok.mpr hlook, bind_ok, hgood, bind_ok,
    checkRange_eq_ok.mpr ⟨Nat.zero_le n, hn⟩]

/-- The operands of LZ_COMP in the order of their checks: those before a bad one are in range (42_lzss.md R181). -/
theorem checkLzParams_search {search : Nat} (h : ¬ (1 ≤ search ∧ search ≤ 4095)) (look width n : Nat) :
    checkLzParams search look width n = .error .paramRange := by
  rw [checkLzParams, checkRange_eq_error.mpr ⟨h, rfl⟩, bind_error]

theorem checkLzParams_look {search look : Nat} (hsearch : 1 ≤ search ∧ search ≤ 4095) (h : ¬ (1 ≤ look ∧ look ≤ 4095))
    (width n : Nat) : checkLzParams search look width n = .error .paramRange := by
  rw [checkLzParams, checkRange_eq_ok.mpr hsearch, bind_ok, checkRange_eq_error.mpr ⟨h, rfl⟩, bind_error]

theorem checkLzParams_width {search look width : Nat} (hsearch : 1 ≤ search ∧ search ≤ 4095) (hlook : 1 ≤ look ∧ look ≤ 4095)
    (h : ¬ (1 ≤ width ∧ width ≤ 16)) (n : Nat) : checkLzParams search look width n = .error .widthRange := by
  have hbad : checkRange .widthRange Config.wMin Config.wMax width = .error .widthRange := checkRange_eq_error.mpr ⟨h, rfl⟩
  rw [checkLzParams, checkRange_eq_ok.mpr hsearch, bind_ok, checkRange_eq_ok.mpr hlook, bind_ok, hbad, bind_error]

theorem checkLzParams_count {search look width n : Nat} (hsearch : 1 ≤ search ∧ search ≤ 4095) (hlook : 1 ≤ look ∧ look ≤ 4095)
    (hwidth : 1 ≤ width ∧ width ≤ 16) (h : 4096 < n) : checkLzParams search look width n = .error .paramRange := by
  have hgood : checkRange .widthRange Config.wMin Config.wMax width = .ok () := checkRange_eq_ok.mpr hwidth
  rw [checkLzParams, checkRange_eq_ok.mpr hsearch, bind_ok, checkRange_eq_ok.mpr hlook, bind_ok, hgood, bind_ok,
    checkRange_eq_error.mpr ⟨by omega, rfl⟩]

theorem exec_lzComp_operand_error {s : State} {c : Cause}
    (h : checkLzParams s.lreg.arg0.toNat s.lreg.arg1.toNat s.lreg.arg2.toNat s.lreg.arg3.toNat = .error c) :
    exec .lzComp s = .next (s.raise c) :=
  exec_of_checkCommand_error (checkCommand_of_operands_error h)

/-- Packed units of which the last does not end inside the bytes (30_encoding.md R118). -/
theorem unpack_short {bytes : List Byte} {w n : Nat} (h : 8 * bytes.length < n * w) :
    unpack bytes w n = .error .prematureEnd := by
  rw [unpack]
  cases hget : getMany w n (readerOf bytes) with
  | error c => rw [getMany_error_mem hget, bind_error]
  | ok x =>
    obtain ⟨u, r⟩ := x
    obtain ⟨rfl, -, hrest, -⟩ := getMany_eq_ok hget
    have hlen := congrArg List.length hrest
    rw [readerOf, bytesToBits_length, List.length_append, unitBits_length] at hlen
    omega

theorem unpack_of_bits {bytes : List Byte} {w n : Nat} {u : List Nat} {rest : List Bool} (hn : n = u.length)
    (hu : ∀ x ∈ u, x < 2 ^ w) (hbits : bytesToBits bytes = unitBits w u ++ rest) : unpack bytes w n = .ok u := by
  rw [unpack, hn, readerOf, hbits, getMany_unitBits w 0 u rest hu, bind_ok]

/-- The output and results of LZ_COMP for the units `u` (42_lzss.md R180). -/
def lzCompOutput (search look width : Nat) (u : List Nat) : Output where
  out0 := lzCompress search look width u
  out1 := []
  res0 := (lzCompress search look width u).length
  res1 := countLits (compressTokens search look width u)
  res2 := countMats (compressTokens search look width u)
  res3 := (bodyBits search look width (compressTokens search look width u)).length

/-- LZ_COMP whose checks pass (42_lzss.md R180): the units, then the room for the payload. -/
theorem cmdLzComp_of_check {p : Params} {r : RwRegs} (hcheck : checkCommand p .lzComp r = .ok ()) (m : Memory) :
    cmdLzComp p r m =
      unpack (regionBytes m (src0 r)) r.arg2.toNat r.arg3.toNat >>= fun u =>
      checkCapacity (dst0 r) (lzCompress r.arg0.toNat r.arg1.toNat r.arg2.toNat u).length >>= fun _ =>
      .ok (lzCompOutput r.arg0.toNat r.arg1.toNat r.arg2.toNat u) := by
  rw [cmdLzComp, hcheck, bind_ok]
  rfl

/-- The token counts and the body of at most 4096 units of width at most 16 are far below the width of a result. -/
theorem compress_results_lt {search look width n : Nat} {u : List Nat} (hlegal : LzParamsLegal search look width n)
    (hn : n = u.length) :
    countLits (compressTokens search look width u) < 2 ^ 32 ∧ countMats (compressTokens search look width u) < 2 ^ 32 ∧
    (bodyBits search look width (compressTokens search look width u)).length < 2 ^ 32 := by
  obtain ⟨-, -, ⟨-, hwidth⟩, hcount⟩ := hlegal
  have hbody := compressTokens_bodyBits_le search look width u
  have htokens := length_le_bodyBits_length search look width (compressTokens search look width u)
  have hkinds := countLits_add_countMats (compressTokens search look width u)
  have hbound : u.length * (1 + width) ≤ 4096 * 17 := Nat.mul_le_mul (hn ▸ hcount) (by omega)
  omega

section
variable {s : State} (hcheck : checkCommand s.params .lzComp s.lreg = .ok ())
include hcheck

theorem exec_lzComp_short (hshort : 8 * s.lreg.src0Len.toNat < s.lreg.arg3.toNat * s.lreg.arg2.toNat) :
    exec .lzComp s = .next (s.raise .prematureEnd) := by
  have hunpack : unpack (regionBytes s.mem (src0 s.lreg)) s.lreg.arg2.toNat s.lreg.arg3.toNat = .error .prematureEnd :=
    unpack_short (by rw [regionBytes, memBytes_length]; exact hshort)
  rw [exec_lzComp, cmdLzComp_of_check hcheck, hunpack, bind_error, complete_error]

variable {u : List Nat} (hunpack : unpack (regionBytes s.mem (src0 s.lreg)) s.lreg.arg2.toNat s.lreg.arg3.toNat = .ok u)
include hunpack

theorem exec_lzComp_overflow
    (hlong : s.lreg.dst0Cap.toNat < (lzCompress s.lreg.arg0.toNat s.lreg.arg1.toNat s.lreg.arg2.toNat u).length) :
    exec .lzComp s = .next (s.raise .dstOverflow) := by
  rw [exec_lzComp, cmdLzComp_of_check hcheck, hunpack, bind_ok, checkCapacity_eq_error.mpr ⟨hlong, rfl⟩, bind_error,
    complete_error]

theorem exec_lzComp_succeed
    (hfit : (lzCompress s.lreg.arg0.toNat s.lreg.arg1.toNat s.lreg.arg2.toNat u).length ≤ s.lreg.dst0Cap.toNat) :
    exec .lzComp s = .next (s.succeed (lzCompOutput s.lreg.arg0.toNat s.lreg.arg1.toNat s.lreg.arg2.toNat u)) := by
  rw [exec_lzComp, cmdLzComp_of_check hcheck, hunpack, bind_ok, checkCapacity_eq_ok.mpr hfit, bind_ok, complete_ok]

end

/-! ### LZ_DECOMP -/

theorem checkCommand_lzDecomp {p : Params} {r : RwRegs} (hregions : RegionsLegal p .lzDecomp r) :
    checkCommand p .lzDecomp r = .ok () :=
  checkCommand_eq_ok.mpr ⟨rfl, hregions⟩

/-- The output and results of LZ_DECOMP for the units `u` of a payload with header `h` (42_lzss.md R200, R211). -/
def lzDecompOutput (h : LzHeader) (u : List Nat) : Output where
  out0 := pack u h.width
  out1 := []
  res0 := u.length
  res1 := (pack u h.width).length
  res2 := h.width
  res3 := h.search

/-- LZ_DECOMP whose checks pass (42_lzss.md R200): the header, the body, the room for the units. -/
theorem cmdLzDecomp_of_check {p : Params} {r : RwRegs} (hcheck : checkCommand p .lzDecomp r = .ok ()) (m : Memory) :
    cmdLzDecomp p r m =
      lzReadHeader (regionReader m (src0 r)) r.src0Len.toNat >>= fun x =>
      lzDecodeBody Config.copyCount x.1 x.2 >>= fun u =>
      checkCapacity (dst0 r) (pack u x.1.width).length >>= fun _ => .ok (lzDecompOutput x.1 u) := by
  rw [cmdLzDecomp, hcheck, bind_ok]
  rfl

section
variable {s : State} (hcheck : checkCommand s.params .lzDecomp s.lreg = .ok ())
include hcheck

theorem exec_lzDecomp_header_error {c : Cause}
    (hread : lzReadHeader (regionReader s.mem (src0 s.lreg)) s.lreg.src0Len.toNat = .error c) :
    exec .lzDecomp s = .next (s.raise c) := by
  rw [exec_lzDecomp, cmdLzDecomp_of_check hcheck, hread, bind_error, complete_error]

variable {h : LzHeader} {r : BitReader}
  (hread : lzReadHeader (regionReader s.mem (src0 s.lreg)) s.lreg.src0Len.toNat = .ok (h, r))
include hread

theorem exec_lzDecomp_body_error {c : Cause} (hbody : lzDecodeBody Config.copyCount h r = .error c) :
    exec .lzDecomp s = .next (s.raise c) := by
  rw [exec_lzDecomp, cmdLzDecomp_of_check hcheck, hread, bind_ok, hbody, bind_error, complete_error]

variable {u : List Nat} (hbody : lzDecodeBody Config.copyCount h r = .ok u)
include hbody

theorem exec_lzDecomp_overflow (hlong : s.lreg.dst0Cap.toNat < (pack u h.width).length) :
    exec .lzDecomp s = .next (s.raise .dstOverflow) := by
  rw [exec_lzDecomp, cmdLzDecomp_of_check hcheck, hread, bind_ok, hbody, bind_ok,
    checkCapacity_eq_error.mpr ⟨hlong, rfl⟩, bind_error, complete_error]

theorem exec_lzDecomp_succeed (hfit : (pack u h.width).length ≤ s.lreg.dst0Cap.toNat) :
    exec .lzDecomp s = .next (s.succeed (lzDecompOutput h u)) := by
  rw [exec_lzDecomp, cmdLzDecomp_of_check hcheck, hread, bind_ok, hbody, bind_ok,
    checkCapacity_eq_ok.mpr hfit, bind_ok, complete_ok]

end

end Sys2Proof.Machine
end

section
/-! PROOFS. The statements about LZSS, `LZ_COMP` and `LZ_DECOMP` (42_lzss.md). -/

open Sys2Proof Sys2Proof.Machine

namespace Sys2Proof.Proofs

/-- Settles O54: the decoder follows the compressor token by token, since a match lies in the history the two share. -/
theorem lzssRoundTrip : Obligations.LzssRoundTrip := by
  intro search look width u hlegal hu
  exact lzDecode_lzCompress hlegal hu

/-- Settles O46: the units and the room for the payload, the first of them that fails deciding the error. -/
theorem lzCompCompletes : Obligations.LzCompCompletes := by
  intro s search look width n hlegal hregions
  have hcheck : checkCommand s.params .lzComp s.lreg = .ok () :=
    checkCommand_eq_ok.mpr ⟨checkLzParams_of_legal hlegal, hregions⟩
  refine ⟨exec_lzComp_short hcheck, fun u rest hn hu hbits => ?_⟩
  have hunpack := unpack_of_bits hn hu hbits
  refine ⟨fun hfit => ⟨_, exec_lzComp_succeed hcheck hunpack hfit, ?_⟩, exec_lzComp_overflow hcheck hunpack⟩
  obtain ⟨hlits, hmats, hbody⟩ := compress_results_lt hlegal hn
  exact complete_ok_completed s _ _ _ _ _ (hfit.trans_lt s.lreg.dst0Cap.isLt) hlits hmats hbody

/-- Settles O47: the match found is the best one, and none is found where none stands. -/
theorem searchTakesLongestThenNearest : Obligations.SearchTakesLongestThenNearest := by
  intro search n hist la
  refine ⟨fun i off h => ?_, fun h i off => searchMatch_eq_none h⟩
  have hbest := searchMatch_isBestMatch h
  exact ⟨⟨hbest.length_pos, hbest.length_le, hbest.length_le_offset, hbest.offset_lt⟩, hbest.stands, hbest.nearest, hbest.longest⟩

/-- Settles O48: each token is the next token of its position, which the search there decides. -/
theorem tokensLieInTheHistory : Obligations.TokensLieInTheHistory := by
  intro search look width u ts
  have hemits : Emits search look width [] u ts := compressTokens_emits search look width u
  refine ⟨?_, fun off len => hemits.match_bounds, hemits.units_sum⟩
  intro k t hk p hist la
  obtain ⟨x, xs, hunread, htoken⟩ := hemits.token_at hk
  have hp : p < u.length := by
    have hlen := congrArg List.length hunread
    rw [List.length_drop, List.length_cons] at hlen
    omega
  have hhist : hist = history search (u.take p) := by
    rw [history_eq_drop, List.length_take_of_le hp.le]
  have hx : u[p]? = some x := by
    rw [← Nat.add_zero p, ← List.getElem?_drop, hunread, List.getElem?_cons_zero]
  have hla : la = (x :: xs).take look := congrArg (List.take look) hunread
  rw [hhist, hla]
  rw [List.nil_append] at htoken
  exact ⟨x, hx, fun i off h => htoken.trans (nextToken_of_match h), fun h => htoken.trans (nextToken_of_no_match h)⟩

/-- Settles O49: the sizes of the tokens add up, and no match costs more than its literals. -/
theorem payloadSize : Obligations.PayloadSize := by
  intro search look width u ts bb
  have hsize : (lzCompress search look width u).length = (48 + bb + 7) / 8 := lzCompress_length search look width u
  have hbody : bb ≤ u.length * (1 + width) := compressTokens_bodyBits_le search look width u
  refine ⟨hsize, bodyBits_length search look width ts, ?_, hbody, by omega⟩
  rw [← (compressTokens_emits search look width u).units_sum]
  exact countLits_add_matchUnits (fun _ => rfl) (fun _ _ => rfl) ts

/-- Settles O50: the four fields read back and are checked, and a shorter payload ends inside one of them. -/
theorem lzHeaderRules : Obligations.LzHeaderRules := by
  refine ⟨fun search look width c pos nbytes rest hsearch hlook hwidth hc =>
    lzReadHeader_fields hsearch hlook hwidth hc pos nbytes rest, fun bytes nbytes h => lzReadHeader_short ?_ nbytes⟩
  rw [readerOf, bytesToBits_length]
  omega

/-- Settles O52: the copy loop reads a unit of the output, or one that it appended a period before. -/
theorem matchRepeatsTheLastUnits : Obligations.MatchRepeatsTheLastUnits := by
  intro off len out
  refine ⟨fun h => expandMatch_past_start h len, fun h hlen => ?_, fun hoff hlen => ?_,
    fun hpos hle _ => expandMatch_repeats hpos hle len⟩
  · rw [hlen, expandMatch_length_zero h]
  · rw [hoff, expandMatch_offset_zero hlen]

/-- Settles O53: the loop ends with the token that reaches the count, and reads no bit after it. -/
theorem decodedUnitsAndTrailingBits : Obligations.DecodedUnitsAndTrailingBits := by
  intro h r u hok
  obtain ⟨hlow, hhigh⟩ := lzDecodeBody_length hok
  exact ⟨hlow, hhigh, lzDecodeBody_extend hok⟩

/-- Settles O55: the header, the body and the room for the units, the first of them that fails deciding the error. -/
theorem lzDecompCompletes : Obligations.LzDecompCompletes := by
  intro s hregions
  have hcheck := checkCommand_lzDecomp hregions
  refine ⟨fun c => exec_lzDecomp_header_error hcheck, fun h r hread =>
    ⟨fun c => exec_lzDecomp_body_error hcheck hread, fun u hbody =>
      ⟨fun hfit => ⟨_, exec_lzDecomp_succeed hcheck hread hbody hfit, ?_⟩, exec_lzDecomp_overflow hcheck hread hbody⟩⟩⟩
  obtain ⟨⟨-, hsearch⟩, ⟨-, hlook⟩, ⟨-, hwidth⟩, hcount⟩ := lzReadHeader_eq_ok hread
  have hunits := (lzDecodeBody_length hbody).2 (by omega)
  rw [← pack_length]
  exact complete_ok_completed s _ _ _ _ _ (by omega) (hfit.trans_lt s.lreg.dst0Cap.isLt) (by omega) (by omega)

/-- Settles O45: each check raises its own error once those before it pass. -/
theorem lzCompOperandErrors : Obligations.LzCompOperandErrors := by
  intro s search look width n
  exact ⟨fun h => exec_lzComp_operand_error (checkLzParams_search h look width n),
    fun hsearch h => exec_lzComp_operand_error (checkLzParams_look hsearch h width n),
    fun hsearch hlook h => exec_lzComp_operand_error (checkLzParams_width hsearch hlook h n),
    fun hsearch hlook hwidth h => exec_lzComp_operand_error (checkLzParams_count hsearch hlook hwidth h)⟩

end Sys2Proof.Proofs
end

section
/-! SUPPORT. The parts of a section as `readSection` reads them one after another, and what the completions of `SEC_ENC` and `SEC_DEC` are
in each case (43_section.md). -/

open Sys2Proof Sys2Proof.Machine

namespace Sys2Proof.Machine

/-! ### Index widths and palette indices -/

theorem indexWidth_le_wMax_iff {n : Nat} : indexWidth n ≤ Config.wMax ↔ n ≤ 65535 :=
  (indexWidth_le_iff (by decide)).trans (Nat.lt_succ_iff (n := 65535))

theorem lt_two_pow_indexWidth (n : Nat) : n < 2 ^ indexWidth n :=
  (indexWidth_le_iff (le_max_left _ _)).mp le_rfl

/-- Palette decoding answers the cells the indices name (41_palette.md R154). -/
theorem paletteDecode_eq_ok_iff {pal cells : List Block} {idx : List Nat} :
    paletteDecode pal idx = .ok cells ↔ NamedCells pal idx cells := by
  induction idx generalizing cells with
  | nil => simp [paletteDecode, NamedCells, eq_comm]
  | cons k idx ih =>
    rw [paletteDecode, NamedCells, List.forall₂_cons_left_iff]
    cases pal[k]? with
    | none => simp
    | some b =>
      simp only [bind_eq_ok, ih, Except.ok.injEq, Option.some.injEq, eq_comm (a := cells)]
      exact ⟨fun ⟨out, hout, h⟩ => ⟨b, out, rfl, hout, h⟩, fun ⟨_, out, hb, hout, h⟩ => ⟨out, hout, hb ▸ h⟩⟩

theorem NamedCells.index_lt {pal cells : List Block} {idx : List Nat} (h : NamedCells pal idx cells) :
    ∀ k ∈ idx, k < pal.length := by
  induction h with
  | nil => simp
  | cons hk _ ih => exact List.forall_mem_cons.mpr ⟨(List.getElem?_eq_some_iff.mp hk).1, ih⟩

/-- An index that names no entry is INDEX_RANGE, whatever stands before and after it (41_palette.md R154). -/
theorem paletteDecode_out_of_range {pal : List Block} {idx : List Nat} (h : ∃ k ∈ idx, pal.length ≤ k) :
    paletteDecode pal idx = .error .indexRange := by
  cases hdecode : paletteDecode pal idx with
  | error c => rw [paletteDecode_error_mem hdecode]
  | ok cells =>
    obtain ⟨k, hk, hlong⟩ := h
    exact absurd ((paletteDecode_eq_ok_iff.mp hdecode).index_lt k hk) hlong.not_gt

/-! ### The payload as a field of bytes -/

theorem bytesToBits_eq_unitBits (bytes : List Byte) : bytesToBits bytes = unitBits 8 (bytes.map BitVec.toNat) := by
  induction bytes with
  | nil => rfl
  | cons b bytes ih => rw [bytesToBits, List.map_cons, unitBits, ← byteBits_ofNat, BitVec.ofNat_toNat, BitVec.setWidth_eq, ih]

/-- Bytes read one at a time (43_section.md R244). -/
theorem getMany_bytes (pos : Nat) (bytes : List Byte) (rest : List Bool) :
    getMany 8 bytes.length ⟨pos, bytesToBits bytes ++ rest⟩ =
      .ok (bytes.map BitVec.toNat, ⟨pos + bytes.length * 8, rest⟩) := by
  have hbyte : ∀ x ∈ bytes.map BitVec.toNat, x < 2 ^ 8 := by
    rintro x hx
    obtain ⟨b, -, rfl⟩ := List.mem_map.mp hx
    exact b.isLt
  have h := getMany_unitBits 8 pos _ rest hbyte
  rwa [List.length_map, ← bytesToBits_eq_unitBits] at h

theorem map_ofNat_toNat (bytes : List Byte) : (bytes.map BitVec.toNat).map (BitVec.ofNat 8) = bytes := by
  simp [Function.comp_def]

/-- Fields of which the last does not end inside the stream (20_memory.md R65). -/
theorem getMany_short {w n : Nat} {r : BitReader} (h : r.rest.length < n * w) : getMany w n r = .error .prematureEnd := by
  cases hget : getMany w n r with
  | error c => rw [getMany_error_mem hget]
  | ok x =>
    obtain ⟨rfl, -, hrest, -⟩ := getMany_eq_ok hget
    rw [hrest, List.length_append, unitBits_length] at h
    omega

/-! ### The parts of a section -/

/-- `readSection` from the payload's bytes on: its header, the agreement with the section, its body, the cells (43_section.md R245,
R246). -/
def decodePayload (np n nbytes : Nat) (pal : List Block) (pay : List Byte) (consumed : Nat) :
    Except Cause (Nat × Nat × List Block × Nat) := do
  let (h, rp) ← lzReadHeader (readerOf pay) nbytes
  failIf .inconsistentHeader (h.width != indexWidth np || h.count != n)
  let u ← lzDecodeBody Config.copyCount h rp
  let out ← paletteDecode pal (u.take n)
  .ok (np, n, out, consumed)

/-- `readSection` from the payload's length on (43_section.md R244). -/
def readPayload (np n : Nat) (pal : List Block) (r : BitReader) : Except Cause (Nat × Nat × List Block × Nat) := do
  let (cl, r) ← getCount r
  let (pay, r) ← getMany 8 cl r
  decodePayload np n cl pal (pay.map (BitVec.ofNat 8)) (r.pos / 8)

/-- `readSection` from the cell count on (43_section.md R243). -/
def readCells (p : Params) (np : Nat) (pal : List Block) (r : BitReader) : Except Cause (Nat × Nat × List Block × Nat) := do
  let (n, r) ← getCount r
  checkLimit p.maxCells n
  readPayload np n pal r

/-- A section is its palette size, its palette records, the check of the index width, and the rest (43_section.md R240). -/
theorem readSection_eq (p : Params) (bytes : List Byte) :
    readSection p bytes = getCount (readerOf bytes) >>= fun x => checkLimit p.maxPalette x.1 >>= fun _ =>
      readRecords x.1 x.2 >>= fun y => failIf .inconsistentHeader (decide (Config.wMax < indexWidth x.1)) >>= fun _ =>
      readCells p x.1 y.1 y.2 :=
  rfl

section
variable {np n nbytes consumed : Nat} {pal : List Block} {pay : List Byte}

theorem decodePayload_header_error {c : Cause} (hread : lzReadHeader (readerOf pay) nbytes = .error c) :
    decodePayload np n nbytes pal pay consumed = .error c := by
  rw [decodePayload, hread, bind_error]

variable {h : LzHeader} {rp : BitReader} (hread : lzReadHeader (readerOf pay) nbytes = .ok (h, rp))
include hread

theorem decodePayload_mismatch (hbad : h.width ≠ indexWidth np ∨ h.count ≠ n) :
    decodePayload np n nbytes pal pay consumed = .error .inconsistentHeader := by
  have hfail : (h.width != indexWidth np || h.count != n) = true := by simpa using hbad
  rw [decodePayload, hread, bind_ok]
  dsimp only
  rw [hfail, failIf, if_pos rfl, bind_error]

variable (hwidth : h.width = indexWidth np) (hcount : h.count = n)
include hwidth hcount

theorem decodePayload_of_agrees : decodePayload np n nbytes pal pay consumed =
    lzDecodeBody Config.copyCount h rp >>= fun u => paletteDecode pal (u.take n) >>= fun out => .ok (np, n, out, consumed) := by
  have hpass : (h.width != indexWidth np || h.count != n) = false := by simp [hwidth, hcount]
  rw [decodePayload, hread, bind_ok]
  dsimp only
  rw [hpass, failIf_eq_ok.mpr rfl, bind_ok]

theorem decodePayload_body_error {c : Cause} (hbody : lzDecodeBody Config.copyCount h rp = .error c) :
    decodePayload np n nbytes pal pay consumed = .error c := by
  rw [decodePayload_of_agrees hread hwidth hcount, hbody, bind_error]

variable {u : List Nat} (hbody : lzDecodeBody Config.copyCount h rp = .ok u)
include hbody

theorem decodePayload_index_error (hbad : ∃ k ∈ u.take n, pal.length ≤ k) :
    decodePayload np n nbytes pal pay consumed = .error .indexRange := by
  rw [decodePayload_of_agrees hread hwidth hcount, hbody, bind_ok, paletteDecode_out_of_range hbad, bind_error]

theorem decodePayload_cells {cells : List Block} (hcells : NamedCells pal (u.take n) cells) :
    decodePayload np n nbytes pal pay consumed = .ok (np, n, cells, consumed) := by
  rw [decodePayload_of_agrees hread hwidth hcount, hbody, bind_ok, paletteDecode_eq_ok_iff.mpr hcells, bind_ok]

end

section
variable {np n : Nat} {pal : List Block} {r : BitReader}

theorem readPayload_length_error {c : Cause} (h : getCount r = .error c) : readPayload np n pal r = .error c := by
  rw [readPayload, h, bind_error]

theorem readPayload_cut {pos len : Nat} {rest : List Bool} (hlen : len < 2147483648) (hshort : rest.length < len * 8) :
    readPayload np n pal ⟨pos, natBits 32 len ++ rest⟩ = .error .prematureEnd := by
  rw [readPayload, getCount_natBits _ _ _ hlen, bind_ok]
  dsimp only
  rw [getMany_short hshort, bind_error]

theorem readPayload_bytes (pos : Nat) {pay : List Byte} (rest : List Bool) (hpay : pay.length < 2147483648) :
    readPayload np n pal ⟨pos, natBits 32 pay.length ++ bytesToBits pay ++ rest⟩ =
      decodePayload np n pay.length pal pay ((pos + 32 + pay.length * 8) / 8) := by
  rw [readPayload, List.append_assoc, getCount_natBits _ _ _ hpay, bind_ok]
  dsimp only
  rw [getMany_bytes, bind_ok]
  dsimp only
  rw [map_ofNat_toNat]

variable {p : Params}

theorem readCells_count_error {c : Cause} (h : getCount r = .error c) : readCells p np pal r = .error c := by
  rw [readCells, h, bind_error]

theorem readCells_of_count (pos : Nat) (rest : List Bool) (hn : n < 2147483648) :
    readCells p np pal ⟨pos, natBits 32 n ++ rest⟩ =
      checkLimit p.maxCells n >>= fun _ => readPayload np n pal ⟨pos + 32, rest⟩ := by
  rw [readCells, getCount_natBits _ _ _ hn, bind_ok]

end

section
variable {p : Params} {bytes : List Byte}

theorem readSection_size_error {c : Cause} (h : getCount (readerOf bytes) = .error c) : readSection p bytes = .error c := by
  rw [readSection_eq, h, bind_error]

theorem readSection_of_size {np : Nat} {rest : List Bool} (hbits : bytesToBits bytes = natBits 32 np ++ rest)
    (hnp : np < 2147483648) :
    readSection p bytes = checkLimit p.maxPalette np >>= fun _ => readRecords np ⟨32, rest⟩ >>= fun y =>
      failIf .inconsistentHeader (decide (Config.wMax < indexWidth np)) >>= fun _ => readCells p np y.1 y.2 := by
  rw [readSection_eq, readerOf, hbits, getCount_natBits _ _ _ hnp, bind_ok]

theorem readSection_palette_error {np : Nat} {rest : List Bool} {c : Cause} (hbits : bytesToBits bytes = natBits 32 np ++ rest)
    (hnp : np < 2147483648) (hle : np ≤ p.maxPalette) (hread : readRecords np ⟨32, rest⟩ = .error c) :
    readSection p bytes = .error c := by
  rw [readSection_of_size hbits hnp, checkLimit_eq_ok.mpr hle, bind_ok, hread, bind_error]

variable {pal : List Block} {rest : List Bool} (hbits : bytesToBits bytes = natBits 32 pal.length ++ recordsBits pal ++ rest)
  (hcount : pal.length < 2147483648) (hle : pal.length ≤ p.maxPalette) (hlegal : ∀ b ∈ pal, b.Legal)
include hbits hcount hle hlegal

/-- A section whose palette reads goes on with the check of the index width (43_section.md R242). -/
theorem readSection_of_palette :
    readSection p bytes = failIf .inconsistentHeader (decide (Config.wMax < indexWidth pal.length)) >>= fun _ =>
      readCells p pal.length pal ⟨32 + (recordsBits pal).length, rest⟩ := by
  rw [List.append_assoc] at hbits
  rw [readSection_of_size hbits hcount, checkLimit_eq_ok.mpr hle, bind_ok, readRecords_recordsBits hlegal, bind_ok]

theorem readSection_wide (hwide : 65535 < pal.length) : readSection p bytes = .error .inconsistentHeader := by
  have hfail : Config.wMax < indexWidth pal.length := Nat.lt_of_not_le (mt indexWidth_le_wMax_iff.mp hwide.not_ge)
  rw [readSection_of_palette hbits hcount hle hlegal, failIf_eq_error.mpr ⟨decide_eq_true hfail, rfl⟩, bind_error]

theorem readSection_cells (hnarrow : pal.length ≤ 65535) :
    readSection p bytes = readCells p pal.length pal ⟨32 + (recordsBits pal).length, rest⟩ := by
  have hpass : ¬ Config.wMax < indexWidth pal.length := (indexWidth_le_wMax_iff.mpr hnarrow).not_gt
  rw [readSection_of_palette hbits hcount hle hlegal, failIf_eq_ok.mpr (decide_eq_false hpass), bind_ok]

theorem readSection_cells_over {n : Nat} {rest' : List Bool} (hnarrow : pal.length ≤ 65535) (hrest : rest = natBits 32 n ++ rest')
    (hn : n < 2147483648) (hover : p.maxCells < n) : readSection p bytes = .error .capacity := by
  rw [readSection_cells hbits hcount hle hlegal hnarrow, hrest, readCells_of_count _ _ hn, checkLimit_eq_error.mpr ⟨hover, rfl⟩,
    bind_error]

theorem readSection_payload {n : Nat} {rest' : List Bool} (hnarrow : pal.length ≤ 65535) (hrest : rest = natBits 32 n ++ rest')
    (hn : n < 2147483648) (hcells : n ≤ p.maxCells) :
    readSection p bytes = readPayload pal.length n pal ⟨32 + (recordsBits pal).length + 32, rest'⟩ := by
  rw [readSection_cells hbits hcount hle hlegal hnarrow, hrest, readCells_of_count _ _ hn, checkLimit_eq_ok.mpr hcells, bind_ok]

end

/-! ### A whole section -/

theorem sectionBits_length (pal : List Block) (n : Nat) (pay : List Byte) :
    (sectionBits pal n pay).length = 8 * (12 + (recordsBits pal).length / 8 + pay.length) := by
  have hrecords := Nat.mul_div_cancel' (dvd_recordsBits_length pal)
  simp only [sectionBits, List.length_append, natBits_length, bytesToBits_length]
  omega

theorem sectionBits_append (pal : List Block) (n : Nat) (pay : List Byte) (rest : List Bool) :
    sectionBits pal n pay ++ rest = natBits 32 pal.length ++ recordsBits pal ++
      (natBits 32 n ++ (natBits 32 pay.length ++ bytesToBits pay ++ rest)) := by
  simp only [sectionBits, List.append_assoc]

/-- A section takes whole bytes (30_encoding.md R115). -/
theorem bytesToBits_section (pal : List Block) (n : Nat) (pay : List Byte) :
    bytesToBits (bitsToBytes (sectionBits pal n pay)) = sectionBits pal n pay :=
  bytesToBits_bitsToBytes_of_dvd (sectionBits_length pal n pay ▸ Nat.dvd_mul_right _ _)

theorem sectionBytes_length (pal : List Block) (n : Nat) (pay : List Byte) :
    (bitsToBytes (sectionBits pal n pay)).length = 12 + (recordsBits pal).length / 8 + pay.length := by
  rw [bitsToBytes_length, sectionBits_length]
  omega

theorem sectionSize_le {bytes : List Byte} {pal : List Block} {n : Nat} {pay : List Byte} {rest : List Bool}
    (hbits : bytesToBits bytes = sectionBits pal n pay ++ rest) :
    12 + (recordsBits pal).length / 8 + pay.length ≤ bytes.length := by
  have hlen := congrArg List.length hbits
  rw [bytesToBits_length, List.length_append, sectionBits_length] at hlen
  omega

/-- A palette, a cell count and a payload that `readSection` lets pass up to the payload's header (43_section.md R241 to R244). -/
structure SectionInRange (p : Params) (pal : List Block) (n : Nat) (pay : List Byte) : Prop where
  palette_le : pal.length ≤ p.maxPalette
  palette_narrow : pal.length ≤ 65535
  palette_legal : ∀ b ∈ pal, b.Legal
  cells_le : n ≤ p.maxCells
  cells_lt : n < 2147483648
  payload_lt : pay.length < 2147483648

/-- Such a section is read up to its payload, whatever follows it (43_section.md R248). -/
theorem SectionInRange.readSection_eq {p : Params} {pal : List Block} {n : Nat} {pay : List Byte}
    (h : SectionInRange p pal n pay) {bytes : List Byte} {rest : List Bool}
    (hbits : bytesToBits bytes = sectionBits pal n pay ++ rest) :
    readSection p bytes =
      decodePayload pal.length n pay.length pal pay (12 + (recordsBits pal).length / 8 + pay.length) := by
  have hcount : pal.length < 2147483648 := h.palette_narrow.trans_lt (by decide)
  rw [sectionBits_append] at hbits
  have hrecords := Nat.mul_div_cancel' (dvd_recordsBits_length pal)
  rw [readSection_payload hbits hcount h.palette_le h.palette_legal h.palette_narrow rfl h.cells_lt h.cells_le,
    readPayload_bytes _ _ h.payload_lt]
  congr 1
  omega

/-! ### SEC_ENC -/

theorem checkCommand_secEnc {p : Params} {r : RwRegs} : checkCommand p .secEnc r = .ok () ↔
    (r.arg0.toNat ≤ 4096 ∧ (1 ≤ r.arg1.toNat ∧ r.arg1.toNat ≤ 4095) ∧ 1 ≤ r.arg2.toNat ∧ r.arg2.toNat ≤ 4095) ∧
    RegionsLegal p .secEnc r :=
  checkCommand_eq_ok.trans (and_congr_left' (by simp [checkOperands, bind_eq_ok, Unique.exists_iff]))

/-- The payload of a section with the palette `pal` and the indices `idx` (43_section.md R231, R234). -/
def sectionPayload (r : RwRegs) (pal : List Block) (idx : List Nat) : List Byte :=
  lzCompress r.arg1.toNat r.arg2.toNat (indexWidth pal.length) idx

/-- The output and results of SEC_ENC for the palette `pal` and the indices `idx` of its cells (43_section.md R230). -/
def secEncOutput (r : RwRegs) (pal : List Block) (idx : List Nat) : Output where
  out0 := bitsToBytes (sectionBits pal r.arg0.toNat (sectionPayload r pal idx))
  out1 := []
  res0 := (bitsToBytes (sectionBits pal r.arg0.toNat (sectionPayload r pal idx))).length
  res1 := pal.length
  res2 := indexWidth pal.length
  res3 := (sectionPayload r pal idx).length

/-- SEC_ENC whose checks pass (43_section.md R230): the records, the palette, the room for the section. -/
theorem cmdSecEnc_of_check {p : Params} {r : RwRegs} (hcheck : checkCommand p .secEnc r = .ok ()) (m : Memory) :
    cmdSecEnc p r m =
      readRecords r.arg0.toNat (regionReader m (src0 r)) >>= fun x =>
      paletteEncode p.maxPalette x.1 >>= fun y =>
      checkCapacity (dst0 r) (secEncOutput r y.1 y.2).out0.length >>= fun _ =>
      .ok (secEncOutput r y.1 y.2) := by
  rw [cmdSecEnc, hcheck, bind_ok]
  rfl

section
variable {s : State} (hcheck : checkCommand s.params .secEnc s.lreg = .ok ())
include hcheck

theorem exec_secEnc_record_error {c : Cause}
    (hread : readRecords s.lreg.arg0.toNat (regionReader s.mem (src0 s.lreg)) = .error c) :
    exec .secEnc s = .next (s.raise c) := by
  rw [exec_secEnc, cmdSecEnc_of_check hcheck, hread, bind_error, complete_error]

variable {g : List Block} {rd : BitReader}
  (hread : readRecords s.lreg.arg0.toNat (regionReader s.mem (src0 s.lreg)) = .ok (g, rd))
  {pal : List Block} {idx : List Nat} (hpal : paletteEncode s.params.maxPalette g = .ok (pal, idx))
include hread hpal

theorem exec_secEnc_overflow (hlong : s.lreg.dst0Cap.toNat < (secEncOutput s.lreg pal idx).out0.length) :
    exec .secEnc s = .next (s.raise .dstOverflow) := by
  rw [exec_secEnc, cmdSecEnc_of_check hcheck, hread, bind_ok, hpal, bind_ok, checkCapacity_eq_error.mpr ⟨hlong, rfl⟩, bind_error,
    complete_error]

/-- At most 4096 cells have at most as many entries, so an index takes at most 13 bits (43_section.md R237). -/
theorem secEnc_palette_bounds : pal.length ≤ s.lreg.arg0.toNat ∧ indexWidth pal.length ≤ 13 := by
  obtain ⟨⟨hn, -⟩, -⟩ := checkCommand_secEnc.mp hcheck
  have hcells : pal.length ≤ s.lreg.arg0.toNat := readRecords_length hread ▸ (paletteEncode_isPalette hpal).length_le_cells
  exact ⟨hcells, (indexWidth_le_iff (by decide)).mpr (by omega)⟩

theorem exec_secEnc_completed (hfit : (secEncOutput s.lreg pal idx).out0.length ≤ s.lreg.dst0Cap.toNat) :
    ∃ t, exec .secEnc s = .next t ∧ Completed s t (secEncOutput s.lreg pal idx).out0 []
      (secEncOutput s.lreg pal idx).out0.length pal.length (indexWidth pal.length) (sectionPayload s.lreg pal idx).length := by
  obtain ⟨hcells, hwidth⟩ := secEnc_palette_bounds hcheck hread hpal
  have hsize : (secEncOutput s.lreg pal idx).out0.length < 2 ^ 32 := hfit.trans_lt s.lreg.dst0Cap.isLt
  have hpay : (sectionPayload s.lreg pal idx).length < 2 ^ 32 := by
    refine lt_of_le_of_lt ?_ hsize
    rw [secEncOutput, sectionBytes_length]
    exact Nat.le_add_left _ _
  refine ⟨_, ?_, complete_ok_completed s _ _ _ _ _ hsize (hcells.trans_lt s.lreg.arg0.isLt) (by omega) hpay⟩
  rw [exec_secEnc, cmdSecEnc_of_check hcheck, hread, bind_ok, hpal, bind_ok, checkCapacity_eq_ok.mpr hfit, bind_ok]
  rfl

end

/-- What SEC_ENC leaves when it ends in DONE: the section of the grid it read (43_section.md R230). -/
theorem exec_secEnc_done {s t : State} (h : exec .secEnc s = .next t) (hdone : t.status = statusDone) :
    ∃ (g pal : List Block) (idx : List Nat) (rd : BitReader), checkCommand s.params .secEnc s.lreg = .ok () ∧
      readRecords s.lreg.arg0.toNat (regionReader s.mem (src0 s.lreg)) = .ok (g, rd) ∧
      paletteEncode s.params.maxPalette g = .ok (pal, idx) ∧
      memBytes t.mem (dst0 s.lreg).addr t.res0.toNat = (secEncOutput s.lreg pal idx).out0 := by
  obtain ⟨o, ho, rfl⟩ := exec_done h hdone
  obtain ⟨_, hcheck, hrest⟩ := bind_eq_ok.mp ho
  obtain ⟨⟨g, rd⟩, hread, hrest⟩ := bind_eq_ok.mp hrest
  obtain ⟨⟨pal, idx⟩, hpal, hrest⟩ := bind_eq_ok.mp hrest
  obtain ⟨_, hfit, -⟩ := bind_eq_ok.mp hrest
  obtain ⟨t, hexec, hcompleted⟩ := exec_secEnc_completed hcheck hread hpal (checkCapacity_eq_ok.mp hfit)
  cases h.symm.trans hexec
  have hmem := hcompleted.memBytes_dst0
  obtain ⟨-, ⟨hres0, -⟩, -⟩ := hcompleted
  exact ⟨g, pal, idx, rd, hcheck, hread, hpal, by rw [hres0, hmem]⟩

/-! ### SEC_DEC -/

theorem checkCommand_secDec {p : Params} {r : RwRegs} (hregions : RegionsLegal p .secDec r) :
    checkCommand p .secDec r = .ok () :=
  checkCommand_eq_ok.mpr ⟨rfl, hregions⟩

/-- The output and results of SEC_DEC for `n` cells `cells` of a palette of `np` entries, read from a section of `consumed` bytes
(43_section.md R247, R248). -/
def secDecOutput (np n : Nat) (cells : List Block) (consumed : Nat) : Output where
  out0 := bitsToBytes (recordsBits cells)
  out1 := []
  res0 := n
  res1 := (bitsToBytes (recordsBits cells)).length
  res2 := np
  res3 := consumed

/-- SEC_DEC whose checks pass (43_section.md R240): the section, then the room for the records. -/
theorem cmdSecDec_of_check {p : Params} {r : RwRegs} (hcheck : checkCommand p .secDec r = .ok ()) (m : Memory) :
    cmdSecDec p r m =
      readSection p (regionBytes m (src0 r)) >>= fun x =>
      checkCapacity (dst0 r) (bitsToBytes (recordsBits x.2.2.1)).length >>= fun _ =>
      .ok (secDecOutput x.1 x.2.1 x.2.2.1 x.2.2.2) := by
  rw [cmdSecDec, hcheck, bind_ok]
  rfl

section
variable {s : State} (hregions : RegionsLegal s.params .secDec s.lreg)
include hregions

theorem exec_secDec_section_error {c : Cause} (hread : readSection s.params (regionBytes s.mem (src0 s.lreg)) = .error c) :
    exec .secDec s = .next (s.raise c) := by
  rw [exec_secDec, cmdSecDec_of_check (checkCommand_secDec hregions), hread, bind_error, complete_error]

variable {np n consumed : Nat} {cells : List Block}
  (hread : readSection s.params (regionBytes s.mem (src0 s.lreg)) = .ok (np, n, cells, consumed))
include hread

theorem exec_secDec_overflow (hlong : s.lreg.dst0Cap.toNat < (bitsToBytes (recordsBits cells)).length) :
    exec .secDec s = .next (s.raise .dstOverflow) := by
  rw [exec_secDec, cmdSecDec_of_check (checkCommand_secDec hregions), hread, bind_ok, checkCapacity_eq_error.mpr ⟨hlong, rfl⟩,
    bind_error, complete_error]

theorem exec_secDec_succeed (hfit : (bitsToBytes (recordsBits cells)).length ≤ s.lreg.dst0Cap.toNat) :
    exec .secDec s = .next (s.succeed (secDecOutput np n cells consumed)) := by
  rw [exec_secDec, cmdSecDec_of_check (checkCommand_secDec hregions), hread, bind_ok, checkCapacity_eq_ok.mpr hfit, bind_ok,
    complete_ok]

end

/-- A section in range with room for its cells: its size is a 32-bit word, since it lies in the source region. -/
theorem SectionInRange.exec_secDec_completed {s : State} {pal cells : List Block} {n : Nat} {pay : List Byte} {rest : List Bool}
    (h : SectionInRange s.params pal n pay) (hregions : RegionsLegal s.params .secDec s.lreg)
    (hbits : bytesToBits (regionBytes s.mem (src0 s.lreg)) = sectionBits pal n pay ++ rest)
    (hread : readSection s.params (regionBytes s.mem (src0 s.lreg)) =
      .ok (pal.length, n, cells, 12 + (recordsBits pal).length / 8 + pay.length))
    (hfit : (bitsToBytes (recordsBits cells)).length ≤ s.lreg.dst0Cap.toNat) :
    ∃ t, exec .secDec s = .next t ∧ Completed s t (bitsToBytes (recordsBits cells)) [] n
      (bitsToBytes (recordsBits cells)).length pal.length (12 + (recordsBits pal).length / 8 + pay.length) := by
  have hsize : 12 + (recordsBits pal).length / 8 + pay.length ≤ s.lreg.src0Len.toNat := by
    have hle := sectionSize_le hbits
    rwa [regionBytes, memBytes_length] at hle
  exact ⟨_, exec_secDec_succeed hregions hread hfit, complete_ok_completed s _ _ _ _ _ (h.cells_lt.trans (by decide))
    (hfit.trans_lt s.lreg.dst0Cap.isLt) (h.palette_narrow.trans_lt (by decide)) (hsize.trans_lt s.lreg.src0Len.isLt)⟩

/-! ### The round trip -/

/-- At most 4096 units of at most 13 bits make a payload far below `2^31` bytes (42_lzss.md R194). -/
theorem lzCompress_length_lt {search look width : Nat} {u : List Nat} (hwidth : width ≤ 13) (hu : u.length ≤ 4096) :
    (lzCompress search look width u).length < 2147483648 := by
  have hbody := compressTokens_bodyBits_le search look width u
  have hbound : u.length * (1 + width) ≤ 4096 * 14 := Nat.mul_le_mul hu (by omega)
  rw [lzCompress_length]
  omega

/-- A grid of at most 4096 legal cells makes a section that SEC_DEC reads (43_section.md R237). -/
theorem IsPalette.sectionInRange {p : Params} {g pal : List Block} {idx : List Nat} (h : IsPalette p.maxPalette g pal idx)
    (hmaxCells : 4096 ≤ p.maxCells) (hcells : g.length ≤ 4096) (hg : ∀ b ∈ g, b.Legal) (r : RwRegs) :
    SectionInRange p pal g.length (sectionPayload r pal idx) := by
  have hpal := h.length_le_cells
  have hwidth : indexWidth pal.length ≤ 13 := (indexWidth_le_iff (by decide)).mpr (by omega)
  exact {
    palette_le := h.length_le_limit
    palette_narrow := by omega
    palette_legal := fun b hb => hg b (h.mem_grid hb)
    cells_le := hcells.trans hmaxCells
    cells_lt := by omega
    payload_lt := lzCompress_length_lt hwidth (h.idx_length.trans_le hcells) }

/-- The indices of a grid, compressed at the index width of its palette, decode to themselves (43_section.md R231, 42_lzss.md R213). -/
theorem IsPalette.lzDecode_sectionPayload {limit : Nat} {g pal : List Block} {idx : List Nat} (h : IsPalette limit g pal idx)
    {r : RwRegs} (hsearch : 1 ≤ r.arg1.toNat ∧ r.arg1.toNat ≤ 4095) (hlook : 1 ≤ r.arg2.toNat ∧ r.arg2.toNat ≤ 4095)
    (hg : g.length ≤ 4096) :
    ∃ rd, lzReadHeader (readerOf (sectionPayload r pal idx)) (sectionPayload r pal idx).length =
        .ok (⟨r.arg1.toNat, r.arg2.toNat, indexWidth pal.length, idx.length⟩, rd) ∧
      lzDecodeBody Config.copyCount ⟨r.arg1.toNat, r.arg2.toNat, indexWidth pal.length, idx.length⟩ rd = .ok idx := by
  have hwidth : indexWidth pal.length ≤ 16 := indexWidth_le_wMax_iff.mpr (by have := h.length_le_cells; omega)
  refine lzDecode_lzCompress ⟨hsearch, hlook, ⟨le_max_left _ _, hwidth⟩, h.idx_length.trans_le hg⟩ fun k hk => ?_
  obtain ⟨c, hc⟩ := List.mem_iff_getElem?.mp hk
  exact (h.idx_lt hc).trans (lt_two_pow_indexWidth _)

end Sys2Proof.Machine
end

section
/-! PROOFS. The statements about sections, `SEC_ENC` and `SEC_DEC` (43_section.md). -/

open Sys2Proof Sys2Proof.Machine

namespace Sys2Proof.Proofs

/-- Settles O59: the payload decodes to the indices SEC_ENC compressed, which name the grid's cells as values. -/
theorem sectionRoundTrip : Obligations.SectionRoundTrip := by
  intro s t s' extra hvalid henc hdone hparams hregions hsrc hcap
  obtain ⟨-, -, hmaxCells, -⟩ := hvalid
  obtain ⟨g, pal, idx, rd, hcheck, hread, hpal, hmem⟩ := exec_secEnc_done henc hdone
  obtain ⟨⟨hn, hsearch, hlook⟩, -⟩ := checkCommand_secEnc.mp hcheck
  obtain ⟨hgridBits, hg⟩ := readRecords_eq_ok hread
  have hglen := readRecords_length hread
  rw [← hglen] at hn
  have hpalette := paletteEncode_isPalette hpal
  obtain ⟨cells, hnamed, hsame⟩ := hpalette.exists_sameGrid
  have hcellsLegal : ∀ b ∈ cells, b.Legal := fun b hb => hg b (hpalette.mem_grid (hnamed.mem_palette b hb))
  have hrange : SectionInRange s'.params pal g.length (sectionPayload s.lreg pal idx) := by
    rw [hparams]
    exact hpalette.sectionInRange hmaxCells hn hg s.lreg
  have hbits : bytesToBits (regionBytes s'.mem (src0 s'.lreg)) =
      sectionBits pal g.length (sectionPayload s.lreg pal idx) ++ bytesToBits extra := by
    rw [hsrc, hmem, bytesToBits_append, secEncOutput, bytesToBits_section, hglen]
  obtain ⟨r, hheader, hbody⟩ := hpalette.lzDecode_sectionPayload hsearch hlook hn
  have hdecode := (hrange.readSection_eq hbits).trans
    (decodePayload_cells hheader rfl hpalette.idx_length hbody
      (cells := cells) (by rwa [← hpalette.idx_length, List.take_length]))
  obtain ⟨t', hdec, hcompleted⟩ :=
    hrange.exec_secDec_completed hregions hbits hdecode ((hsame.records_fit hread hcellsLegal).trans hcap)
  have hstatus := hcompleted.status_eq
  have hout := hcompleted.memBytes_dst0
  obtain ⟨-, ⟨hres0, hres1, -, hres3⟩, -⟩ := hcompleted
  refine ⟨t', g, cells, rd.rest, hdec, hstatus,
    BitVec.eq_of_toNat_eq (hres0.trans hglen), BitVec.eq_of_toNat_eq ?_, hgridBits, hglen, ?_, hsame⟩
  · have hsize := congrArg List.length hmem
    rw [memBytes_length, secEncOutput, sectionBytes_length] at hsize
    rw [hres3, hsize]
  · rw [hres1, hout, bytesToBits_records]

/-- Settles O56: the records and the room for the section, the first of them that fails deciding the error. -/
theorem secEncCompletes : Obligations.SecEncCompletes := by
  intro s search look _ hn hsearch hlook hregions
  have hcheck := checkCommand_secEnc.mpr ⟨⟨hn, hsearch, hlook⟩, hregions⟩
  refine ⟨fun c => exec_secEnc_record_error hcheck, ?_⟩
  intro g pal idx rest hlen hg hbits hpal pay
  have hread := readRecords_region hlen hg hbits
  obtain ⟨hcells, hwidth⟩ := secEnc_palette_bounds hcheck hread hpal
  have hsize : (secEncOutput s.lreg pal idx).out0.length =
      12 + (recordsBits pal).length / 8 + pay.length := sectionBytes_length pal _ pay
  rw [← hsize, ← hlen]
  refine ⟨fun hfit => ?_, exec_secEnc_overflow hcheck hread hpal⟩
  obtain ⟨t, hexec, hcompleted⟩ := exec_secEnc_completed hcheck hread hpal hfit
  exact ⟨t, _, hexec, bytesToBits_section pal _ pay, rfl, hcompleted, hcells, hwidth⟩

/-- Settles O57: the section is in range, so its payload decides: the cells its units name, or the unit that names none. -/
theorem secDecCompletes : Obligations.SecDecCompletes := by
  intro s pal n pay h r u rest hregions hbits hpalLe hnarrow hlegal hcellsLe hcellsLt hpayLt hheader hwidth hcount hbody
  have hrange : SectionInRange s.params pal n pay := ⟨hpalLe, hnarrow, hlegal, hcellsLe, hcellsLt, hpayLt⟩
  have hread := hrange.readSection_eq hbits
  refine ⟨fun cells hnamed => ?_, fun hbad => ?_⟩
  · have hdecode := hread.trans (decodePayload_cells hheader hwidth hcount hbody (namedCells_iff.mpr hnamed))
    exact ⟨hrange.exec_secDec_completed hregions hbits hdecode, exec_secDec_overflow hregions hdecode⟩
  · exact exec_secDec_section_error hregions (hread.trans (decodePayload_index_error hheader hwidth hcount hbody hbad))

/-- Settles O58: a palette too wide is refused before the payload is read, a payload that disagrees right after its header. -/
theorem secDecRejectsMismatchedHeader : Obligations.SecDecRejectsMismatchedHeader := by
  intro s pal n pay h r rest hregions hbits hpalLe hpalLt hlegal hcellsLe hcellsLt hpayLt
  have hwide : 65535 < pal.length → exec .secDec s = .next (s.raise .inconsistentHeader) := fun hwide =>
    exec_secDec_section_error hregions
      (readSection_wide (hbits.trans (sectionBits_append pal n pay rest)) hpalLt hpalLe hlegal hwide)
  refine ⟨hwide, fun hheader hbad => ?_⟩
  by_cases hnarrow : pal.length ≤ 65535
  · have hrange : SectionInRange s.params pal n pay := ⟨hpalLe, hnarrow, hlegal, hcellsLe, hcellsLt, hpayLt⟩
    exact exec_secDec_section_error hregions ((hrange.readSection_eq hbits).trans (decodePayload_mismatch hheader hbad))
  · exact hwide (Nat.lt_of_not_le hnarrow)

/-- Settles O60: the parts of the section in stream order, each reached when those before it read. -/
theorem secDecReportsTheFirstError : Obligations.SecDecReportsTheFirstError := by
  intro s hregions bits fails
  have hfails : ∀ {c}, readSection s.params (regionBytes s.mem (src0 s.lreg)) = .error c → fails c :=
    exec_secDec_section_error hregions
  have hreader : readerOf (regionBytes s.mem (src0 s.lreg)) = ⟨0, bits⟩ := rfl
  refine ⟨fun hshort => hfails (readSection_size_error (getCount_short hshort)), fun v rest hbits hneg hlt => ?_,
    fun v rest hbits hlt hover => ?_, fun v rest c hbits hlt hle hread => hfails (readSection_palette_error hbits hlt hle hread),
    fun pal rest hbits hlt hle hlegal => ⟨fun hwide => hfails (readSection_wide hbits hlt hle hlegal hwide), fun hnarrow => ?_⟩⟩
  · exact hfails (readSection_size_error (by rw [hreader, hbits, getCount_negative _ _ hneg hlt]))
  · exact hfails (by rw [readSection_of_size hbits hlt, checkLimit_eq_error.mpr ⟨hover, rfl⟩, bind_error])
  have hcells := readSection_cells hbits hlt hle hlegal hnarrow
  refine ⟨fun hshort => hfails (hcells.trans (readCells_count_error (getCount_short hshort))), fun n rest' hrest hneg hn => ?_,
    fun n rest' hrest hn hover => hfails (readSection_cells_over hbits hlt hle hlegal hnarrow hrest hn hover),
    fun n rest' hrest hn hcellsLe => ?_⟩
  · exact hfails (hcells.trans (readCells_count_error (hrest ▸ getCount_negative _ _ hneg hn)))
  have hpayload := readSection_payload hbits hlt hle hlegal hnarrow hrest hn hcellsLe
  refine ⟨fun hshort => hfails (hpayload.trans (readPayload_length_error (getCount_short hshort))),
    fun len rest'' hrest' hneg hlen => ?_, fun len rest'' hrest' hlen hshort => ?_, fun pay rest'' hrest' hpay => ?_⟩
  · exact hfails (hpayload.trans (readPayload_length_error (hrest' ▸ getCount_negative _ _ hneg hlen)))
  · exact hfails (hpayload.trans (hrest' ▸ readPayload_cut hlen (by omega)))
  · rw [hrest', readPayload_bytes _ _ hpay] at hpayload
    exact ⟨fun c hheader => hfails (hpayload.trans (decodePayload_header_error hheader)),
      fun h r c hheader hwidth hcount hbody =>
        hfails (hpayload.trans (decodePayload_body_error hheader hwidth hcount hbody))⟩

end Sys2Proof.Proofs
end

section
/-! SUPPORT. The errors of 60_exceptions.md: every command function as the steps of 30_encoding.md R96, the causes each step can raise,
and what smaller destination regions change. -/

open Sys2Proof Sys2Proof.Machine

namespace Sys2Proof.Machine

/-! ### The steps of a command function -/

/-- The processing of a command: its outputs and results, before they are held to a capacity (30_encoding.md R96 step 4). -/
def processed (i : Instr) (p : Params) (r : RwRegs) (m : Memory) : Except Cause Output :=
  match i with
  | .bitw => .ok { out0 := [], out1 := [], res0 := b2r r.arg0.toNat, res1 := 0, res2 := 0, res3 := 0 }
  | .palEnc =>
    readRecords r.arg0.toNat (regionReader m (src0 r)) >>= fun x =>
    paletteEncode p.maxPalette x.1 >>= fun y => .ok (palEncOutput r.arg0.toNat y.1 y.2)
  | .palDec =>
    readRecords r.arg0.toNat (regionReader m (src0 r)) >>= fun x =>
    readIndexed x.1 r.arg1.toNat (regionReader m (src1 r)) >>= fun cells => .ok (palDecOutput r.arg0.toNat r.arg1.toNat cells)
  | .lzComp =>
    unpack (regionBytes m (src0 r)) r.arg2.toNat r.arg3.toNat >>= fun u =>
    .ok (lzCompOutput r.arg0.toNat r.arg1.toNat r.arg2.toNat u)
  | .lzDecomp =>
    lzReadHeader (regionReader m (src0 r)) r.src0Len.toNat >>= fun x =>
    lzDecodeBody Config.copyCount x.1 x.2 >>= fun u => .ok (lzDecompOutput x.1 u)
  | .secEnc =>
    readRecords r.arg0.toNat (regionReader m (src0 r)) >>= fun x =>
    paletteEncode p.maxPalette x.1 >>= fun y => .ok (secEncOutput r y.1 y.2)
  | .secDec =>
    readSection p (regionBytes m (src0 r)) >>= fun x => .ok (secDecOutput x.1 x.2.1 x.2.2.1 x.2.2.2)

/-- The capacity checks of a command's outputs, DST0 before DST1 (30_encoding.md R96 step 5, 60_exceptions.md R263). -/
def checkOutputs (r : RwRegs) (o : Output) : Except Cause Output := do
  checkCapacity (dst0 r) o.out0.length
  checkCapacity (dst1 r) o.out1.length
  .ok o

theorem checkOutputs_of_fit {r : RwRegs} {o : Output} (h0 : o.out0.length ≤ r.dst0Cap.toNat)
    (h1 : o.out1.length ≤ r.dst1Cap.toNat) : checkOutputs r o = .ok o := by
  rw [checkOutputs, checkCapacity_eq_ok.mpr h0, bind_ok, checkCapacity_eq_ok.mpr h1, bind_ok]

theorem checkOutputs_of_long {r : RwRegs} {o : Output}
    (h : r.dst0Cap.toNat < o.out0.length ∨ r.dst1Cap.toNat < o.out1.length) : checkOutputs r o = .error .dstOverflow := by
  rw [checkOutputs]
  by_cases h0 : o.out0.length ≤ r.dst0Cap.toNat
  · have h1 : checkCapacity (dst1 r) o.out1.length = .error .dstOverflow :=
      checkCapacity_eq_error.mpr ⟨h.resolve_left h0.not_gt, rfl⟩
    rw [checkCapacity_eq_ok.mpr h0, bind_ok, h1, bind_error]
  · rw [checkCapacity_eq_error.mpr ⟨Nat.lt_of_not_le h0, rfl⟩, bind_error]

/-- Checking the outputs passes them on or is DST_OVERFLOW. -/
theorem checkOutputs_cases (r : RwRegs) (o : Output) : checkOutputs r o = .ok o ∨ checkOutputs r o = .error .dstOverflow := by
  by_cases h : o.out0.length ≤ r.dst0Cap.toNat ∧ o.out1.length ≤ r.dst1Cap.toNat
  · exact .inl (checkOutputs_of_fit h.1 h.2)
  · exact .inr (checkOutputs_of_long (by omega))

/-- A command with one output has one capacity to check. -/
theorem checkOutputs_of_out1_nil (r : RwRegs) {o : Output} (h : o.out1 = []) :
    checkOutputs r o = checkCapacity (dst0 r) o.out0.length >>= fun _ => .ok o := by
  have h1 : checkCapacity (dst1 r) o.out1.length = .ok () := checkCapacity_eq_ok.mpr (by simp [h])
  rw [checkOutputs, h1]
  rfl

/-- A command whose checks pass processes its input and then holds the outputs to their regions. -/
theorem commandOutput_of_check {i : Instr} {p : Params} {r : RwRegs} (hcheck : checkCommand p i r = .ok ()) (m : Memory) :
    commandOutput i p r m = processed i p r m >>= checkOutputs r := by
  cases i with
  | bitw => rw [commandOutput, cmdBitw_eq_ok, processed, bind_ok, checkOutputs_of_fit (Nat.zero_le _) (Nat.zero_le _)]
  | palEnc =>
    rw [commandOutput, cmdPalEnc_of_check hcheck, processed]
    cases hread : readRecords r.arg0.toNat (regionReader m (src0 r)) with
    | error c => rfl
    | ok x =>
      simp only [bind_ok]
      cases hpal : paletteEncode p.maxPalette x.1 with
      | error c => rfl
      | ok y => rw [← indexArray_length hread hpal]; rfl
  | palDec =>
    simp only [commandOutput, cmdPalDec_of_check hcheck, processed, bind_assoc, bind_ok,
      checkOutputs_of_out1_nil r (o := palDecOutput _ _ _) rfl]
    rfl
  | lzComp =>
    simp only [commandOutput, cmdLzComp_of_check hcheck, processed, bind_assoc, bind_ok,
      checkOutputs_of_out1_nil r (o := lzCompOutput _ _ _ _) rfl]
    rfl
  | lzDecomp =>
    simp only [commandOutput, cmdLzDecomp_of_check hcheck, processed, bind_assoc, bind_ok,
      checkOutputs_of_out1_nil r (o := lzDecompOutput _ _) rfl]
    rfl
  | secEnc =>
    simp only [commandOutput, cmdSecEnc_of_check hcheck, processed, bind_assoc, bind_ok,
      checkOutputs_of_out1_nil r (o := secEncOutput _ _ _) rfl]
  | secDec =>
    simp only [commandOutput, cmdSecDec_of_check hcheck, processed, bind_assoc, bind_ok,
      checkOutputs_of_out1_nil r (o := secDecOutput _ _ _ _) rfl]
    rfl

/-- A command function is its checks, its processing and its capacity checks, in this order (30_encoding.md R96). -/
theorem commandOutput_eq (i : Instr) (p : Params) (r : RwRegs) (m : Memory) :
    commandOutput i p r m = checkCommand p i r >>= fun _ => processed i p r m >>= checkOutputs r := by
  cases hcheck : checkCommand p i r with
  | ok u => rw [commandOutput_of_check hcheck, bind_ok]
  | error c => rw [commandOutput_of_checkCommand_error m hcheck, bind_error]

/-- What a command that succeeds passed: its outputs are those of its processing. -/
theorem processed_of_commandOutput {i : Instr} {p : Params} {r : RwRegs} {m : Memory} {o : Output}
    (h : commandOutput i p r m = .ok o) : checkCommand p i r = .ok () ∧ processed i p r m = .ok o := by
  rw [commandOutput_eq] at h
  obtain ⟨_, hcheck, h⟩ := bind_eq_ok.mp h
  obtain ⟨o', hproc, h⟩ := bind_eq_ok.mp h
  obtain hfit | hlong := checkOutputs_cases r o'
  · exact ⟨hcheck, hproc.trans (hfit.symm.trans h)⟩
  · cases hlong.symm.trans h

/-! ### The operand checks -/

theorem checkOperands_palEnc_eq_error {p : Params} {r : RwRegs} {c : Cause} :
    checkOperands p .palEnc r = .error c ↔ p.maxCells < r.arg0.toNat ∧ c = .capacity :=
  checkLimit_eq_error

theorem checkOperands_palDec_eq_error {p : Params} {r : RwRegs} {c : Cause} :
    checkOperands p .palDec r = .error c ↔ (p.maxPalette < r.arg0.toNat ∨ p.maxCells < r.arg1.toNat) ∧ c = .capacity := by
  constructor
  · intro h
    obtain h | ⟨_, -, h⟩ := bind_eq_error.mp h
    · exact (checkLimit_eq_error.mp h).imp_left .inl
    · exact (checkLimit_eq_error.mp h).imp_left .inr
  · rintro ⟨h, rfl⟩
    by_cases hp : p.maxPalette < r.arg0.toNat
    · exact bind_eq_error.mpr (.inl (checkLimit_eq_error.mpr ⟨hp, rfl⟩))
    · exact bind_eq_error.mpr (.inr ⟨(), checkLimit_eq_ok.mpr (Nat.le_of_not_lt hp),
        checkLimit_eq_error.mpr ⟨h.resolve_left hp, rfl⟩⟩)

theorem checkOperands_secEnc_eq_ok {p : Params} {r : RwRegs} : checkOperands p .secEnc r = .ok () ↔
    r.arg0.toNat ≤ 4096 ∧ (1 ≤ r.arg1.toNat ∧ r.arg1.toNat ≤ 4095) ∧ 1 ≤ r.arg2.toNat ∧ r.arg2.toNat ≤ 4095 := by
  simp [checkOperands, bind_eq_ok, Unique.exists_iff]

/-- An operand of SEC_ENC out of range is PARAM_RANGE, whichever it is (43_section.md R230). -/
theorem checkOperands_secEnc_error {p : Params} {r : RwRegs} {c : Cause} (h : checkOperands p .secEnc r = .error c) :
    c = .paramRange := by
  obtain h | ⟨_, -, h⟩ := bind_eq_error.mp h
  · exact (checkRange_eq_error.mp h).2
  obtain h | ⟨_, -, h⟩ := bind_eq_error.mp h
  · exact (checkRange_eq_error.mp h).2
  · exact (checkRange_eq_error.mp h).2

theorem checkOperands_secEnc_of_bad {p : Params} {r : RwRegs}
    (h : 4096 < r.arg0.toNat ∨ ¬ (1 ≤ r.arg1.toNat ∧ r.arg1.toNat ≤ 4095) ∨ ¬ (1 ≤ r.arg2.toNat ∧ r.arg2.toNat ≤ 4095)) :
    checkOperands p .secEnc r = .error .paramRange := by
  cases hops : checkOperands p .secEnc r with
  | error c => rw [checkOperands_secEnc_error hops]
  | ok u =>
    obtain ⟨h0, h1, h2⟩ := checkOperands_secEnc_eq_ok.mp hops
    omega

/-- An LZSS parameter out of range is PARAM_RANGE or, for the width, WIDTH_RANGE (42_lzss.md R181). -/
theorem checkLzParams_error_mem {search look width n : Nat} {c : Cause} (h : checkLzParams search look width n = .error c) :
    c = .paramRange ∨ c = .widthRange := by
  obtain h | ⟨_, -, h⟩ := bind_eq_error.mp h
  · exact .inl (checkRange_eq_error.mp h).2
  obtain h | ⟨_, -, h⟩ := bind_eq_error.mp h
  · exact .inl (checkRange_eq_error.mp h).2
  obtain h | ⟨_, -, h⟩ := bind_eq_error.mp h
  · exact .inr (checkRange_eq_error.mp h).2
  · exact .inl (checkRange_eq_error.mp h).2

/-! ### The causes of each step -/

theorem checkOperands_error_mem {i : Instr} {p : Params} {r : RwRegs} {c : Cause} (h : checkOperands p i r = .error c) :
    c ∈ raisedBy i := by
  cases i with
  | bitw => cases h
  | palEnc => simp [raisedBy, (checkOperands_palEnc_eq_error.mp h).2]
  | palDec => simp [raisedBy, (checkOperands_palDec_eq_error.mp h).2]
  | lzComp => obtain rfl | rfl := checkLzParams_error_mem h <;> simp [raisedBy]
  | lzDecomp => cases h
  | secEnc => simp [raisedBy, checkOperands_secEnc_error h]
  | secDec => cases h

/-- Every command but BITW, which has no region and no output, can fail on its regions and its outputs. -/
theorem region_causes_mem {i : Instr} (h : i ≠ .bitw) :
    .badAddress ∈ raisedBy i ∧ .regionOverlap ∈ raisedBy i ∧ .dstOverflow ∈ raisedBy i := by
  cases i with
  | bitw => exact absurd rfl h
  | _ => simp [raisedBy]

theorem checkCommand_error_mem {i : Instr} {p : Params} {r : RwRegs} {c : Cause} (h : checkCommand p i r = .error c) :
    c ∈ raisedBy i := by
  have hregion : i ≠ .bitw := by
    rintro rfl
    cases (checkCommand_bitw p r).symm.trans h
  obtain ⟨hbounds, hoverlap, -⟩ := region_causes_mem hregion
  obtain hops | rfl | rfl := checkCommand_eq_error h
  · exact checkOperands_error_mem hops
  · exact hbounds
  · exact hoverlap

/-- At most 4096 cells never overflow a palette of at least 4096 entries (60_exceptions.md R264). -/
theorem paletteEncode_ne_error {limit : Nat} {g : List Block} (h : g.length ≤ limit) (c : Cause) :
    paletteEncode limit g ≠ .error c := by
  intro herr
  have hfull := (palLoop_error_mem herr).2 (Nat.zero_le _)
  rw [List.length_nil] at hfull
  omega

/-- A payload fails as its header or its body does, or on what they disagree with the section about (43_section.md R245, R246). -/
theorem decodePayload_error_mem {np n nbytes consumed : Nat} {pal : List Block} {pay : List Byte} {c : Cause}
    (h : decodePayload np n nbytes pal pay consumed = .error c) :
    c ∈ [.prematureEnd, .badLzssHeader, .inconsistentHeader, .badOffset, .indexRange] := by
  obtain h | ⟨⟨hd, rp⟩, -, h⟩ := bind_eq_error.mp h
  · obtain rfl | rfl := lzReadHeader_error_mem h <;> simp
  obtain h | ⟨_, -, h⟩ := bind_eq_error.mp h
  · simp [(failIf_eq_error.mp h).2]
  obtain h | ⟨u, -, h⟩ := bind_eq_error.mp h
  · obtain rfl | rfl := lzDecodeBody_error_mem h <;> simp
  obtain h | ⟨out, -, h⟩ := bind_eq_error.mp h
  · simp [paletteDecode_error_mem h]
  · cases h

/-- The cells of a section fail as a count does, on MAX_CELLS, on a payload cut short, or as the payload does. -/
theorem readCells_error_mem {p : Params} {np : Nat} {pal : List Block} {r : BitReader} {c : Cause}
    (h : readCells p np pal r = .error c) : c ∈ raisedBy .secDec := by
  obtain h | ⟨⟨n, r1⟩, -, h⟩ := bind_eq_error.mp h
  · obtain rfl | rfl := getCount_error_mem h <;> simp [raisedBy]
  obtain h | ⟨_, -, h⟩ := bind_eq_error.mp h
  · simp [raisedBy, (checkLimit_eq_error.mp h).2]
  obtain h | ⟨⟨cl, r2⟩, -, h⟩ := bind_eq_error.mp h
  · obtain rfl | rfl := getCount_error_mem h <;> simp [raisedBy]
  obtain h | ⟨⟨pay, r3⟩, -, h⟩ := bind_eq_error.mp h
  · simp [raisedBy, getMany_error_mem h]
  · have hsub : [.prematureEnd, .badLzssHeader, .inconsistentHeader, .badOffset, .indexRange] ⊆ raisedBy .secDec := by decide
    exact hsub (decodePayload_error_mem h)

theorem readSection_error_mem {p : Params} {bytes : List Byte} {c : Cause} (h : readSection p bytes = .error c) :
    c ∈ raisedBy .secDec := by
  rw [readSection_eq] at h
  obtain h | ⟨⟨np, r1⟩, -, h⟩ := bind_eq_error.mp h
  · obtain rfl | rfl := getCount_error_mem h <;> simp [raisedBy]
  obtain h | ⟨_, -, h⟩ := bind_eq_error.mp h
  · simp [raisedBy, (checkLimit_eq_error.mp h).2]
  obtain h | ⟨⟨pal, r2⟩, -, h⟩ := bind_eq_error.mp h
  · obtain rfl | rfl | rfl := readRecords_error_mem h <;> simp [raisedBy]
  obtain h | ⟨_, -, h⟩ := bind_eq_error.mp h
  · simp [raisedBy, (failIf_eq_error.mp h).2]
  · exact readCells_error_mem h

theorem unpack_error_mem {bytes : List Byte} {w n : Nat} {c : Cause} (h : unpack bytes w n = .error c) : c = .prematureEnd := by
  obtain h | ⟨x, -, h⟩ := bind_eq_error.mp h
  · exact getMany_error_mem h
  · cases h

/-- The processing of a command fails only with causes of its own row; SEC_ENC's palette cannot overflow, since its operand check left
at most 4096 cells. -/
theorem processed_error_mem {i : Instr} {p : Params} {r : RwRegs} {m : Memory} {c : Cause} (hvalid : p.Valid)
    (hops : checkOperands p i r = .ok ()) (h : processed i p r m = .error c) : c ∈ raisedBy i := by
  cases i with
  | bitw => cases h
  | palEnc =>
    obtain h | ⟨⟨g, rd⟩, -, h⟩ := bind_eq_error.mp h
    · obtain rfl | rfl | rfl := readRecords_error_mem h <;> simp [raisedBy]
    obtain h | ⟨y, -, h⟩ := bind_eq_error.mp h
    · simp [raisedBy, (palLoop_error_mem h).1]
    · cases h
  | palDec =>
    obtain h | ⟨⟨pal, rd⟩, -, h⟩ := bind_eq_error.mp h
    · obtain rfl | rfl | rfl := readRecords_error_mem h <;> simp [raisedBy]
    obtain h | ⟨cells, -, h⟩ := bind_eq_error.mp h
    · obtain rfl | rfl := readIndexed_error_mem h <;> simp [raisedBy]
    · cases h
  | lzComp =>
    obtain h | ⟨u, -, h⟩ := bind_eq_error.mp h
    · simp [raisedBy, unpack_error_mem h]
    · cases h
  | lzDecomp =>
    obtain h | ⟨⟨hd, rd⟩, -, h⟩ := bind_eq_error.mp h
    · obtain rfl | rfl := lzReadHeader_error_mem h <;> simp [raisedBy]
    obtain h | ⟨u, -, h⟩ := bind_eq_error.mp h
    · obtain rfl | rfl := lzDecodeBody_error_mem h <;> simp [raisedBy]
    · cases h
  | secEnc =>
    obtain h | ⟨⟨g, rd⟩, hread, h⟩ := bind_eq_error.mp h
    · obtain rfl | rfl | rfl := readRecords_error_mem h <;> simp [raisedBy]
    obtain h | ⟨y, -, h⟩ := bind_eq_error.mp h
    · obtain ⟨hn, -⟩ := checkOperands_secEnc_eq_ok.mp hops
      obtain ⟨-, -, -, hmaxPalette⟩ := hvalid
      have hcells : g.length ≤ p.maxPalette := by rw [readRecords_length hread]; omega
      exact absurd h (paletteEncode_ne_error hcells c)
    · cases h
  | secDec =>
    obtain h | ⟨x, -, h⟩ := bind_eq_error.mp h
    · exact readSection_error_mem h
    · cases h

/-- A command function fails only with the causes the table lists for it (60_exceptions.md R261). -/
theorem commandOutput_error_mem {i : Instr} {p : Params} {r : RwRegs} {m : Memory} {c : Cause} (hvalid : p.Valid)
    (h : commandOutput i p r m = .error c) : c ∈ raisedBy i := by
  have hregion : i ≠ .bitw := by
    rintro rfl
    cases (cmdBitw_eq_ok p r).symm.trans h
  rw [commandOutput_eq] at h
  obtain h | ⟨_, hcheck, h⟩ := bind_eq_error.mp h
  · exact checkCommand_error_mem h
  obtain h | ⟨o, -, h⟩ := bind_eq_error.mp h
  · exact processed_error_mem hvalid (checkCommand_eq_ok.mp hcheck).1 h
  obtain hfit | hlong := checkOutputs_cases r o
  · cases hfit.symm.trans h
  · cases hlong.symm.trans h
    exact (region_causes_mem hregion).2.2

/-! ### Smaller destination regions -/

/-- `d'` is the region `d` with a smaller length, or `d` itself. -/
def Shortened (d' d : Region) : Prop := d'.addr = d.addr ∧ d'.len ≤ d.len

theorem Shortened.holds {d' d : Region} (h : Shortened d' d) {a : Nat} (ha : regionHolds d' a = true) :
    regionHolds d a = true := by
  obtain ⟨haddr, hlen⟩ := h
  rw [regionHolds_eq_true] at ha ⊢
  omega

theorem Shortened.bounds {p : Params} {d' d : Region} (h : Shortened d' d) (hd : inBounds p d = true) :
    inBounds p d' = true := by
  obtain ⟨haddr, hlen⟩ := h
  have hd := of_decide_eq_true hd
  exact decide_eq_true (by omega)

theorem exists_getElem?_of_forall₂ {α : Type} {R : α → α → Prop} {xs ys : List α} (h : List.Forall₂ R xs ys) {k : Nat} {x : α}
    (hx : xs[k]? = some x) : ∃ y, ys[k]? = some y ∧ R x y := by
  induction h generalizing k with
  | nil => cases hx
  | @cons x' y' xs ys hxy _ ih =>
    cases k with
    | zero =>
      cases hx
      exact ⟨y', rfl, hxy⟩
    | succ k => exact ih hx

/-- Shortening destinations makes no new overlap: a common byte of the shorter regions is one of the longer (20_memory.md R62). -/
theorem regionsOverlap_of_shortened {srcs dsts' dsts : List Region} (h : List.Forall₂ Shortened dsts' dsts)
    (hov : regionsOverlap srcs dsts' = true) : regionsOverlap srcs dsts = true := by
  refine (Proofs.overlapIsACommonByte srcs dsts).mpr ?_
  obtain ⟨a, hsrc, d', hd', ha⟩ | ⟨j, k, d', e', a, hjk, hd', he', hda, hea⟩ := (Proofs.overlapIsACommonByte srcs dsts').mp hov
  · obtain ⟨j, hj⟩ := List.mem_iff_getElem?.mp hd'
    obtain ⟨d, hd, hshort⟩ := exists_getElem?_of_forall₂ h hj
    exact .inl ⟨a, hsrc, d, List.mem_iff_getElem?.mpr ⟨j, hd⟩, hshort.holds ha⟩
  · obtain ⟨d, hd, hshortD⟩ := exists_getElem?_of_forall₂ h hd'
    obtain ⟨e, he, hshortE⟩ := exists_getElem?_of_forall₂ h he'
    exact .inr ⟨j, k, d, e, a, hjk, hd, he, hshortD.holds hda, hshortE.holds hea⟩

@[simp] theorem sourceRegions_withCaps (i : Instr) (r : RwRegs) (cap0 cap1 : Word) :
    sourceRegions i (r.withCaps cap0 cap1) = sourceRegions i r := by
  cases i <;> rfl

@[simp] theorem checkOperands_withCaps (p : Params) (i : Instr) (r : RwRegs) (cap0 cap1 : Word) :
    checkOperands p i (r.withCaps cap0 cap1) = checkOperands p i r := by
  cases i <;> rfl

/-- No processing looks at a capacity. -/
@[simp] theorem processed_withCaps (i : Instr) (p : Params) (r : RwRegs) (cap0 cap1 : Word) (m : Memory) :
    processed i p (r.withCaps cap0 cap1) m = processed i p r m := by
  cases i <;> rfl

section
variable {r : RwRegs} {cap0 cap1 : Word} (hcap0 : cap0.toNat ≤ r.dst0Cap.toNat) (hcap1 : cap1.toNat ≤ r.dst1Cap.toNat)
include hcap0 hcap1

theorem destRegions_withCaps (i : Instr) : List.Forall₂ Shortened (destRegions i (r.withCaps cap0 cap1)) (destRegions i r) := by
  have h0 : Shortened (dst0 (r.withCaps cap0 cap1)) (dst0 r) := ⟨rfl, hcap0⟩
  have h1 : Shortened (dst1 (r.withCaps cap0 cap1)) (dst1 r) := ⟨rfl, hcap1⟩
  cases i with
  | bitw => exact .nil
  | palEnc => exact .cons h0 (.cons h1 .nil)
  | _ => exact .cons h0 .nil

theorem RegionsLegal.withCaps {p : Params} {i : Instr} (h : RegionsLegal p i r) : RegionsLegal p i (r.withCaps cap0 cap1) := by
  obtain ⟨hbounds, hoverlap⟩ := h
  have hshort := destRegions_withCaps hcap0 hcap1 i
  rw [RegionsLegal, sourceRegions_withCaps]
  refine ⟨fun g hg => ?_, ?_⟩
  · obtain hg | hg := List.mem_append.mp hg
    · exact hbounds g (List.mem_append_left _ hg)
    · obtain ⟨k, hk⟩ := List.mem_iff_getElem?.mp hg
      obtain ⟨d, hd, hgd⟩ := exists_getElem?_of_forall₂ hshort hk
      exact hgd.bounds (hbounds d (List.mem_append_right _ (List.mem_iff_getElem?.mpr ⟨k, hd⟩)))
  · rw [← Bool.not_eq_true]
    intro hov
    rw [regionsOverlap_of_shortened hshort hov] at hoverlap
    cases hoverlap

/-- A command that succeeds passes its checks and its processing with smaller capacities too, so the capacity checks decide. -/
theorem commandOutput_withCaps {i : Instr} {p : Params} {m : Memory} {o : Output} (h : commandOutput i p r m = .ok o) :
    commandOutput i p (r.withCaps cap0 cap1) m = checkOutputs (r.withCaps cap0 cap1) o := by
  obtain ⟨hcheck, hproc⟩ := processed_of_commandOutput h
  obtain ⟨hops, hregions⟩ := checkCommand_eq_ok.mp hcheck
  have hcheck' : checkCommand p i (r.withCaps cap0 cap1) = .ok () :=
    checkCommand_eq_ok.mpr ⟨by rwa [checkOperands_withCaps], hregions.withCaps hcap0 hcap1⟩
  rw [commandOutput_of_check hcheck', processed_withCaps, hproc, bind_ok]

end

/-- The results of a command that succeeds report the sizes of its outputs exactly. -/
theorem storedSizes_of_commandOutput {i : Instr} {s : State} {o : Output} (h : commandOutput i s.params s.lreg s.mem = .ok o) :
    storedSizes i (s.succeed o) = (o.out0.length, o.out1.length) := by
  obtain ⟨h0, h1⟩ := (commandOutput_fits h).length_le
  rw [storedSizes_succeed h, Nat.mod_eq_of_lt (h0.trans_lt s.lreg.dst0Cap.isLt),
    Nat.mod_eq_of_lt (h1.trans_lt s.lreg.dst1Cap.isLt)]

/-! ### The flag of an error -/

theorem errFlag_statusIdle : errFlag statusIdle = false := by decide

theorem errFlag_statusBusy : errFlag statusBusy = false := by decide

end Sys2Proof.Machine
end

section
/-! PROOFS. The statements about errors and how a command ends (60_exceptions.md). -/

open Sys2Proof Sys2Proof.Machine

namespace Sys2Proof.Proofs

/-- Settles O9: each step of the command function fails only with causes of the command's row. -/
theorem commandsRaiseOnlyTheirCauses : Obligations.CommandsRaiseOnlyTheirCauses := by
  intro i s t hvalid hexec herr
  rw [exec_eq_complete] at hexec
  obtain rfl := Host.Outcome.next.inj hexec
  cases hout : commandOutput i s.params s.lreg s.mem with
  | ok o =>
    rw [hout, complete_ok, succeed_status] at herr
    cases herr
  | error c => exact ⟨c, commandOutput_error_mem hvalid hout, rfl⟩

/-- Settles O13: with smaller capacities the same outputs are made, and only the check of their sizes is left to decide. -/
theorem outputsMustFitTheirRegions : Obligations.OutputsMustFitTheirRegions := by
  intro i s t cap0 cap1 hexec hdone hcap0 hcap1
  obtain ⟨o, hout, rfl⟩ := exec_done hexec hdone
  have hcapped : exec i { s with lreg := s.lreg.withCaps cap0 cap1 } =
      .next (State.complete { s with lreg := s.lreg.withCaps cap0 cap1 } (checkOutputs (s.lreg.withCaps cap0 cap1) o)) := by
    rw [exec_eq_complete, ← commandOutput_withCaps hcap0 hcap1 hout]
  rw [storedSizes_of_commandOutput hout, hcapped]
  refine ⟨fun hlong => ?_, fun h0 h1 => ?_⟩
  · rw [checkOutputs_of_long hlong, complete_error]
  · rw [checkOutputs_of_fit h0 h1]
    rfl

/-- Settles O8: a completion is on a result, which is an output or a cause. -/
theorem completionIsDoneOrPreciseError : Obligations.CompletionIsDoneOrPreciseError := by
  intro i s
  refine ⟨_, exec_eq_complete i s, complete_phase s _, ?_⟩
  cases commandOutput i s.params s.lreg s.mem with
  | ok o => exact .inl ⟨rfl, rfl⟩
  | error c => exact .inr ⟨c, rfl⟩

/-- Settles O14: the operand checks come first, so where they fail their error is the command's. -/
theorem operandErrors : Obligations.OperandErrors := by
  intro s a0 a1 a2
  have hraise : ∀ {i c}, checkOperands s.params i s.lreg = .error c → exec i s = .next (s.raise c) := fun h =>
    exec_of_checkCommand_error (checkCommand_of_operands_error h)
  exact ⟨fun h => hraise (checkOperands_palEnc_eq_error.mpr ⟨h, rfl⟩),
    fun h => hraise (checkOperands_palDec_eq_error.mpr ⟨h, rfl⟩),
    fun h => hraise (checkOperands_secEnc_of_bad h),
    checkLimit_eq_ok.mpr,
    fun hp hn => bind_eq_ok.mpr ⟨(), checkLimit_eq_ok.mpr hp, checkLimit_eq_ok.mpr hn⟩,
    fun hn hs hs' hl hl' => checkOperands_secEnc_eq_ok.mpr ⟨hn, ⟨hs, hs'⟩, hl, hl'⟩,
    rfl, rfl, rfl⟩

/-- Settles O26: each of the three is the host's next event, taken while idle. -/
theorem nextStartClearsTheError : Obligations.NextStartClearsTheError := by
  intro s c ops hidle herr
  have hnotBusy : busyFlag (s.withHost ops).status = false := by
    rw [withHost_status, herr]
    rfl
  refine ⟨fun hhost => ?_, fun hhost => ?_, fun hhost => ?_⟩ <;> rw [step_of_idle_cons hidle hhost]
  · exact ⟨_, hostRegWrite_cmd_idle (s.withHost ops) c hnotBusy, errFlag_statusBusy, rfl, rfl, rfl, rfl, rfl, rfl⟩
  · exact ⟨_, rfl, errFlag_statusIdle, rfl, rfl, rfl, rfl, rfl, rfl⟩
  · exact hostRegRead_aligned (s.withHost ops) (off := offsetOf .errinfo) rfl

end Sys2Proof.Proofs
end

section
/-! SUPPORT. What a host access to memory meets while a command runs, what a reset leaves in the registers, and what the invariant says
of them while BUSY: what the proofs about reset and hazards share. -/

open Sys2Proof Sys2Proof.Machine

namespace Sys2Proof.Machine

/-! ### Host accesses to memory, inside and outside the regions of the running command -/

section
variable {s : State} {a : Nat} (ha : a < s.params.memSize)
include ha

/-- The host hazard (70_reset_and_hazards.md R310, 93_implementation_defined.md U-3). -/
theorem hostMemWrite_inside (b : Byte) (h : inRunningRegion s a = true) : hostMemWrite a b s = .fault (.hostHazard a) := by
  simp [hostMemWrite, memAccessWellFormed, ha, h]

theorem hostMemWrite_outside (b : Byte) (h : inRunningRegion s a = false) : hostMemWrite a b s = .next (s.storeByte a b) := by
  simp [hostMemWrite, memAccessWellFormed, ha, h]

/-- The unspecified read (70_reset_and_hazards.md R310, 93_implementation_defined.md U-2; log 5). -/
theorem hostMemRead_inside (h : inRunningDest s a = true) : hostMemRead a s = .next (s.sawFree a) := by
  simp [hostMemRead, memAccessWellFormed, ha, h]

theorem hostMemRead_outside (h : inRunningDest s a = false) : hostMemRead a s = .next (s.saw (.mem a (memRead s.mem a))) := by
  simp [hostMemRead, memAccessWellFormed, ha, h]

/-- Outside the regions of the running command a write stores its byte and changes nothing else. -/
theorem hostMemWrite_outside_stores (b : Byte) (h : inRunningRegion s a = false) :
    ∃ t, hostMemWrite a b s = .next t ∧ t = { s with mem := t.mem } ∧ memRead t.mem a = b ∧
      ∀ x, x ≠ a → memRead t.mem x = memRead s.mem x :=
  ⟨_, hostMemWrite_outside ha b h, rfl, memRead_memWrite_same s.mem a b, fun _ hx => memRead_memWrite_other s.mem b hx⟩

end

/-! ### The regions of the running command -/

theorem runningSources_of_decode {s : State} {i : Instr} (h : decode s.lcmd = .ok i) :
    runningSources s = sourceRegions i s.lreg := by
  rw [runningSources, h]

theorem runningDests_of_decode {s : State} {i : Instr} (h : decode s.lcmd = .ok i) : runningDests s = destRegions i s.lreg := by
  rw [runningDests, h]

/-- An illegal command word uses no region (70_reset_and_hazards.md R310, 30_encoding.md R93; log 12). -/
theorem running_regions_of_illegal {s : State} (h : ∀ i, decode s.lcmd ≠ .ok i) : runningSources s = [] ∧ runningDests s = [] := by
  rw [runningSources, runningDests]
  cases hdec : decode s.lcmd with
  | ok i => exact absurd hdec (h i)
  | error e => exact ⟨rfl, rfl⟩

section
variable {s : State} {i : Instr} {a : Nat} (hbusy : busyFlag s.status = true) (hdec : decode s.lcmd = .ok i)
include hbusy hdec

theorem inRunningRegion_eq_true :
    inRunningRegion s a = true ↔ ∃ g ∈ sourceRegions i s.lreg ++ destRegions i s.lreg, g.addr ≤ a ∧ a < g.addr + g.len := by
  simp only [inRunningRegion, running, hbusy, Bool.true_and, runningSources_of_decode hdec, runningDests_of_decode hdec,
    List.any_eq_true, regionHolds_eq_true]

theorem inRunningRegion_eq_false :
    inRunningRegion s a = false ↔
      ∀ g ∈ sourceRegions i s.lreg ++ destRegions i s.lreg, ¬ (g.addr ≤ a ∧ a < g.addr + g.len) := by
  simp [← Bool.not_eq_true, inRunningRegion_eq_true hbusy hdec]

theorem inRunningDest_eq_true :
    inRunningDest s a = true ↔ ∃ g ∈ destRegions i s.lreg, g.addr ≤ a ∧ a < g.addr + g.len := by
  simp only [inRunningDest, running, hbusy, Bool.true_and, runningDests_of_decode hdec, List.any_eq_true, regionHolds_eq_true]

theorem inRunningDest_eq_false :
    inRunningDest s a = false ↔ ∀ g ∈ destRegions i s.lreg, ¬ (g.addr ≤ a ∧ a < g.addr + g.len) := by
  simp [← Bool.not_eq_true, inRunningDest_eq_true hbusy hdec]

end

theorem inRunningRegion_of_illegal {s : State} (h : ∀ i, decode s.lcmd ≠ .ok i) (a : Nat) : inRunningRegion s a = false := by
  obtain ⟨hsrc, hdst⟩ := running_regions_of_illegal h
  simp [inRunningRegion, hsrc, hdst]

theorem inRunningDest_of_illegal {s : State} (h : ∀ i, decode s.lcmd ≠ .ok i) (a : Nat) : inRunningDest s a = false := by
  obtain ⟨-, hdst⟩ := running_regions_of_illegal h
  simp [inRunningDest, hdst]

/-! ### Reset -/

/-- The free values of log 1 stay in the ranges of 00_scope.md R8. -/
theorem config_params_valid : Config.params.Valid := by
  simp only [Params.Valid, Config.params]
  omega

/-- The power-on state is itself a state after a reset. -/
theorem afterReset_reset : State.reset.afterReset = State.reset := rfl

theorem rwGet_zero (r : RwReg) : rwGet RwRegs.zero r = 0#32 := by
  cases r <;> rfl

theorem regRead_id (s : State) : regRead s 0x00#8 = 0x51534601#32 := regRead_offsetOf s .id

/-- After a reset every register but `ID` reads 0 (70_reset_and_hazards.md R300). -/
theorem regRead_afterReset (s : State) {off : BitVec 8} (h : off ≠ 0x00#8) : regRead s.afterReset off = 0#32 := by
  rw [regRead]
  cases hreg : regAt off with
  | none => rfl
  | some n =>
    cases n with
    | id => exact absurd (regAt_id off hreg) h
    | rw r => exact rwGet_zero r
    | _ => rfl

theorem inv_reset : State.reset.Inv :=
  ⟨config_params_valid, reset_mem_wf, .inl rfl, by decide, by decide, by decide, by decide⟩

/-! ### Registers while BUSY -/

theorem offsetOf_aligned (n : RegName) : (offsetOf n).toNat % 4 = 0 := by
  cases n with
  | rw r => cases r <;> rfl
  | _ => rfl

theorem hostRegWrite_rw (s : State) (r : RwReg) (v : Word) :
    hostRegWrite 32 (offsetOf (.rw r)) v s = .next (s.withRw (rwSet s.rw r v)) := by
  rw [hostRegWrite_aligned s v (offsetOf_aligned _), regWrite_offsetOf, writeNamed_rw]

section
variable {s : State} (hinv : s.Inv) (hbusy : s.phase = .busy)
include hinv hbusy

theorem inv_busy_status : s.status = statusBusy := by
  obtain ⟨-, -, -, hphase, -⟩ := hinv
  exact hphase.mp hbusy

theorem inv_busy_errinfo : s.errinfo = 0#32 := by
  have hstatus := inv_busy_status hinv hbusy
  obtain ⟨-, -, -, -, herr, -⟩ := hinv
  by_contra hne
  exact absurd (hstatus.symm.trans (herr.mp hne)) (by decide)

theorem inv_busy_results : s.res0 = 0#32 ∧ s.res1 = 0#32 ∧ s.res2 = 0#32 ∧ s.res3 = 0#32 := by
  have hstatus := inv_busy_status hinv hbusy
  obtain ⟨-, -, -, -, -, -, hres⟩ := hinv
  exact hres (by rw [hstatus]; decide)

theorem inv_busy_busyFlag : busyFlag s.status = true := by
  rw [inv_busy_status hinv hbusy]
  rfl

end

end Sys2Proof.Machine
end

section
/-! PROOFS. The statements about reset and about host accesses while BUSY (70_reset_and_hazards.md). -/

open Sys2Proof Sys2Proof.Machine

namespace Sys2Proof.Proofs

/-- Settles O28: an access is decided by whether its byte lies in a region of the latched command, and an illegal word has none. -/
theorem busyMemoryHazards : Obligations.BusyMemoryHazards := by
  intro s a b hbusy ha
  refine ⟨fun i hdec => ⟨fun hin => ?_, fun hout => ?_, fun hin => ?_, fun hout => ?_⟩, fun hillegal => ⟨?_, ?_⟩⟩
  · exact hostMemWrite_inside ha b ((inRunningRegion_eq_true hbusy hdec).mpr hin)
  · exact hostMemWrite_outside_stores ha b ((inRunningRegion_eq_false hbusy hdec).mpr hout)
  · exact hostMemRead_inside ha ((inRunningDest_eq_true hbusy hdec).mpr hin)
  · exact hostMemRead_outside ha ((inRunningDest_eq_false hbusy hdec).mpr hout)
  · exact hostMemWrite_outside_stores ha b (inRunningRegion_of_illegal hillegal a)
  · exact hostMemRead_outside ha (inRunningDest_of_illegal hillegal a)

/-- Settles O17: nothing is written and every register is 0, so only the ranges of the parameters ask for arithmetic. -/
theorem resetMeetsTheInvariant : Obligations.ResetMeetsTheInvariant := inv_reset

/-- Settles O19: the event is `afterReset`, whatever the state. -/
theorem resetDiscardsTheCommand : Obligations.ResetDiscardsTheCommand := by
  intro s ops
  exact ⟨(s.withHost ops).afterReset, rfl, rfl, fun _ => rfl, regRead_id _, fun _ hoff => regRead_afterReset _ hoff⟩

/-- Settles O20: the registers are those after a reset, and no byte is written. -/
theorem powerOnState : Obligations.PowerOnState := by
  refine ⟨rfl, rfl, rfl, regRead_id _, fun off hoff => ?_, fun _ => rfl, config_params_valid, step_of_idle_nil rfl rfl⟩
  rw [← afterReset_reset]
  exact regRead_afterReset _ hoff

/-- Settles O29: the invariant gives the values of the busy machine, and the two writes are the register block's own rules. -/
theorem busyRegisterAccess : Obligations.BusyRegisterAccess := by
  intro s r v hinv hbusy
  obtain ⟨h0, h1, h2, h3⟩ := inv_busy_results hinv hbusy
  refine ⟨hostRegWrite_cmd_busy s v (inv_busy_busyFlag hinv hbusy),
    ⟨_, hostRegWrite_rw s r v, rfl, by simp, fun _ hoff => regRead_withRw_other s v hoff⟩, ?_⟩
  exact ⟨(regRead_offsetOf s .status).trans (inv_busy_status hinv hbusy),
    (regRead_offsetOf s .errinfo).trans (inv_busy_errinfo hinv hbusy), (regRead_offsetOf s .res0).trans h0,
    (regRead_offsetOf s .res1).trans h1, (regRead_offsetOf s .res2).trans h2, (regRead_offsetOf s .res3).trans h3⟩

end Sys2Proof.Proofs
end
